-- ==== Sys2Proof/Word.lean ====
section
/-! DEFINITION. The word types of BVLD (00_scope.md R5, R6): a word is 32 bits, a byte 8, a bit address of the
stream buffer 35, a register number 16. -/

namespace Sys2Proof

/-- A raw word, a field value, a 32-bit register (00 R5 WORD). -/
abbrev Word := BitVec 32

/-- A byte of the stream buffer, or a field descriptor. -/
abbrev Byte := BitVec 8

/-- A bit address of the stream buffer as a register holds it (00 R5 BPW, 10 R23). -/
abbrev BitAddr := BitVec 35

/-- A register number of the register port (10 R45). -/
abbrev RegNo := BitVec 16

end Sys2Proof
end

