-- ==== Sys2Proof/Syntax.lean ====
section
/-! DEFINITION. The instructions of BVLD: one constructor of `Instr` for each row of the opcode table, 28 command
words (30_encoding.md R71 to R75), the 7 encoding rows and the 12 predictor rows of the field descriptor
(30 R80 to R84). -/

namespace Sys2Proof

/-- The frame kinds, codes 0 to 3 (43 R172). -/
inductive Kind where
  | main | slow | gps | gpshome
  deriving DecidableEq, Repr

/-- The encodings, codes 0 to 6 (30 R81). -/
inductive Enc where
  | svar | uvar | neg14 | tagvar | tag32 | tag16 | null
  deriving DecidableEq, Repr

/-- The predictors, codes 0 to 11 (30 R82). -/
inductive Pred where
  | zero | previous | straightline | average2 | minthrottle | motor0 | increment | homelat
  | fifteenhundred | vbatref | lastmainframetime | minmotor
  deriving DecidableEq, Repr

/-- One constructor per row of the opcode table. A field descriptor matches one `FD.ENC` row and one `FD.PRED` row
(30 R84); each of the two rows carries the rest of the descriptor as its operands: the S bit, and the code of the
other row. -/
inductive Instr where
  -- class SYS (30 R71)
  | start
  | endStream
  | reset
  -- class BR (30 R72)
  | rdbits (n : BitVec 6)
  | rdabits (n : BitVec 6)
  | rduvar
  | rdsvar
  | align
  -- class DEC (30 R73)
  | decSvar (want : BitVec 4)
  | decUvar (want : BitVec 4)
  | decNeg14 (want : BitVec 4)
  | decTagvar (want : BitVec 4)
  | decTag32 (want : BitVec 4)
  | decTag16 (want : BitVec 4)
  | decNull (want : BitVec 4)
  -- class PRED (30 R74)
  | predZero (sg : Bool)
  | predPrevious (sg : Bool)
  | predStraightline (sg : Bool)
  | predAverage2 (sg : Bool)
  | predMinthrottle (sg : Bool)
  | predMotor0 (sg : Bool)
  | predIncrement (sg : Bool)
  | predHomelat (sg : Bool)
  | predFifteenhundred (sg : Bool)
  | predVbatref (sg : Bool)
  | predLastmainframetime (sg : Bool)
  | predMinmotor (sg : Bool)
  -- class FRM (30 R75)
  | frame (k : Kind)
  -- descriptor, encoding half (30 R81)
  | fdSvar (sg : Bool) (p : Pred)
  | fdUvar (sg : Bool) (p : Pred)
  | fdNeg14 (sg : Bool) (p : Pred)
  | fdTagvar (sg : Bool) (p : Pred)
  | fdTag32 (sg : Bool) (p : Pred)
  | fdTag16 (sg : Bool) (p : Pred)
  | fdNull (sg : Bool) (p : Pred)
  -- descriptor, predictor half (30 R82)
  | fdZero (sg : Bool) (e : Enc)
  | fdPrevious (sg : Bool) (e : Enc)
  | fdStraightline (sg : Bool) (e : Enc)
  | fdAverage2 (sg : Bool) (e : Enc)
  | fdMinthrottle (sg : Bool) (e : Enc)
  | fdMotor0 (sg : Bool) (e : Enc)
  | fdIncrement (sg : Bool) (e : Enc)
  | fdHomelat (sg : Bool) (e : Enc)
  | fdFifteenhundred (sg : Bool) (e : Enc)
  | fdVbatref (sg : Bool) (e : Enc)
  | fdLastmainframetime (sg : Bool) (e : Enc)
  | fdMinmotor (sg : Bool) (e : Enc)
  deriving DecidableEq, Repr

/-- Where an instruction's word stands: a command word written to CMD (30 R70), or a descriptor of FD that the
sequencer takes for the decode of a run (43 R175) or for a field step (43 R176). -/
inductive Slot where
  | command | encHalf | predHalf
  deriving DecidableEq, Repr

end Sys2Proof
end

