-- ==== Sys2Proof/WellFormed.lean ====
section
/-! DEFINITION. The operand ranges of 30_encoding.md R72 and R73 (R76 check 4): a bit count is at most 32, a WANT is
1 to MAXCHUNK of its encoding. Every other operand is legal at every value. -/

namespace Sys2Proof

/-- N is legal: 0 to 32 (30 R72). -/
abbrev countOk (n : BitVec 6) : Prop := n.toNat ≤ 32

/-- WANT is legal: 1 to MAXCHUNK of the encoding (30 R73, R81). -/
abbrev wantOk (maxChunk : Nat) (want : BitVec 4) : Prop := 1 ≤ want.toNat ∧ want.toNat ≤ maxChunk

/-- The operands are in range (30 R76 check 4). -/
def Instr.wf : Instr → Bool
  | .start => true
  | .endStream => true
  | .reset => true
  | .rdbits n => decide (countOk n)
  | .rdabits n => decide (countOk n)
  | .rduvar => true
  | .rdsvar => true
  | .align => true
  | .decSvar want => decide (wantOk 1 want)
  | .decUvar want => decide (wantOk 1 want)
  | .decNeg14 want => decide (wantOk 1 want)
  | .decTagvar want => decide (wantOk 8 want)
  | .decTag32 want => decide (wantOk 3 want)
  | .decTag16 want => decide (wantOk 4 want)
  | .decNull want => decide (wantOk 1 want)
  | .predZero _ => true
  | .predPrevious _ => true
  | .predStraightline _ => true
  | .predAverage2 _ => true
  | .predMinthrottle _ => true
  | .predMotor0 _ => true
  | .predIncrement _ => true
  | .predHomelat _ => true
  | .predFifteenhundred _ => true
  | .predVbatref _ => true
  | .predLastmainframetime _ => true
  | .predMinmotor _ => true
  | .frame _ => true
  | .fdSvar _ _ => true
  | .fdUvar _ _ => true
  | .fdNeg14 _ _ => true
  | .fdTagvar _ _ => true
  | .fdTag32 _ _ => true
  | .fdTag16 _ _ => true
  | .fdNull _ _ => true
  | .fdZero _ _ => true
  | .fdPrevious _ _ => true
  | .fdStraightline _ _ => true
  | .fdAverage2 _ _ => true
  | .fdMinthrottle _ _ => true
  | .fdMotor0 _ _ => true
  | .fdIncrement _ _ => true
  | .fdHomelat _ _ => true
  | .fdFifteenhundred _ _ => true
  | .fdVbatref _ _ => true
  | .fdLastmainframetime _ _ => true
  | .fdMinmotor _ _ => true

end Sys2Proof
end

