-- ==== Sys2Proof/Decode.lean ====
section
/-! DEFINITION. Decoding and encoding of command words and field descriptors (30_encoding.md R70 to R84). The decoder
is total on any 32-bit value written to CMD and on any descriptor byte, and rejects by name. -/

namespace Sys2Proof

/-- Why a word is no instruction: the check of 30 R76 that fails first, or 30 R83 for a descriptor. -/
inductive DecodeError where
  /-- Check 1: a bit above the word's width is set. -/
  | highBits
  /-- Check 2: CLASS above 4. -/
  | reservedClass
  /-- Check 3: OP not assigned in the class. -/
  | reservedOp
  /-- Check 4: an unused ARG bit is set or the operand is out of range. -/
  | badArg
  /-- A descriptor with ENC = 7. -/
  | reservedEnc
  /-- A descriptor with PRED 12 to 15. -/
  | reservedPred
  deriving DecidableEq, Repr

/-! Codes of kinds, encodings and predictors. -/

/-- The code of a frame kind (43 R172). -/
def Kind.code : Kind → BitVec 2
  | .main => 0
  | .slow => 1
  | .gps => 2
  | .gpshome => 3

/-- The frame kind of a code. -/
def kindOfCode (c : BitVec 2) : Kind :=
  match c.toNat with
  | 0 => .main
  | 1 => .slow
  | 2 => .gps
  | _ => .gpshome

/-- The code of an encoding (30 R81). -/
def Enc.code : Enc → BitVec 3
  | .svar => 0
  | .uvar => 1
  | .neg14 => 2
  | .tagvar => 3
  | .tag32 => 4
  | .tag16 => 5
  | .null => 6

/-- The encoding of a code; 7 is reserved (30 R83). -/
def encOfCode (c : BitVec 3) : Option Enc :=
  match c.toNat with
  | 0 => some .svar
  | 1 => some .uvar
  | 2 => some .neg14
  | 3 => some .tagvar
  | 4 => some .tag32
  | 5 => some .tag16
  | 6 => some .null
  | _ => none

/-- The code of a predictor (30 R82). -/
def Pred.code : Pred → BitVec 4
  | .zero => 0
  | .previous => 1
  | .straightline => 2
  | .average2 => 3
  | .minthrottle => 4
  | .motor0 => 5
  | .increment => 6
  | .homelat => 7
  | .fifteenhundred => 8
  | .vbatref => 9
  | .lastmainframetime => 10
  | .minmotor => 11

/-- The predictor of a code; 12 to 15 are reserved (30 R83). -/
def predOfCode (c : BitVec 4) : Option Pred :=
  match c.toNat with
  | 0 => some .zero
  | 1 => some .previous
  | 2 => some .straightline
  | 3 => some .average2
  | 4 => some .minthrottle
  | 5 => some .motor0
  | 6 => some .increment
  | 7 => some .homelat
  | 8 => some .fifteenhundred
  | 9 => some .vbatref
  | 10 => some .lastmainframetime
  | 11 => some .minmotor
  | _ => none

/-- MAXCHUNK(enc): the most field values one decode call emits (30 R81, 41 R133, 90 C1). -/
def Enc.maxChunk : Enc → Nat
  | .svar => 1
  | .uvar => 1
  | .neg14 => 1
  | .tagvar => 8
  | .tag32 => 3
  | .tag16 => 4
  | .null => 1

/-- ISSIGNED(enc) (30 R81, 41 R120). -/
def Enc.isSigned : Enc → Bool
  | .svar => true
  | .uvar => false
  | .neg14 => true
  | .tagvar => true
  | .tag32 => true
  | .tag16 => true
  | .null => false

/-! Field descriptors (30 R80, R84). -/

/-- A descriptor taken apart: S, ENC, PRED. -/
structure Descriptor where
  sg : Bool
  enc : Enc
  pred : Pred
  deriving DecidableEq, Repr

/-- A descriptor byte: legal when ENC is not 7 and PRED is below 12 (30 R83). -/
def decodeDescriptor (d : Byte) : Except DecodeError Descriptor :=
  match encOfCode (d.extractLsb' 4 3), predOfCode (d.extractLsb' 0 4) with
  | some e, some p => .ok { sg := d.getLsbD 7, enc := e, pred := p }
  | none, _ => .error .reservedEnc
  | _, none => .error .reservedPred

/-- The descriptor byte: 0x80 * S + 0x10 * ENC + PRED (30 R80). -/
def encodeDescriptor (d : Descriptor) : Byte :=
  BitVec.ofBool d.sg ++ d.enc.code ++ d.pred.code

/-- The descriptor is legal (30 R83). -/
def descriptorOk (d : Byte) : Bool :=
  match decodeDescriptor d with
  | .ok _ => true
  | .error _ => false

/-- The encoding half of a descriptor: its `FD.ENC` row (30 R84). -/
def Descriptor.encInstr (d : Descriptor) : Instr :=
  match d.enc with
  | .svar => .fdSvar d.sg d.pred
  | .uvar => .fdUvar d.sg d.pred
  | .neg14 => .fdNeg14 d.sg d.pred
  | .tagvar => .fdTagvar d.sg d.pred
  | .tag32 => .fdTag32 d.sg d.pred
  | .tag16 => .fdTag16 d.sg d.pred
  | .null => .fdNull d.sg d.pred

/-- The predictor half of a descriptor: its `FD.PRED` row (30 R84). -/
def Descriptor.predInstr (d : Descriptor) : Instr :=
  match d.pred with
  | .zero => .fdZero d.sg d.enc
  | .previous => .fdPrevious d.sg d.enc
  | .straightline => .fdStraightline d.sg d.enc
  | .average2 => .fdAverage2 d.sg d.enc
  | .minthrottle => .fdMinthrottle d.sg d.enc
  | .motor0 => .fdMotor0 d.sg d.enc
  | .increment => .fdIncrement d.sg d.enc
  | .homelat => .fdHomelat d.sg d.enc
  | .fifteenhundred => .fdFifteenhundred d.sg d.enc
  | .vbatref => .fdVbatref d.sg d.enc
  | .lastmainframetime => .fdLastmainframetime d.sg d.enc
  | .minmotor => .fdMinmotor d.sg d.enc

/-! Command words (30 R70 to R76). -/

/-- A command with no operand: ARG must be 0 (30 R71, R72). -/
def noArg (arg : Byte) (i : Instr) : Except DecodeError Instr :=
  if arg = 0 then .ok i else .error .badArg

/-- N = ARG[5:0], 0 to 32; ARG[7:6] must be 0 (30 R72). -/
def countArg (arg : Byte) (i : BitVec 6 → Instr) : Except DecodeError Instr :=
  if arg.extractLsb' 6 2 = 0 ∧ (arg.extractLsb' 0 6).toNat ≤ 32 then .ok (i (arg.extractLsb' 0 6))
  else .error .badArg

/-- WANT = ARG[3:0], 1 to MAXCHUNK; ARG[7:4] must be 0 (30 R73). -/
def wantArg (e : Enc) (arg : Byte) (i : BitVec 4 → Instr) : Except DecodeError Instr :=
  if arg.extractLsb' 4 4 = 0 ∧ 1 ≤ (arg.extractLsb' 0 4).toNat ∧ (arg.extractLsb' 0 4).toNat ≤ e.maxChunk then
    .ok (i (arg.extractLsb' 0 4))
  else .error .badArg

/-- S = ARG[7]; ARG[6:0] must be 0 (30 R74). -/
def signedArg (arg : Byte) (i : Bool → Instr) : Except DecodeError Instr :=
  if arg.extractLsb' 0 7 = 0 then .ok (i (arg.getLsbD 7)) else .error .badArg

/-- K = ARG[1:0]; ARG[7:2] must be 0 (30 R75). -/
def kindArg (arg : Byte) (i : Kind → Instr) : Except DecodeError Instr :=
  if arg.extractLsb' 2 6 = 0 then .ok (i (kindOfCode (arg.extractLsb' 0 2))) else .error .badArg

/-- Class SYS (30 R71). -/
def decodeSys (op : Nat) (arg : Byte) : Except DecodeError Instr :=
  match op with
  | 0 => noArg arg .start
  | 1 => noArg arg .endStream
  | 2 => noArg arg .reset
  | _ => .error .reservedOp

/-- Class BR (30 R72). -/
def decodeBr (op : Nat) (arg : Byte) : Except DecodeError Instr :=
  match op with
  | 0 => countArg arg .rdbits
  | 1 => countArg arg .rdabits
  | 2 => noArg arg .rduvar
  | 3 => noArg arg .rdsvar
  | 4 => noArg arg .align
  | _ => .error .reservedOp

/-- Class DEC (30 R73). -/
def decodeDec (op : Nat) (arg : Byte) : Except DecodeError Instr :=
  match op with
  | 0 => wantArg .svar arg .decSvar
  | 1 => wantArg .uvar arg .decUvar
  | 2 => wantArg .neg14 arg .decNeg14
  | 3 => wantArg .tagvar arg .decTagvar
  | 4 => wantArg .tag32 arg .decTag32
  | 5 => wantArg .tag16 arg .decTag16
  | 6 => wantArg .null arg .decNull
  | _ => .error .reservedOp

/-- Class PRED (30 R74). -/
def decodePred (op : Nat) (arg : Byte) : Except DecodeError Instr :=
  match op with
  | 0 => signedArg arg .predZero
  | 1 => signedArg arg .predPrevious
  | 2 => signedArg arg .predStraightline
  | 3 => signedArg arg .predAverage2
  | 4 => signedArg arg .predMinthrottle
  | 5 => signedArg arg .predMotor0
  | 6 => signedArg arg .predIncrement
  | 7 => signedArg arg .predHomelat
  | 8 => signedArg arg .predFifteenhundred
  | 9 => signedArg arg .predVbatref
  | 10 => signedArg arg .predLastmainframetime
  | 11 => signedArg arg .predMinmotor
  | _ => .error .reservedOp

/-- Class FRM (30 R75). -/
def decodeFrm (op : Nat) (arg : Byte) : Except DecodeError Instr :=
  match op with
  | 0 => kindArg arg .frame
  | _ => .error .reservedOp

/-- Checks 2 to 4 of 30 R76 on a command word: CLASS[15:12], OP[11:8], ARG[7:0]. -/
def decodeWord (c : BitVec 16) : Except DecodeError Instr :=
  let op := (c.extractLsb' 8 4).toNat
  let arg := c.extractLsb' 0 8
  match (c.extractLsb' 12 4).toNat with
  | 0 => decodeSys op arg
  | 1 => decodeBr op arg
  | 2 => decodeDec op arg
  | 3 => decodePred op arg
  | 4 => decodeFrm op arg
  | _ => .error .reservedClass

/-- Checks 1 to 4 of 30 R76 on the 32-bit value written to CMD (30 R70). Check 5, the mode, is in the meanings. -/
def decodeCommand (v : Word) : Except DecodeError Instr :=
  if v.extractLsb' 16 16 = 0 then decodeWord (v.extractLsb' 0 16) else .error .highBits

/-- The instruction a value stands for in a slot; a descriptor is 8 bits. -/
def decode (sl : Slot) (v : Word) : Except DecodeError Instr :=
  match sl with
  | .command => decodeCommand v
  | .encHalf =>
    if v.extractLsb' 8 24 = 0 then (decodeDescriptor (v.extractLsb' 0 8)).map Descriptor.encInstr
    else .error .highBits
  | .predHalf =>
    if v.extractLsb' 8 24 = 0 then (decodeDescriptor (v.extractLsb' 0 8)).map Descriptor.predInstr
    else .error .highBits

/-! The encoder, from the same tables. -/

/-- A command word (30 R70). -/
def commandWord (cls op : BitVec 4) (arg : Byte) : Word :=
  (cls ++ op ++ arg).setWidth 32

/-- A descriptor as the value of its register (10 R45). -/
def descriptorWord (sg : Bool) (e : Enc) (p : Pred) : Word :=
  (encodeDescriptor { sg := sg, enc := e, pred := p }).setWidth 32

/-- The ARG byte of a PRED command (30 R74). -/
def signedByte (sg : Bool) : Byte := BitVec.ofBool sg ++ (0 : BitVec 7)

/-- Where an instruction's word stands. -/
def Instr.slot : Instr → Slot
  | .fdSvar _ _ => .encHalf
  | .fdUvar _ _ => .encHalf
  | .fdNeg14 _ _ => .encHalf
  | .fdTagvar _ _ => .encHalf
  | .fdTag32 _ _ => .encHalf
  | .fdTag16 _ _ => .encHalf
  | .fdNull _ _ => .encHalf
  | .fdZero _ _ => .predHalf
  | .fdPrevious _ _ => .predHalf
  | .fdStraightline _ _ => .predHalf
  | .fdAverage2 _ _ => .predHalf
  | .fdMinthrottle _ _ => .predHalf
  | .fdMotor0 _ _ => .predHalf
  | .fdIncrement _ _ => .predHalf
  | .fdHomelat _ _ => .predHalf
  | .fdFifteenhundred _ _ => .predHalf
  | .fdVbatref _ _ => .predHalf
  | .fdLastmainframetime _ _ => .predHalf
  | .fdMinmotor _ _ => .predHalf
  | .start => .command
  | .endStream => .command
  | .reset => .command
  | .rduvar => .command
  | .rdsvar => .command
  | .align => .command
  | .rdbits _ => .command
  | .rdabits _ => .command
  | .decSvar _ => .command
  | .decUvar _ => .command
  | .decNeg14 _ => .command
  | .decTagvar _ => .command
  | .decTag32 _ => .command
  | .decTag16 _ => .command
  | .decNull _ => .command
  | .predZero _ => .command
  | .predPrevious _ => .command
  | .predStraightline _ => .command
  | .predAverage2 _ => .command
  | .predMinthrottle _ => .command
  | .predMotor0 _ => .command
  | .predIncrement _ => .command
  | .predHomelat _ => .command
  | .predFifteenhundred _ => .command
  | .predVbatref _ => .command
  | .predLastmainframetime _ => .command
  | .predMinmotor _ => .command
  | .frame _ => .command

/-- The word of an instruction (30 R71 to R75, R80). -/
def encode : Instr → Word
  | .start => commandWord 0 0 0
  | .endStream => commandWord 0 1 0
  | .reset => commandWord 0 2 0
  | .rdbits n => commandWord 1 0 (n.setWidth 8)
  | .rdabits n => commandWord 1 1 (n.setWidth 8)
  | .rduvar => commandWord 1 2 0
  | .rdsvar => commandWord 1 3 0
  | .align => commandWord 1 4 0
  | .decSvar want => commandWord 2 0 (want.setWidth 8)
  | .decUvar want => commandWord 2 1 (want.setWidth 8)
  | .decNeg14 want => commandWord 2 2 (want.setWidth 8)
  | .decTagvar want => commandWord 2 3 (want.setWidth 8)
  | .decTag32 want => commandWord 2 4 (want.setWidth 8)
  | .decTag16 want => commandWord 2 5 (want.setWidth 8)
  | .decNull want => commandWord 2 6 (want.setWidth 8)
  | .predZero sg => commandWord 3 0 (signedByte sg)
  | .predPrevious sg => commandWord 3 1 (signedByte sg)
  | .predStraightline sg => commandWord 3 2 (signedByte sg)
  | .predAverage2 sg => commandWord 3 3 (signedByte sg)
  | .predMinthrottle sg => commandWord 3 4 (signedByte sg)
  | .predMotor0 sg => commandWord 3 5 (signedByte sg)
  | .predIncrement sg => commandWord 3 6 (signedByte sg)
  | .predHomelat sg => commandWord 3 7 (signedByte sg)
  | .predFifteenhundred sg => commandWord 3 8 (signedByte sg)
  | .predVbatref sg => commandWord 3 9 (signedByte sg)
  | .predLastmainframetime sg => commandWord 3 10 (signedByte sg)
  | .predMinmotor sg => commandWord 3 11 (signedByte sg)
  | .frame k => commandWord 4 0 (k.code.setWidth 8)
  | .fdSvar sg p => descriptorWord sg .svar p
  | .fdUvar sg p => descriptorWord sg .uvar p
  | .fdNeg14 sg p => descriptorWord sg .neg14 p
  | .fdTagvar sg p => descriptorWord sg .tagvar p
  | .fdTag32 sg p => descriptorWord sg .tag32 p
  | .fdTag16 sg p => descriptorWord sg .tag16 p
  | .fdNull sg p => descriptorWord sg .null p
  | .fdZero sg e => descriptorWord sg e .zero
  | .fdPrevious sg e => descriptorWord sg e .previous
  | .fdStraightline sg e => descriptorWord sg e .straightline
  | .fdAverage2 sg e => descriptorWord sg e .average2
  | .fdMinthrottle sg e => descriptorWord sg e .minthrottle
  | .fdMotor0 sg e => descriptorWord sg e .motor0
  | .fdIncrement sg e => descriptorWord sg e .increment
  | .fdHomelat sg e => descriptorWord sg e .homelat
  | .fdFifteenhundred sg e => descriptorWord sg e .fifteenhundred
  | .fdVbatref sg e => descriptorWord sg e .vbatref
  | .fdLastmainframetime sg e => descriptorWord sg e .lastmainframetime
  | .fdMinmotor sg e => descriptorWord sg e .minmotor

/-! One word of the opcode table. -/

/-- Which row a lone descriptor byte is taken for. A byte matches an `FD.ENC` row and an `FD.PRED` row at once
(30 R84) and only the sequencer's phase says which of the two is being done; without a phase, a byte whose ENC field is
0 and whose PRED field is not is taken for its predictor row, every other byte for its encoding row. Log 9. -/
def descriptorSlot (d : Byte) : Slot :=
  if d.extractLsb' 4 3 = 0 ∧ d.extractLsb' 0 4 ≠ 0 then .predHalf else .encHalf

/-- The instruction of a table row's word: a row of 8 bits is a descriptor, a wider one a command word. -/
def decodeTableWord (nbits w : Nat) : Option Instr :=
  let v : Word := BitVec.ofNat 32 (w % 2 ^ nbits)
  let sl : Slot := if nbits ≤ 8 then descriptorSlot (v.extractLsb' 0 8) else .command
  match decode sl v with
  | .ok i => some i
  | .error _ => none

end Sys2Proof
end

