-- ==== Sys2Proof/Config.lean ====
section
/-! DEFINITION. The parameters of 00_scope.md R5 that the spec leaves OPEN (92 D12, D31, D45). A model takes them as
arguments: they are data of the state that no step changes, at the spec's defaults in the reset state, so that a
statement about every state holds under every setting. -/

namespace Sys2Proof

/-- SIGNED_SOURCE (92 D12, 43 R176): which signedness the sequencer hands to the predictor. -/
inductive SignedSource where
  /-- ISSIGNED of the encoding: the spec's default. -/
  | encoding
  /-- The S bit of the descriptor. -/
  | fielddef
  deriving DecidableEq, Repr

/-- PLAUSIBLE (92 D31, 43 R177): the frame plausibility check. A function cannot stand in the state, so the state
says which of the two the run has. -/
inductive PlausibleChoice where
  /-- The constant true: the spec's default. -/
  | alwaysTrue
  /-- Some other check, `Config.plausible`, of which nothing is known. -/
  | custom
  deriving DecidableEq, Repr

/-- The OPEN parameters. -/
structure Params where
  signedSource : SignedSource
  plausible : PlausibleChoice
  /-- NFMAX, the most fields in one frame definition (92 D45). -/
  nfmax : Nat
  deriving DecidableEq, Repr

/-- The defaults of 00 R5: ENCODING, always true, 256. -/
def Params.default : Params := { signedSource := .encoding, plausible := .alwaysTrue, nfmax := 256 }

/-- PLAUSIBLE(k, values, BUF, bp) where it is not the constant true: total, pure and otherwise unknown (43 R177,
90 C10). BUF is given as its bytes and its length, bp as a bit address. Log 12. -/
opaque Config.plausible : Kind → List Word → List (Nat × Byte) → Nat → Nat → Bool

end Sys2Proof
end

