-- ==== Sys2Proof/Machine/State.lean ====
section
/-! DEFINITION. The state of BVLD (10_state.md R20 to R47) and its value after reset (70_reset_and_hazards.md R230).
The state is in the three classes of 10 R20, configuration, run state and the transient state of a FRAME command,
beside the stream buffer, the OPEN parameters and the host's side of the register port. -/

namespace Sys2Proof.Machine

/-- Values at numbers, in one canonical form: numbers strictly rising, no entry equal to 0, which is what an unlisted
number reads as. The stream buffer and every indexed register file have this form. -/
abbrev Cells (w : Nat) := List (Nat × BitVec w)

/-- One value per frame kind (43 R172). -/
structure PerKind (α : Type) where
  main : α
  slow : α
  gps : α
  gpshome : α
  deriving DecidableEq, Repr

/-- The same value for every kind. -/
def PerKind.all {α : Type} (a : α) : PerKind α := { main := a, slow := a, gps := a, gpshome := a }

/-- MODE (10 R25). -/
inductive Mode where
  | config | between | inframe | eos | fatal
  deriving DecidableEq, Repr

/-- The codes STATUS.ERR ever holds (60 R200); 3 and 7 to 15 never appear. -/
inductive ErrCode where
  | none | endOfData | malformedFrame | invalidHeaderReference | illegalCommand | illegalDescriptor
  deriving DecidableEq, Repr

/-- The header constants (10 R29). -/
structure HeaderRegs where
  /-- HDR_VALID: bit 0 MINTHROTTLE_V, bit 1 VBATREF_V, bit 2 MOTOROUT_V. -/
  valid : BitVec 3
  minthrottle : Word
  vbatref : Word
  motorLo : Word
  motorHi : Word
  fwvariant : BitVec 8
  deriving DecidableEq, Repr

/-- M0IDX[k] (10 R31): bit 31 VALID, bits 15:0 INDEX. -/
structure M0Idx where
  valid : Bool
  index : BitVec 16
  deriving DecidableEq, Repr

/-- The configuration registers (10 R20, R28 to R32). -/
structure Configuration where
  buflen : Word
  hdr : HeaderRegs
  /-- NF[k], never above NFMAX (10 R30). -/
  nf : PerKind (BitVec 16)
  m0idx : PerKind M0Idx
  /-- FD[k][i] (10 R32). -/
  fd : PerKind (Cells 8)
  deriving DecidableEq, Repr

/-- The stored bits of STATUS (10 R26). -/
structure StatusRegs where
  err : ErrCode
  anyframe : Bool
  unsup : Bool
  evvalid : Bool
  deriving DecidableEq, Repr

/-- W[0] to W[7] (10 R21). -/
structure WRegs where
  w0 : Word
  w1 : Word
  w2 : Word
  w3 : Word
  w4 : Word
  w5 : Word
  w6 : Word
  w7 : Word
  deriving DecidableEq, Repr

/-- The operand registers of the PRED command (10 R40). -/
structure PaRegs where
  raw : Word
  last : Word
  llast : Word
  m0 : Word
  skip : Word
  /-- PA_VALID: bit 0 LAST_V, bit 1 LLAST_V, bit 2 M0_V. -/
  valid : BitVec 3
  deriving DecidableEq, Repr

/-- The statistics (10 R36 to R38). -/
structure Stats where
  nframes : PerKind Word
  ncorrupt : Word
  lastStart : Word
  lastEnd : Word
  deriving DecidableEq, Repr

/-- DIAGCNT and DIAGLAST (10 R39). -/
structure DiagRegs where
  cnt : Word
  last : Word
  deriving DecidableEq, Repr

/-- The event output (10 R44). -/
structure EventRegs where
  kind : Kind
  nf : BitVec 16
  seq : Word
  val : Cells 32
  deriving DecidableEq, Repr

/-- HIST[k] with its two valid bits HV[k] (10 R34). -/
structure History where
  l : Cells 32
  ll : Cells 32
  vl : Bool
  vll : Bool
  deriving DecidableEq, Repr

/-- The run state (10 R20). -/
structure RunState where
  mode : Mode
  status : StatusRegs
  /-- BP, the bit cursor (10 R23). -/
  bp : BitAddr
  /-- ERRFI (10 R27). -/
  errFi : Word
  /-- ERRBP, read as ERRBP_BYTE and ERRBP_BIT (10 R27). -/
  errBp : BitAddr
  w : WRegs
  wcnt : BitVec 4
  /-- PVAL (10 R22). -/
  pval : Word
  pa : PaRegs
  /-- SKIP[k] (10 R35). -/
  skip : PerKind Word
  stats : Stats
  diag : DiagRegs
  ev : EventRegs
  /-- CF, the frame under construction (10 R33). -/
  cf : Cells 32
  hist : PerKind History
  deriving DecidableEq, Repr

/-- The transient state of a FRAME command (10 R20, R24; 43 R173, R175): KIND and FI, the cursor saved at its
beginning, the raw words of the run that is being predicted and the index of the next of them. -/
structure FrameState where
  kind : Kind
  fi : Nat
  bp0 : BitAddr
  raw : List Word
  rj : Nat
  deriving DecidableEq, Repr

/-- One host action (43 R184, 70 R250): an access of the register port, or a hardware reset (70 R230). -/
inductive HostAction where
  | read (r : RegNo)
  | write (r : RegNo) (v : Word)
  | hardReset
  deriving DecidableEq, Repr

/-- The whole machine. -/
structure State where
  /-- The OPEN parameters (00 R5); no step changes them. -/
  params : Params
  /-- BUF (20 R50); no step changes it (20 R51). -/
  buf : Cells 8
  /-- The MODEL's own: the host actions still to come, the next one first. Log 7. -/
  port : List HostAction
  /-- The MODEL's own: what the port answered to the most recent read. Log 7. -/
  rdata : Word
  cfg : Configuration
  run : RunState
  frame : FrameState
  deriving DecidableEq, Repr

/-- The stops of the model. Both are safe: the spec gives no effect there, and no run from reset gets there. -/
inductive Fault where
  /-- Raised by a descriptor row executed where the sequencer is not fetching it: outside FRAME, or in the other
  phase of a run. 30 R80: "A descriptor is executed only by the sequencer inside FRAME". Safe. Log 10. -/
  | notSequenced
  /-- Raised by the sequencer when the descriptor at the field index is illegal, which START rules out (30 R83:
  "no illegal descriptor is ever fetched"). Safe. Log 10. -/
  | illegalDescriptorFetched
  deriving DecidableEq, Repr

/-- The refusals of the model. -/
inductive Refusal where
  /-- Raised by `exec` alone, for an instruction that has no meaning yet. Safe. -/
  | notModelled (mnemonic : String)
  deriving DecidableEq, Repr

/-- What one step answers. -/
abbrev Out := Host.Outcome State Fault Refusal

/-! Reset values (70 R230). -/

/-- Every configuration register at 0. FD is unspecified by the spec and read as 0 here (log 3). -/
def Configuration.reset : Configuration where
  buflen := 0
  hdr := { valid := 0, minthrottle := 0, vbatref := 0, motorLo := 0, motorHi := 0, fwvariant := 0 }
  nf := PerKind.all 0
  m0idx := PerKind.all { valid := false, index := 0 }
  fd := PerKind.all []

/-- The run state of a fresh parser. CF and HIST are unspecified by the spec and 0 here (logs 4, 5). -/
def RunState.reset : RunState where
  mode := .config
  status := { err := .none, anyframe := false, unsup := false, evvalid := false }
  bp := 0
  errFi := 0
  errBp := 0
  w := { w0 := 0, w1 := 0, w2 := 0, w3 := 0, w4 := 0, w5 := 0, w6 := 0, w7 := 0 }
  wcnt := 0
  pval := 0
  pa := { raw := 0, last := 0, llast := 0, m0 := 0, skip := 0, valid := 0 }
  skip := PerKind.all 0
  stats := { nframes := PerKind.all 0, ncorrupt := 0, lastStart := 0, lastEnd := 0 }
  diag := { cnt := 0, last := 0 }
  ev := { kind := .main, nf := 0, seq := 0, val := [] }
  cf := []
  hist := PerKind.all { l := [], ll := [], vl := false, vll := false }

/-- No FRAME command is running (10 R24; log 6). -/
def FrameState.idle : FrameState where
  kind := .main
  fi := 0
  bp0 := 0
  raw := []
  rj := 0

/-- The machine right after reset: no buffer supplied, no host action pending, the parameters at their defaults. -/
def State.reset : State where
  params := Params.default
  buf := []
  port := []
  rdata := 0
  cfg := Configuration.reset
  run := RunState.reset
  frame := FrameState.idle

end Sys2Proof.Machine
end

