-- ==== Sys2Proof/Machine/Flags.lean ====
section
/-! DEFINITION. The mode, status, error and diagnostic codes (10_state.md R25 to R27, R39; 60_exceptions.md R200;
42_predictors.md R161). -/

namespace Sys2Proof.Machine

/-- The value MODE reads as (10 R25). -/
def Mode.code : Mode → BitVec 3
  | .config => 0
  | .between => 1
  | .inframe => 2
  | .eos => 3
  | .fatal => 4

/-- The value STATUS.ERR reads as (60 R200). -/
def ErrCode.code : ErrCode → BitVec 4
  | .none => 0
  | .endOfData => 1
  | .malformedFrame => 2
  | .invalidHeaderReference => 4
  | .illegalCommand => 5
  | .illegalDescriptor => 6

/-- STATUS.ALIGNED, not stored: BP[2:0] = 0 (10 R26). -/
def aligned (bp : BitAddr) : Bool := bp.extractLsb' 0 3 == 0

/-- STATUS: ERR in bits 3:0, ANYFRAME 4, UNSUP 5, ALIGNED 6, EVVALID 7, the rest 0 (10 R26). -/
def statusWord (r : RunState) : Word :=
  (BitVec.ofBool r.status.evvalid ++ BitVec.ofBool (aligned r.bp) ++ BitVec.ofBool r.status.unsup
    ++ BitVec.ofBool r.status.anyframe ++ r.status.err.code).setWidth 32

/-- ERRFI: bit 31 INFRAME, bits 17:16 KIND, bits 15:0 the field index (10 R27). -/
def errFiWord (inFrame : Bool) (k : Kind) (i : Nat) : Word :=
  BitVec.ofBool inFrame ++ (0 : BitVec 13) ++ k.code ++ BitVec.ofNat 16 i

/-- BYTES_CONSUMED, not stored: (BP + 7) >> 3 (10 R38). -/
def bytesConsumed (bp : BitAddr) : Word := BitVec.ofNat 32 ((bp.toNat + 7) / 8)

/-- The predictor is one of the two stubs (42 R161). -/
def Pred.isStub : Pred → Bool
  | .zero => false
  | .previous => false
  | .straightline => false
  | .average2 => false
  | .minthrottle => false
  | .motor0 => false
  | .increment => false
  | .homelat => true
  | .fifteenhundred => false
  | .vbatref => false
  | .lastmainframetime => true
  | .minmotor => false

/-- diagnostic(c) (42 R161): UNSUP set, DIAGCNT up by one, DIAGLAST = 0x80000000 + c. -/
def diagnostic (p : Pred) (s : State) : State :=
  { s with
    run.status.unsup := true
    run.diag.cnt := s.run.diag.cnt + 1
    run.diag.last := 0x80000000#32 + p.code.setWidth 32 }

/-- What evaluating a predictor leaves in the diagnostic registers: a stub reports, no other does (42 R161, 60 R208). -/
def diagnose (p : Pred) (s : State) : State := if Pred.isStub p then diagnostic p s else s

end Sys2Proof.Machine
end

