-- ==== Sys2Proof/Machine/Ops.lean ====
section
/-! DEFINITION. The operations the meanings are written over: indexed storage and the stream buffer, the integer
views of 00_scope.md R7 to R9, the Bit Reader functions of 40_bit_reader.md, and what completing, refusing and
raising do (60_exceptions.md R204 to R207, 43_frame_sequencer.md R179). -/

namespace Sys2Proof.Machine

/-! ## Indexed storage -/

/-- The value at a number; an unlisted number reads 0. For BUF this is the DESIGN CHOICE of log 1, for FD, CF and
HIST that of logs 3 to 5. -/
def Cells.read {w : Nat} : Cells w → Nat → BitVec w
  | [], _ => 0
  | (k, x) :: t, a => if a = k then x else Cells.read t a

/-- Store a value; storing 0 removes the entry, so that the canonical form is kept. -/
def Cells.write {w : Nat} : Cells w → Nat → BitVec w → Cells w
  | [], a, v => if v = 0 then [] else [(a, v)]
  | (k, x) :: t, a, v =>
    if a < k then (if v = 0 then (k, x) :: t else (a, v) :: (k, x) :: t)
    else if a = k then (if v = 0 then t else (a, v) :: t)
    else (k, x) :: Cells.write t a v

/-- Entries at numbers from `lo` on, strictly rising, none of them 0. -/
def Cells.wfFrom {w : Nat} : Nat → Cells w → Bool
  | _, [] => true
  | lo, (k, x) :: t => decide (lo ≤ k) && decide (x ≠ 0) && Cells.wfFrom (k + 1) t

/-- The canonical form: numbers strictly rising, no entry equal to what an unlisted number reads as. -/
def Memory.wf {w : Nat} (m : Cells w) : Bool := Cells.wfFrom 0 m

/-- The first `n` entries of `src` stored over those of `dst`. -/
def Cells.copy {w : Nat} (src : Cells w) : Nat → Cells w → Cells w
  | 0, dst => dst
  | n + 1, dst => Cells.write (Cells.copy src n dst) n (Cells.read src n)

/-- The values at 0 to n-1. -/
def Cells.take {w : Nat} (m : Cells w) (n : Nat) : List (BitVec w) := (List.range n).map (Cells.read m)

/-- The value of one kind. -/
def PerKind.get {α : Type} (p : PerKind α) : Kind → α
  | .main => p.main
  | .slow => p.slow
  | .gps => p.gps
  | .gpshome => p.gpshome

/-- Store the value of one kind. -/
def PerKind.set {α : Type} (p : PerKind α) (k : Kind) (a : α) : PerKind α :=
  match k with
  | .main => { p with main := a }
  | .slow => { p with slow := a }
  | .gps => { p with gps := a }
  | .gpshome => { p with gpshome := a }

/-! ## Integer views (00 R7 to R9, 42 R143) -/

/-- val_W(signed, w) (00 R7). -/
def val {w : Nat} (sg : Bool) (x : BitVec w) : Int := if sg then x.toInt else x.toNat

/-- wrap_W(x) (00 R7). -/
def wrap (w : Nat) (x : Int) : BitVec w := BitVec.ofInt w x

/-- fits_W(signed, x) (42 R143). -/
def fits (w : Nat) (sg : Bool) (x : Int) : Bool :=
  if sg then decide (-(2 : Int) ^ (w - 1) ≤ x ∧ x ≤ (2 : Int) ^ (w - 1) - 1)
  else decide (0 ≤ x ∧ x ≤ (2 : Int) ^ w - 1)

/-- sext_N(v): the N-bit value copied up to 32 bits (00 R8). -/
def sext {n : Nat} (v : BitVec n) : Word := wrap 32 v.toInt

/-- zext_N(v) (00 R8). -/
def zext {n : Nat} (v : BitVec n) : Word := v.setWidth 32

/-- zigzag(u) (00 R9): (u >> 1) XOR wrap_32(-(u[0])). -/
def zigzag (u : Word) : Word := (u >>> 1) ^^^ wrap 32 (-((u.getLsbD 0).toNat : Int))

/-- x div2z: x / 2 rounded toward zero (00 R10). -/
def div2z (x : Int) : Int := x.tdiv 2

/-! ## The stream buffer and the Bit Reader (20 R50 to R57, 40 R100 to R105) -/

/-- BUF and BUFLEN: all that a Bit Reader function reads beside BP (41 R120). -/
structure Stream where
  buf : Cells 8
  len : Nat
  deriving DecidableEq, Repr

/-- The stream of a state. -/
def State.stream (s : State) : Stream := { buf := s.buf, len := s.cfg.buflen.toNat }

/-- The exceptions that a function raises and the command rolls back (60 R207). -/
inductive Exc where
  | endOfData | malformedFrame | invalidHeaderReference
  deriving DecidableEq, Repr

/-- The STATUS.ERR code of an exception (60 R200). -/
def Exc.err : Exc → ErrCode
  | .endOfData => .endOfData
  | .malformedFrame => .malformedFrame
  | .invalidHeaderReference => .invalidHeaderReference

/-- What a function of the Bit Reader or a decoder answers: a value and the bit cursor after it, or an exception and
the bit address it names (40 R100). -/
inductive Rd (α : Type) where
  | ok (v : α) (bp : Nat)
  | raised (x : Exc) (pos : Nat)
  deriving DecidableEq, Repr

/-- Go on after a value; an exception ends the command. -/
def Rd.andThen {α β : Type} : Rd α → (α → Nat → Rd β) → Rd β
  | .ok v bp, f => f v bp
  | .raised x p, _ => .raised x p

/-- StreamBit(p) = BUF[p >> 3][7 - (p & 7)] (20 R52). -/
def streamBit (buf : Cells 8) (p : Nat) : Bool := (buf.read (p / 8)).getLsbD (7 - p % 8)

/-- MemRead(p, n): the first bit read is the most significant bit of the result (20 R53). -/
def memRead (buf : Cells 8) (p : Nat) : (n : Nat) → BitVec n
  | 0 => 0
  | n + 1 => (memRead buf p n).concat (streamBit buf (p + n))

/-- The read of an n-bit pattern that `rdbits` makes: admitted when BP + n <= 8 * BUFLEN, else EndOfData at BP
(20 R57, 40 R101). -/
def readField (st : Stream) (bp n : Nat) : Rd (BitVec n) :=
  if bp + n > 8 * st.len then .raised .endOfData bp else .ok (memRead st.buf bp n) (bp + n)

/-- rdbits(n) (40 R101): the pattern zero-extended to a word. -/
def rdbits (st : Stream) (bp n : Nat) : Rd Word :=
  (readField st bp n).andThen fun v bp' => .ok (zext v) bp'

/-- align(): BP rounded up to a multiple of 8 (40 R102). -/
def alignUp (bp : Nat) : Nat := (bp + 7) / 8 * 8

/-- rdabits(n) (40 R102). -/
def rdabits (st : Stream) (bp n : Nat) : Rd Word := rdbits st (alignUp bp) n

/-- One byte, byte-aligned: `rdabits(8)` as a byte (20 R55). -/
def rdbyte (st : Stream) (bp : Nat) : Rd Byte := readField st (alignUp bp) 8

/-- VARMAX, the most bytes in one variable-length integer (00 R5, 92 D6). -/
def varMax : Nat := 5

/-- The loop of `rduvar` (40 R104): `left` bytes may still come, the next one is byte `i`, `r` is the value so far,
`entry` is BP on entry to `rduvar`. -/
def rduvarFrom (st : Stream) (entry : Nat) : (left i bp : Nat) → Word → Rd Word
  | 0, _, _, _ => .raised .malformedFrame entry
  | left + 1, i, bp, r =>
    (rdbyte st bp).andThen fun b bp' =>
      if i + 1 = varMax ∧ b.extractLsb' 4 3 ≠ 0 then .raised .malformedFrame entry
      else if b.getLsbD 7 then
        rduvarFrom st entry left (i + 1) bp' (r ||| (zext (b.extractLsb' 0 7) <<< (7 * i)))
      else .ok (r ||| (zext (b.extractLsb' 0 7) <<< (7 * i))) bp'

/-- rduvar(), the unsigned variable primitive (40 R104, 30 R85). -/
def rduvar (st : Stream) (bp : Nat) : Rd Word := rduvarFrom st bp varMax 0 bp 0

/-- rdsvar(), the signed variable primitive (40 R105, 30 R86). -/
def rdsvar (st : Stream) (bp : Nat) : Rd Word :=
  (rduvar st bp).andThen fun u bp' => .ok (zigzag u) bp'

/-! ## Completing, refusing, raising -/

/-- A command that completes, and a register write that is accepted, leave STATUS.ERR = 0 (60 R206). -/
def complete (s : State) : State := { s with run.status.err := .none }

/-- IllegalCommand: STATUS.ERR <- 5 and nothing else (60 R204). -/
def illegalCommand (s : State) : State := { s with run.status.err := .illegalCommand }

/-- IllegalDescriptor at START: ERR, ERRFI and ERRBP, nothing else (60 R205). -/
def illegalDescriptor (k : Kind) (i : Nat) (s : State) : State :=
  { s with
    run.status.err := .illegalDescriptor
    run.errFi := errFiWord false k i
    run.errBp := s.run.bp }

/-- The mode an exception leaves: InvalidHeaderReference is fatal (60 R203, R207). -/
def modeAfter (x : Exc) (m : Mode) : Mode :=
  match x with
  | .endOfData => m
  | .malformedFrame => m
  | .invalidHeaderReference => .fatal

/-- NCORRUPT and SKIP[KIND] up by one (43 R179). -/
def countFailed (s : State) : State :=
  { s with
    run.stats.ncorrupt := s.run.stats.ncorrupt + 1
    run.skip := s.run.skip.set s.frame.kind (s.run.skip.get s.frame.kind + 1) }

/-- An abandoned frame is counted unless the exception is fatal (43 R179, 60 R203). -/
def countUnlessFatal (x : Exc) (s : State) : State :=
  match x with
  | .endOfData => countFailed s
  | .malformedFrame => countFailed s
  | .invalidHeaderReference => s

/-- Taking an exception (60 R207, 43 R179). `pos` is the bit address it records, `i` the field index. The state is the
one at the raise: outside FRAME a command that raises has changed nothing, inside FRAME the cursor goes back to where
the command began, the frame is counted as failed and the transient state ends; the diagnostics of stubs evaluated
before it, ANYFRAME and the leftovers in CF stay. There is no handler and so no return from one (60 R212). -/
def takeException (x : Exc) (pos i : Nat) (s : State) : State :=
  if s.run.mode = .inframe then
    { countUnlessFatal x s with
      run.status.err := x.err
      run.errBp := BitVec.ofNat 35 pos
      run.errFi := errFiWord true s.frame.kind i
      run.bp := s.frame.bp0
      run.mode := modeAfter x .between
      frame := FrameState.idle }
  else
    { s with
      run.status.err := x.err
      run.errBp := BitVec.ofNat 35 pos
      run.errFi := 0
      run.mode := modeAfter x s.run.mode }

/-- Every register and register file takes its reset value; BUF, the parameters and the host's side stay
(43 R183, 70 R230, R231; log 14). -/
def resetMachine (s : State) : State :=
  { s with cfg := Configuration.reset, run := RunState.reset, frame := FrameState.idle }

/-- Check 5 of 30 R76 for the commands admitted in BETWEEN only: in any other mode the command is illegal. -/
def whenBetween (s : State) (o : Out) : Out :=
  if s.run.mode = .between then o else .next (illegalCommand s)

/-- Go on with the next state; a fault or a refusal ends the step. -/
def andThen : Out → (State → Out) → Out
  | .next s, f => f s
  | .fault r, _ => .fault r
  | .refused r, _ => .refused r

/-- BP moved to a bit address. -/
def setBp (bp : Nat) (s : State) : State := { s with run.bp := BitVec.ofNat 35 bp }

/-- W[0..n-1] from the list, the rest of W with 0, WCNT with n (10 R21). -/
def writeWords (ws : List Word) (s : State) : State :=
  { s with
    run.w := { w0 := ws.getD 0 0, w1 := ws.getD 1 0, w2 := ws.getD 2 0, w3 := ws.getD 3 0,
               w4 := ws.getD 4 0, w5 := ws.getD 5 0, w6 := ws.getD 6 0, w7 := ws.getD 7 0 }
    run.wcnt := BitVec.ofNat 4 ws.length }

/-- W[j]; the numbers above 7 name no register. -/
def WRegs.get (r : WRegs) : Nat → Word
  | 0 => r.w0
  | 1 => r.w1
  | 2 => r.w2
  | 3 => r.w3
  | 4 => r.w4
  | 5 => r.w5
  | 6 => r.w6
  | 7 => r.w7
  | _ => 0

/-- How a command that reads the stream ends: the words into W and BP moved on, or the exception (40 R103, 41 R121). -/
def finishRead (s : State) : Rd (List Word) → Out
  | .ok ws bp => .next (complete (writeWords ws (setBp bp s)))
  | .raised x p => .next (takeException x p 0 s)

/-- A Bit Reader command that writes W[0] (40 R103, R106, R108, R109). -/
def bitCommand (s : State) (r : Rd Word) : Out :=
  whenBetween s (finishRead s (r.andThen fun v bp => .ok [v] bp))

/-- A DEC command (41 R121): an illegal WANT is IllegalCommand. -/
def decCommand (e : Enc) (want : BitVec 4) (s : State) (dec : Stream → Nat → Nat → Rd (List Word)) : Out :=
  if 1 ≤ want.toNat ∧ want.toNat ≤ e.maxChunk then
    whenBetween s (finishRead s (dec s.stream s.run.bp.toNat want.toNat))
  else .next (illegalCommand s)

end Sys2Proof.Machine
end

