-- ==== Sys2Proof/Machine/BitReader.lean ====
section
/-! DEFINITION. The commands of class BR (40_bit_reader.md section 2). -/

namespace Sys2Proof.Machine

/-- RDBITS n (40 R103). -/
def execRdbits (n : BitVec 6) (s : State) : Out :=
  if n.toNat ≤ 32 then bitCommand s (rdbits s.stream s.run.bp.toNat n.toNat) else .next (illegalCommand s)

/-- RDABITS n (40 R106). -/
def execRdabits (n : BitVec 6) (s : State) : Out :=
  if n.toNat ≤ 32 then bitCommand s (rdabits s.stream s.run.bp.toNat n.toNat) else .next (illegalCommand s)

/-- RDUVAR (40 R108). -/
def execRduvar (s : State) : Out := bitCommand s (rduvar s.stream s.run.bp.toNat)

/-- RDSVAR (40 R109). -/
def execRdsvar (s : State) : Out := bitCommand s (rdsvar s.stream s.run.bp.toNat)

/-- ALIGN (40 R107): BP only; W and WCNT stay. -/
def execAlign (s : State) : Out :=
  whenBetween s (.next (complete (setBp (alignUp s.run.bp.toNat) s)))

end Sys2Proof.Machine
end

