-- ==== Sys2Proof/Machine/Decoders.lean ====
section
/-! DEFINITION. The Encoding Decoders (41_encoding_decoders.md): functions of the stream, the cursor and `want`, used
by the DEC commands and by the sequencer alike (41 R120, R121). -/

namespace Sys2Proof.Machine

/-- One word, whatever `want` is: the decoders with MAXCHUNK 1. -/
def oneWord (r : Rd Word) : Rd (List Word) := r.andThen fun v bp => .ok [v] bp

/-- dec_svar (41 R122). -/
def decSvar (st : Stream) (bp _want : Nat) : Rd (List Word) := oneWord (rdsvar st bp)

/-- dec_uvar (41 R123). -/
def decUvar (st : Stream) (bp _want : Nat) : Rd (List Word) := oneWord (rduvar st bp)

/-- The value of NEG14 (41 R124): the low 14 bits, sign-extended, negated. -/
def neg14 (u : Word) : Word := wrap 32 (-(u.extractLsb' 0 14).toInt)

/-- dec_neg14 (41 R124). -/
def decNeg14 (st : Stream) (bp _want : Nat) : Rd (List Word) :=
  oneWord ((rduvar st bp).andThen fun u bp' => .ok (neg14 u) bp')

/-- The slots of a tagged group in order, each read where the one before it ended (41 R132). -/
def readSlots (slot : Nat → Nat → Rd Word) : List Nat → Nat → Rd (List Word)
  | [], bp => .ok [] bp
  | j :: js, bp =>
    (slot j bp).andThen fun v bp' =>
      (readSlots slot js bp').andThen fun vs bp'' => .ok (v :: vs) bp''

/-- A tagged group: the tag byte, then every slot it describes; only the first `want` words are returned
(41 R121). -/
def tagged (st : Stream) (bp want : Nat) (slots : List Nat) (slot : Byte → Nat → Nat → Rd Word) : Rd (List Word) :=
  (rdbyte st bp).andThen fun t bp' =>
    (readSlots (slot t) slots bp').andThen fun vs bp'' => .ok (vs.take want) bp''

/-- Slot j of TAGVAR: a signed variable-length integer when tag bit j is 1, else 0 (41 R126, 30 R87). -/
def slotVar (st : Stream) (t : Byte) (j bp : Nat) : Rd Word :=
  if t.getLsbD j then rdsvar st bp else .ok 0 bp

/-- dec_tagvar (41 R126). -/
def decTagvar (st : Stream) (bp want : Nat) : Rd (List Word) :=
  tagged st bp want [0, 1, 2, 3, 4, 5, 6, 7] (slotVar st)

/-- The width class of slot j: t[2j+1 : 2j] (30 R88, R89). -/
def widthClass (t : Byte) (j : Nat) : Nat := (t.extractLsb' (2 * j) 2).toNat

/-- A field of a width: nothing and 0 for width 0, else the sign-extended field (41 R128, R130). -/
def slotField (st : Stream) (n bp : Nat) : Rd Word :=
  if n = 0 then .ok 0 bp else (readField st bp n).andThen fun v bp' => .ok (sext v) bp'

/-- WIDTH32 (41 R128). -/
def width32 : Nat → Nat
  | 0 => 0
  | 1 => 8
  | 2 => 16
  | _ => 32

/-- WIDTH16 (41 R130). -/
def width16 : Nat → Nat
  | 0 => 0
  | 1 => 4
  | 2 => 8
  | _ => 16

/-- dec_tag32 (41 R128). -/
def decTag32 (st : Stream) (bp want : Nat) : Rd (List Word) :=
  tagged st bp want [0, 1, 2] fun t j => slotField st (width32 (widthClass t j))

/-- dec_tag16 (41 R130). -/
def decTag16 (st : Stream) (bp want : Nat) : Rd (List Word) :=
  tagged st bp want [0, 1, 2, 3] fun t j => slotField st (width16 (widthClass t j))

/-- dec_null: no bits, the single word 0 (41 R131). -/
def decNull (_st : Stream) (bp _want : Nat) : Rd (List Word) := .ok [0] bp

/-- The decoder of an encoding (43 R175). -/
def decoderOf : Enc → Stream → Nat → Nat → Rd (List Word)
  | .svar => decSvar
  | .uvar => decUvar
  | .neg14 => decNeg14
  | .tagvar => decTagvar
  | .tag32 => decTag32
  | .tag16 => decTag16
  | .null => decNull

end Sys2Proof.Machine
end

