-- ==== Sys2Proof/Machine/DecCommands.lean ====
section
/-! DEFINITION. The commands of class DEC (41_encoding_decoders.md R121 to R131). -/

namespace Sys2Proof.Machine

/-- DEC.SVAR (41 R122). -/
def execDecSvar (want : BitVec 4) (s : State) : Out := decCommand .svar want s decSvar

/-- DEC.UVAR (41 R123). -/
def execDecUvar (want : BitVec 4) (s : State) : Out := decCommand .uvar want s decUvar

/-- DEC.NEG14 (41 R124). -/
def execDecNeg14 (want : BitVec 4) (s : State) : Out := decCommand .neg14 want s decNeg14

/-- DEC.TAGVAR want (41 R126). -/
def execDecTagvar (want : BitVec 4) (s : State) : Out := decCommand .tagvar want s decTagvar

/-- DEC.TAG32 want (41 R128). -/
def execDecTag32 (want : BitVec 4) (s : State) : Out := decCommand .tag32 want s decTag32

/-- DEC.TAG16 want (41 R130). -/
def execDecTag16 (want : BitVec 4) (s : State) : Out := decCommand .tag16 want s decTag16

/-- DEC.NULL (41 R131). -/
def execDecNull (want : BitVec 4) (s : State) : Out := decCommand .null want s decNull

end Sys2Proof.Machine
end

