-- ==== Sys2Proof/Machine/Predictors.lean ====
section
/-! DEFINITION. The Predictor Engine (42_predictors.md): the twelve rules of `diff`, over any width where the spec asks
for it (42 R143), and `predict`. -/

namespace Sys2Proof.Machine

/-- The operands of `predict` beside the header constants (42 R140). -/
structure PredOperands where
  signed : Bool
  raw : Word
  last : Option Word
  llast : Option Word
  skip : Word
  m0 : Option Word
  deriving DecidableEq, Repr

/-- HDR_VALID.MINTHROTTLE_V (10 R29). -/
def HeaderRegs.minthrottleV (h : HeaderRegs) : Bool := h.valid.getLsbD 0

/-- HDR_VALID.VBATREF_V (10 R29). -/
def HeaderRegs.vbatrefV (h : HeaderRegs) : Bool := h.valid.getLsbD 1

/-- HDR_VALID.MOTOROUT_V (10 R29). -/
def HeaderRegs.motoroutV (h : HeaderRegs) : Bool := h.valid.getLsbD 2

/-- ZERO (42 R145). -/
def diffZero : Word := 0

/-- PREVIOUS (42 R146). -/
def diffPrevious (last : Option Word) : Word :=
  match last with
  | some v => v
  | none => 0

/-- STRAIGHTLINE at width w (42 R147): the exact extrapolation where it fits, else `last`. -/
def diffStraightline {w : Nat} (sg : Bool) (last llast : Option (BitVec w)) : BitVec w :=
  match last, llast with
  | some a, some b =>
    if fits w sg (2 * val sg a - val sg b) then wrap w (2 * val sg a - val sg b) else a
  | some a, none => a
  | none, _ => 0

/-- AVERAGE2 at width w (42 R148): the exact sum halved toward zero. -/
def diffAverage2 {w : Nat} (sg : Bool) (last llast : Option (BitVec w)) : BitVec w :=
  match last, llast with
  | some a, some b => wrap w (div2z (val sg a + val sg b))
  | some a, none => a
  | none, _ => 0

/-- MINTHROTTLE (42 R149); `none` is InvalidHeaderReference. -/
def diffMinthrottle (h : HeaderRegs) : Option Word := if h.minthrottleV then some h.minthrottle else none

/-- MOTOR0 (42 R150). -/
def diffMotor0 (m0 : Option Word) : Option Word := m0

/-- INCREMENT (42 R151). -/
def diffIncrement (skip : Word) (last : Option Word) : Word :=
  match last with
  | some v => 1 + skip + v
  | none => 1 + skip

/-- HOMELAT, a stub (42 R152); its diagnostic is `diagnose`. -/
def diffHomelat : Word := 0

/-- FIFTEENHUNDRED (42 R153). -/
def diffFifteenhundred : Word := 1500

/-- VBATREF (42 R154). -/
def diffVbatref (h : HeaderRegs) : Option Word := if h.vbatrefV then some h.vbatref else none

/-- LASTMAINFRAMETIME, a stub (42 R155); its diagnostic is `diagnose`. -/
def diffLastmainframetime : Word := 0

/-- MINMOTOR (42 R156): the low end of the motor range. -/
def diffMinmotor (h : HeaderRegs) : Option Word := if h.motoroutV then some h.motorLo else none

/-- The `diff` of a predictor; `none` is InvalidHeaderReference (42 R141, R160). -/
def diffOf (p : Pred) (h : HeaderRegs) (o : PredOperands) : Option Word :=
  match p with
  | .zero => some diffZero
  | .previous => some (diffPrevious o.last)
  | .straightline => some (diffStraightline o.signed o.last o.llast)
  | .average2 => some (diffAverage2 o.signed o.last o.llast)
  | .minthrottle => diffMinthrottle h
  | .motor0 => diffMotor0 o.m0
  | .increment => some (diffIncrement o.skip o.last)
  | .homelat => some diffHomelat
  | .fifteenhundred => some diffFifteenhundred
  | .vbatref => diffVbatref h
  | .lastmainframetime => some diffLastmainframetime
  | .minmotor => diffMinmotor h

/-- predict (42 R140, R141): raw + diff, wrapping; `none` is InvalidHeaderReference. -/
def predict (p : Pred) (h : HeaderRegs) (o : PredOperands) : Option Word :=
  (diffOf p h o).map fun d => o.raw + d

end Sys2Proof.Machine
end

