-- ==== Sys2Proof/Machine/Operands.lean ====
section
/-! DEFINITION. Where the operands come from: the PA registers for a PRED command (42_predictors.md R157), history, CF
and SKIP for a field step (43_frame_sequencer.md R176), and the run of a descriptor (43 R174). -/

namespace Sys2Proof.Machine

/-- An operand with its valid bit (00 R10). -/
def optional (valid : Bool) (v : Word) : Option Word := if valid then some v else none

/-- The operands of PRED.p S (42 R157). -/
def paOperands (sg : Bool) (pa : PaRegs) : PredOperands where
  signed := sg
  raw := pa.raw
  last := optional (pa.valid.getLsbD 0) pa.last
  llast := optional (pa.valid.getLsbD 1) pa.llast
  skip := pa.skip
  m0 := optional (pa.valid.getLsbD 2) pa.m0

/-- The signedness the predictor is given (43 R176, 90 C9): ISSIGNED of the encoding, or the descriptor's S bit. -/
def signedOperand (src : SignedSource) (e : Enc) (sg : Bool) : Bool :=
  match src with
  | .encoding => e.isSigned
  | .fielddef => sg

/-- m0 for field i (43 R176, 42 R150): the value of the motor-0 field when it names a field below i. -/
def motor0Operand (m : M0Idx) (cf : Cells 32) (i : Nat) : Option Word :=
  if m.valid ∧ m.index.toNat < i then some (cf.read m.index.toNat) else none

/-- The operands of the field step of field i with a raw word (43 R176). -/
def fieldOperands (s : State) (e : Enc) (sg : Bool) (i : Nat) (raw : Word) : PredOperands where
  signed := signedOperand s.params.signedSource e sg
  raw := raw
  last := optional (s.run.hist.get s.frame.kind).vl ((s.run.hist.get s.frame.kind).l.read i)
  llast := optional (s.run.hist.get s.frame.kind).vll ((s.run.hist.get s.frame.kind).ll.read i)
  skip := s.run.skip.get s.frame.kind
  m0 := motor0Operand (s.cfg.m0idx.get s.frame.kind) s.run.cf i

/-- The ENC of a descriptor byte is e. Only ENC is compared in the forming of runs (43 R174). -/
def hasEnc (e : Enc) (d : Byte) : Bool := encOfCode (d.extractLsb' 4 3) == some e

/-- How many of at most `left` descriptors from number i on have ENC = e, with none of another ENC between. -/
def countEnc (e : Enc) (fd : Cells 8) : (left i : Nat) → Nat
  | 0, _ => 0
  | left + 1, i => if hasEnc e (fd.read i) then countEnc e fd left (i + 1) + 1 else 0

/-- The length of the run at field index fi (43 R174): the most fields, at most MAXCHUNK(e) and within the frame
definition, that share the encoding e. -/
def runLength (e : Enc) (fd : Cells 8) (nf fi : Nat) : Nat := countEnc e fd (min e.maxChunk (nf - fi)) fi

/-- NF of the frame being decoded. -/
def State.frameNf (s : State) : Nat := (s.cfg.nf.get s.frame.kind).toNat

/-- FD of the frame being decoded. -/
def State.frameFd (s : State) : Cells 8 := s.cfg.fd.get s.frame.kind

end Sys2Proof.Machine
end

