-- ==== Sys2Proof/Machine/Descriptors.lean ====
section
/-! DEFINITION. The descriptor rows: what the Field Sequencer does with the encoding half of the descriptor that starts
a run (43_frame_sequencer.md R174, R175) and with the predictor half of each descriptor of the run (43 R176). A row
executed where the sequencer does not fetch it is the fault `notSequenced` (30 R80, log 10). -/

namespace Sys2Proof.Machine

/-- The decode of the run at FI by the decoder of its encoding (43 R175): the raw words are kept for the field steps.
An exception abandons the frame and records the run's first field (60 R207). -/
def decodeRun (e : Enc) (dec : Stream → Nat → Nat → Rd (List Word)) (s : State) : Out :=
  if s.run.mode = .inframe ∧ s.frame.raw = [] ∧ 0 < runLength e s.frameFd s.frameNf s.frame.fi then
    match dec s.stream s.run.bp.toNat (runLength e s.frameFd s.frameNf s.frame.fi) with
    | .ok ws bp => .next { setBp bp s with frame.raw := ws, frame.rj := 0 }
    | .raised x p => .next (takeException x p s.frame.fi s)
  else .fault .notSequenced

/-- The field being stepped: field j of the run at FI (43 R175). -/
def State.fieldIndex (s : State) : Nat := s.frame.fi + s.frame.rj

/-- The next field of the run, or FI moved past the run after its last field (43 R175). -/
def nextField (f : FrameState) : FrameState :=
  if f.rj + 1 < f.raw.length then { f with rj := f.rj + 1 }
  else { f with fi := f.fi + f.raw.length, raw := [], rj := 0 }

/-- The field step of the field at hand (43 R176): CF[i] from the predictor, with the diagnostic of a stub. An absent
constant or motor-0 value is InvalidHeaderReference, recorded at BP with the field's index (60 R207). -/
def fieldStep (p : Pred) (sg : Bool) (e : Enc) (s : State) : Out :=
  if s.run.mode = .inframe then
    match s.frame.raw[s.frame.rj]? with
    | some raw =>
      match predict p s.cfg.hdr (fieldOperands s e sg s.fieldIndex raw) with
      | some v =>
        .next { diagnose p s with run.cf := s.run.cf.write s.fieldIndex v, frame := nextField s.frame }
      | none => .next (takeException .invalidHeaderReference s.run.bp.toNat s.fieldIndex s)
    | none => .fault .notSequenced
  else .fault .notSequenced

/-- Encoding SVAR of a descriptor (41 R122). Only ENC takes part in the decode of a run (43 R174). -/
def execFdSvar (_sg : Bool) (_p : Pred) (s : State) : Out := decodeRun .svar decSvar s

/-- Encoding UVAR of a descriptor (41 R123). Only ENC takes part in the decode of a run (43 R174). -/
def execFdUvar (_sg : Bool) (_p : Pred) (s : State) : Out := decodeRun .uvar decUvar s

/-- Encoding NEG14 of a descriptor (41 R124). Only ENC takes part in the decode of a run (43 R174). -/
def execFdNeg14 (_sg : Bool) (_p : Pred) (s : State) : Out := decodeRun .neg14 decNeg14 s

/-- Encoding TAGVAR of a descriptor (41 R126). Only ENC takes part in the decode of a run (43 R174). -/
def execFdTagvar (_sg : Bool) (_p : Pred) (s : State) : Out := decodeRun .tagvar decTagvar s

/-- Encoding TAG32 of a descriptor (41 R128). Only ENC takes part in the decode of a run (43 R174). -/
def execFdTag32 (_sg : Bool) (_p : Pred) (s : State) : Out := decodeRun .tag32 decTag32 s

/-- Encoding TAG16 of a descriptor (41 R130). Only ENC takes part in the decode of a run (43 R174). -/
def execFdTag16 (_sg : Bool) (_p : Pred) (s : State) : Out := decodeRun .tag16 decTag16 s

/-- Encoding NULL of a descriptor (41 R131). Only ENC takes part in the decode of a run (43 R174). -/
def execFdNull (_sg : Bool) (_p : Pred) (s : State) : Out := decodeRun .null decNull s

/-- Predictor ZERO of a descriptor (42 R145). -/
def execFdZero (sg : Bool) (e : Enc) (s : State) : Out := fieldStep .zero sg e s

/-- Predictor PREVIOUS of a descriptor (42 R146). -/
def execFdPrevious (sg : Bool) (e : Enc) (s : State) : Out := fieldStep .previous sg e s

/-- Predictor STRAIGHTLINE of a descriptor (42 R147). -/
def execFdStraightline (sg : Bool) (e : Enc) (s : State) : Out := fieldStep .straightline sg e s

/-- Predictor AVERAGE2 of a descriptor (42 R148). -/
def execFdAverage2 (sg : Bool) (e : Enc) (s : State) : Out := fieldStep .average2 sg e s

/-- Predictor MINTHROTTLE of a descriptor (42 R149). -/
def execFdMinthrottle (sg : Bool) (e : Enc) (s : State) : Out := fieldStep .minthrottle sg e s

/-- Predictor MOTOR0 of a descriptor (42 R150). -/
def execFdMotor0 (sg : Bool) (e : Enc) (s : State) : Out := fieldStep .motor0 sg e s

/-- Predictor INCREMENT of a descriptor (42 R151). -/
def execFdIncrement (sg : Bool) (e : Enc) (s : State) : Out := fieldStep .increment sg e s

/-- Predictor HOMELAT of a descriptor (42 R152). -/
def execFdHomelat (sg : Bool) (e : Enc) (s : State) : Out := fieldStep .homelat sg e s

/-- Predictor FIFTEENHUNDRED of a descriptor (42 R153). -/
def execFdFifteenhundred (sg : Bool) (e : Enc) (s : State) : Out := fieldStep .fifteenhundred sg e s

/-- Predictor VBATREF of a descriptor (42 R154). -/
def execFdVbatref (sg : Bool) (e : Enc) (s : State) : Out := fieldStep .vbatref sg e s

/-- Predictor LASTMAINFRAMETIME of a descriptor (42 R155). -/
def execFdLastmainframetime (sg : Bool) (e : Enc) (s : State) : Out := fieldStep .lastmainframetime sg e s

/-- Predictor MINMOTOR of a descriptor (42 R156). -/
def execFdMinmotor (sg : Bool) (e : Enc) (s : State) : Out := fieldStep .minmotor sg e s

end Sys2Proof.Machine
end

