-- ==== Sys2Proof/Machine/Frame.lean ====
section
/-! DEFINITION. FRAME (43_frame_sequencer.md R173 to R179): the descriptors of a frame definition run in order, then
the plausibility check and the commit. -/

namespace Sys2Proof.Machine

/-- The descriptor at a field index of the frame being decoded (10 R24, 20 R59). -/
def fetchDescriptor (s : State) (i : Nat) : Except DecodeError Descriptor := decodeDescriptor (s.frameFd.read i)

/-- The encoding half of a descriptor, run by its row's meaning. -/
def execEncHalf (d : Descriptor) (s : State) : Out :=
  match d.enc with
  | .svar => execFdSvar d.sg d.pred s
  | .uvar => execFdUvar d.sg d.pred s
  | .neg14 => execFdNeg14 d.sg d.pred s
  | .tagvar => execFdTagvar d.sg d.pred s
  | .tag32 => execFdTag32 d.sg d.pred s
  | .tag16 => execFdTag16 d.sg d.pred s
  | .null => execFdNull d.sg d.pred s

/-- The predictor half of a descriptor, run by its row's meaning. -/
def execPredHalf (d : Descriptor) (s : State) : Out :=
  match d.pred with
  | .zero => execFdZero d.sg d.enc s
  | .previous => execFdPrevious d.sg d.enc s
  | .straightline => execFdStraightline d.sg d.enc s
  | .average2 => execFdAverage2 d.sg d.enc s
  | .minthrottle => execFdMinthrottle d.sg d.enc s
  | .motor0 => execFdMotor0 d.sg d.enc s
  | .increment => execFdIncrement d.sg d.enc s
  | .homelat => execFdHomelat d.sg d.enc s
  | .fifteenhundred => execFdFifteenhundred d.sg d.enc s
  | .vbatref => execFdVbatref d.sg d.enc s
  | .lastmainframetime => execFdLastmainframetime d.sg d.enc s
  | .minmotor => execFdMinmotor d.sg d.enc s

/-- The decode of the run at FI (43 R174, R175). -/
def decodeStep (s : State) : Out :=
  match fetchDescriptor s s.frame.fi with
  | .ok d => execEncHalf d s
  | .error _ => .fault .illegalDescriptorFetched

/-- The field step of the next field of the run (43 R176). -/
def predictStep (s : State) : Out :=
  match fetchDescriptor s s.fieldIndex with
  | .ok d => execPredHalf d s
  | .error _ => .fault .illegalDescriptorFetched

/-- The field steps of a run, `n` of them left (43 R175); none when an exception has ended the frame. -/
def predictRun : Nat → State → Out
  | 0, s => .next s
  | n + 1, s => if s.run.mode = .inframe then andThen (predictStep s) (predictRun n) else .next s

/-- run_step() (43 R175). -/
def runStep (s : State) : Out := andThen (decodeStep s) fun s' => predictRun s'.frame.raw.length s'

/-- PLAUSIBLE (43 R177), as the parameters say. -/
def plausible (s : State) : Bool :=
  match s.params.plausible with
  | .alwaysTrue => true
  | .custom =>
    Config.plausible s.frame.kind (s.run.cf.take s.frameNf) s.buf s.cfg.buflen.toNat s.run.bp.toNat

/-- The history of a kind after a commit of n fields (43 R178). -/
def pushHistory (h : History) (cf : Cells 32) (n : Nat) : History where
  ll := Cells.copy h.l n h.ll
  vll := h.vl
  l := Cells.copy cf n h.l
  vl := true

/-- commit(k, bp0) (43 R178), and the end of the command: MODE back to BETWEEN, ERR = 0, no transient state left. -/
def commit (s : State) : State :=
  { s with
    run.hist := s.run.hist.set s.frame.kind (pushHistory (s.run.hist.get s.frame.kind) s.run.cf s.frameNf)
    run.stats.nframes := s.run.stats.nframes.set s.frame.kind (s.run.stats.nframes.get s.frame.kind + 1)
    run.skip := s.run.skip.set s.frame.kind 0
    run.stats.lastStart := BitVec.ofNat 32 (s.frame.bp0.toNat / 8)
    run.stats.lastEnd := bytesConsumed s.run.bp
    run.ev.kind := s.frame.kind
    run.ev.nf := s.cfg.nf.get s.frame.kind
    run.ev.val := Cells.copy s.run.cf s.frameNf s.run.ev.val
    run.ev.seq := s.run.ev.seq + 1
    run.status.evvalid := true
    run.status.err := .none
    run.mode := .between
    frame := FrameState.idle }

/-- After the last field: the commit, or MalformedFrame at BP when the frame is implausible (43 R173, R177). -/
def finishFrame (s : State) : State :=
  if plausible s then commit s else takeException .malformedFrame s.run.bp.toNat s.frameNf s

/-- The end of the field loop: a frame that an exception has ended is left as it is. -/
def closeFrame (s : State) : Out := if s.run.mode = .inframe then .next (finishFrame s) else .next s

/-- The field loop (43 R173), `n` runs at most. A run has one field or more, so NF[k] runs are enough (43 R180). -/
def frameRuns : Nat → State → Out
  | 0, s => closeFrame s
  | n + 1, s =>
    if s.run.mode = .inframe ∧ s.frame.fi < s.frameNf then andThen (runStep s) (frameRuns n) else closeFrame s

/-- The beginning of FRAME k (43 R173). -/
def enterFrame (k : Kind) (s : State) : State :=
  { s with
    run.status.anyframe := true
    run.mode := .inframe
    frame := { kind := k, fi := 0, bp0 := s.run.bp, raw := [], rj := 0 } }

/-- FRAME k (43 R173): IllegalCommand outside BETWEEN and for a kind that is not defined. -/
def execFrame (k : Kind) (s : State) : Out :=
  whenBetween s <|
    if s.cfg.nf.get k = 0 then .next (illegalCommand s)
    else frameRuns (s.cfg.nf.get k).toNat (enterFrame k s)

end Sys2Proof.Machine
end

