-- ==== Sys2Proof/Machine/PredCommands.lean ====
section
/-! DEFINITION. The commands of class PRED (42_predictors.md R157). -/

namespace Sys2Proof.Machine

/-- PRED.p S (42 R157): PVAL from the PA registers, with the diagnostic of a stub; an absent constant or motor-0
value is InvalidHeaderReference, fatal, recorded at BP (60 R200, R203). -/
def predCommand (p : Pred) (sg : Bool) (s : State) : Out :=
  whenBetween s <|
    match predict p s.cfg.hdr (paOperands sg s.run.pa) with
    | some v => .next (complete { diagnose p s with run.pval := v })
    | none => .next (takeException .invalidHeaderReference s.run.bp.toNat 0 s)

/-- PRED.ZERO (42 R145). -/
def execPredZero (sg : Bool) (s : State) : Out := predCommand .zero sg s

/-- PRED.PREVIOUS (42 R146). -/
def execPredPrevious (sg : Bool) (s : State) : Out := predCommand .previous sg s

/-- PRED.STRAIGHTLINE (42 R147). -/
def execPredStraightline (sg : Bool) (s : State) : Out := predCommand .straightline sg s

/-- PRED.AVERAGE2 (42 R148). -/
def execPredAverage2 (sg : Bool) (s : State) : Out := predCommand .average2 sg s

/-- PRED.MINTHROTTLE (42 R149). -/
def execPredMinthrottle (sg : Bool) (s : State) : Out := predCommand .minthrottle sg s

/-- PRED.MOTOR0 (42 R150). -/
def execPredMotor0 (sg : Bool) (s : State) : Out := predCommand .motor0 sg s

/-- PRED.INCREMENT (42 R151). -/
def execPredIncrement (sg : Bool) (s : State) : Out := predCommand .increment sg s

/-- PRED.HOMELAT (42 R152). -/
def execPredHomelat (sg : Bool) (s : State) : Out := predCommand .homelat sg s

/-- PRED.FIFTEENHUNDRED (42 R153). -/
def execPredFifteenhundred (sg : Bool) (s : State) : Out := predCommand .fifteenhundred sg s

/-- PRED.VBATREF (42 R154). -/
def execPredVbatref (sg : Bool) (s : State) : Out := predCommand .vbatref sg s

/-- PRED.LASTMAINFRAMETIME (42 R155). -/
def execPredLastmainframetime (sg : Bool) (s : State) : Out := predCommand .lastmainframetime sg s

/-- PRED.MINMOTOR (42 R156). -/
def execPredMinmotor (sg : Bool) (s : State) : Out := predCommand .minmotor sg s

end Sys2Proof.Machine
end

