-- ==== Sys2Proof/Machine/System.lean ====
section
/-! DEFINITION. The system commands START, END and RESET (43_frame_sequencer.md R181 to R183). -/

namespace Sys2Proof.Machine

/-- The first illegal descriptor of at most `left` from number i on. -/
def firstIllegal (fd : Cells 8) : (left i : Nat) → Option Nat
  | 0, _ => none
  | left + 1, i => if descriptorOk (fd.read i) then firstIllegal fd left (i + 1) else some i

/-- The first illegal descriptor in use, in the order of kinds, then of indices (43 R181, 60 R211). -/
def findIllegal (c : Configuration) : List Kind → Option (Kind × Nat)
  | [] => none
  | k :: ks =>
    match firstIllegal (c.fd.get k) (c.nf.get k).toNat 0 with
    | some i => some (k, i)
    | none => findIllegal c ks

/-- START (43 R181), in CONFIG only. -/
def execStart (s : State) : Out :=
  if s.run.mode = .config then
    match findIllegal s.cfg [.main, .slow, .gps, .gpshome] with
    | some (k, i) => .next (illegalDescriptor k i s)
    | none => .next (complete { s with run.mode := .between })
  else .next (illegalCommand s)

/-- END (43 R182). -/
def execEnd (s : State) : Out := whenBetween s (.next (complete { s with run.mode := .eos }))

/-- RESET (43 R183), in every mode. -/
def execReset (s : State) : Out := .next (resetMachine s)

end Sys2Proof.Machine
end

