-- ==== Sys2Proof/Machine/Dispatch.lean ====
section
/-! DEFINITION. One arm per instruction. -/

namespace Sys2Proof.Machine

def exec (i : Instr) (s : State) : Host.Outcome State Fault Refusal :=
  match i with
  | .start => Sys2Proof.Machine.execStart s
  | .endStream => Sys2Proof.Machine.execEnd s
  | .reset => Sys2Proof.Machine.execReset s
  | .rdbits n => Sys2Proof.Machine.execRdbits n s
  | .rdabits n => Sys2Proof.Machine.execRdabits n s
  | .rduvar => Sys2Proof.Machine.execRduvar s
  | .rdsvar => Sys2Proof.Machine.execRdsvar s
  | .align => Sys2Proof.Machine.execAlign s
  | .decSvar want => Sys2Proof.Machine.execDecSvar want s
  | .decUvar want => Sys2Proof.Machine.execDecUvar want s
  | .decNeg14 want => Sys2Proof.Machine.execDecNeg14 want s
  | .decTagvar want => Sys2Proof.Machine.execDecTagvar want s
  | .decTag32 want => Sys2Proof.Machine.execDecTag32 want s
  | .decTag16 want => Sys2Proof.Machine.execDecTag16 want s
  | .decNull want => Sys2Proof.Machine.execDecNull want s
  | .predZero sg => Sys2Proof.Machine.execPredZero sg s
  | .predPrevious sg => Sys2Proof.Machine.execPredPrevious sg s
  | .predStraightline sg => Sys2Proof.Machine.execPredStraightline sg s
  | .predAverage2 sg => Sys2Proof.Machine.execPredAverage2 sg s
  | .predMinthrottle sg => Sys2Proof.Machine.execPredMinthrottle sg s
  | .predMotor0 sg => Sys2Proof.Machine.execPredMotor0 sg s
  | .predIncrement sg => Sys2Proof.Machine.execPredIncrement sg s
  | .predHomelat sg => Sys2Proof.Machine.execPredHomelat sg s
  | .predFifteenhundred sg => Sys2Proof.Machine.execPredFifteenhundred sg s
  | .predVbatref sg => Sys2Proof.Machine.execPredVbatref sg s
  | .predLastmainframetime sg => Sys2Proof.Machine.execPredLastmainframetime sg s
  | .predMinmotor sg => Sys2Proof.Machine.execPredMinmotor sg s
  | .frame k => Sys2Proof.Machine.execFrame k s
  | .fdSvar sg p => Sys2Proof.Machine.execFdSvar sg p s
  | .fdUvar sg p => Sys2Proof.Machine.execFdUvar sg p s
  | .fdNeg14 sg p => Sys2Proof.Machine.execFdNeg14 sg p s
  | .fdTagvar sg p => Sys2Proof.Machine.execFdTagvar sg p s
  | .fdTag32 sg p => Sys2Proof.Machine.execFdTag32 sg p s
  | .fdTag16 sg p => Sys2Proof.Machine.execFdTag16 sg p s
  | .fdNull sg p => Sys2Proof.Machine.execFdNull sg p s
  | .fdZero sg e => Sys2Proof.Machine.execFdZero sg e s
  | .fdPrevious sg e => Sys2Proof.Machine.execFdPrevious sg e s
  | .fdStraightline sg e => Sys2Proof.Machine.execFdStraightline sg e s
  | .fdAverage2 sg e => Sys2Proof.Machine.execFdAverage2 sg e s
  | .fdMinthrottle sg e => Sys2Proof.Machine.execFdMinthrottle sg e s
  | .fdMotor0 sg e => Sys2Proof.Machine.execFdMotor0 sg e s
  | .fdIncrement sg e => Sys2Proof.Machine.execFdIncrement sg e s
  | .fdHomelat sg e => Sys2Proof.Machine.execFdHomelat sg e s
  | .fdFifteenhundred sg e => Sys2Proof.Machine.execFdFifteenhundred sg e s
  | .fdVbatref sg e => Sys2Proof.Machine.execFdVbatref sg e s
  | .fdLastmainframetime sg e => Sys2Proof.Machine.execFdLastmainframetime sg e s
  | .fdMinmotor sg e => Sys2Proof.Machine.execFdMinmotor sg e s

end Sys2Proof.Machine
end

