-- ==== Sys2Proof/Machine/Port.lean ====
section
/-! DEFINITION. The register port (10_state.md R45, R46), the host's actions, and what the next step runs: the next host
action (70 R250) or, inside FRAME, the next half of a descriptor (20 R59). -/

namespace Sys2Proof.Machine

/-- The registers of the register port (10 R45). -/
inductive Reg where
  | mode | status | bpByte | bpBit | buflen | errFi | errBpByte | errBpBit
  | hdrValid | hdrMinthrottle | hdrVbatref | hdrMotorLo | hdrMotorHi | hdrFwvariant
  | nf (k : Kind) | m0idx (k : Kind) | skip (k : Kind) | nframes (k : Kind)
  | ncorrupt | bytesConsumed | lastStart | lastEnd | diagCnt | diagLast
  | wcnt | w (j : Nat)
  | paRaw | paLast | paLlast | paM0 | paValid | paSkip | pval
  | evKind | evSeq | evNf | cmd
  | fd (k : Kind) (i : Nat) | evVal (i : Nat)
  deriving DecidableEq, Repr

/-- The kind of a number 0 to 3. -/
def kindOfNat (n : Nat) : Kind := kindOfCode (BitVec.ofNat 2 n)

/-- The least power of two at or above n, from p on (10 R45). -/
def powerFrom : (fuel p n : Nat) → Nat
  | 0, p, _ => p
  | fuel + 1, p, n => if n ≤ p then p else powerFrom fuel (2 * p) n

/-- The stride of the FD windows: 0x100 at NFMAX = 256, else the next power of two at or above NFMAX (10 R45; log 13). -/
def fdStride (nfmax : Nat) : Nat := powerFrom 16 1 nfmax

/-- The base of the FD windows (10 R45). -/
def fdBase : Nat := 0x1000

/-- The base of the EV_VAL window (10 R45). -/
def evValBase : Nat := 0x2000

/-- The registers below 0x0010, with one number each (10 R45). -/
def lowReg : Nat → Option Reg
  | 0x0 => some .mode
  | 0x1 => some .status
  | 0x2 => some .bpByte
  | 0x3 => some .bpBit
  | 0x4 => some .buflen
  | 0x5 => some .errFi
  | 0x6 => some .errBpByte
  | 0x7 => some .errBpBit
  | 0x8 => some .hdrValid
  | 0x9 => some .hdrMinthrottle
  | 0xA => some .hdrVbatref
  | 0xB => some .hdrMotorLo
  | 0xC => some .hdrMotorHi
  | 0xD => some .hdrFwvariant
  | _ => none

/-- The registers 0x0010 to 0x001F, one of each sort per kind (10 R45). -/
def kindReg (n : Nat) : Reg :=
  match (n - 0x10) / 4 with
  | 0 => .nf (kindOfNat (n % 4))
  | 1 => .m0idx (kindOfNat (n % 4))
  | 2 => .skip (kindOfNat (n % 4))
  | _ => .nframes (kindOfNat (n % 4))

/-- The registers 0x0020 to 0x0050 with one number each (10 R45). -/
def highReg : Nat → Option Reg
  | 0x20 => some .ncorrupt
  | 0x21 => some .bytesConsumed
  | 0x22 => some .lastStart
  | 0x23 => some .lastEnd
  | 0x24 => some .diagCnt
  | 0x25 => some .diagLast
  | 0x28 => some .wcnt
  | 0x38 => some .paRaw
  | 0x39 => some .paLast
  | 0x3A => some .paLlast
  | 0x3B => some .paM0
  | 0x3C => some .paValid
  | 0x3D => some .paSkip
  | 0x3E => some .pval
  | 0x40 => some .evKind
  | 0x41 => some .evSeq
  | 0x42 => some .evNf
  | 0x50 => some .cmd
  | _ => none

/-- The register of a number; `none` for an unassigned one (10 R45). -/
def regOf (nfmax n : Nat) : Option Reg :=
  if n < 0x10 then lowReg n
  else if n < 0x20 then some (kindReg n)
  else if 0x30 ≤ n ∧ n < 0x38 then some (.w (n - 0x30))
  else if n < fdBase then highReg n
  else if (n - fdBase) / fdStride nfmax < 4 then
    if (n - fdBase) % fdStride nfmax < nfmax then
      some (.fd (kindOfNat ((n - fdBase) / fdStride nfmax)) ((n - fdBase) % fdStride nfmax))
    else none
  else if evValBase ≤ n ∧ n - evValBase < nfmax then some (.evVal (n - evValBase))
  else none

/-- M0IDX[k] as a word (10 R31). -/
def m0idxWord (m : M0Idx) : Word := BitVec.ofBool m.valid ++ (0 : BitVec 15) ++ m.index

/-- What a register reads as (10 R45, R46): a narrow register with zeros above it, CMD as 0, FD outside CONFIG as 0. -/
def readReg (s : State) : Reg → Word
  | .mode => zext s.run.mode.code
  | .status => statusWord s.run
  | .bpByte => s.run.bp.extractLsb' 3 32
  | .bpBit => zext (s.run.bp.extractLsb' 0 3)
  | .buflen => s.cfg.buflen
  | .errFi => s.run.errFi
  | .errBpByte => s.run.errBp.extractLsb' 3 32
  | .errBpBit => zext (s.run.errBp.extractLsb' 0 3)
  | .hdrValid => zext s.cfg.hdr.valid
  | .hdrMinthrottle => s.cfg.hdr.minthrottle
  | .hdrVbatref => s.cfg.hdr.vbatref
  | .hdrMotorLo => s.cfg.hdr.motorLo
  | .hdrMotorHi => s.cfg.hdr.motorHi
  | .hdrFwvariant => zext s.cfg.hdr.fwvariant
  | .nf k => zext (s.cfg.nf.get k)
  | .m0idx k => m0idxWord (s.cfg.m0idx.get k)
  | .skip k => s.run.skip.get k
  | .nframes k => s.run.stats.nframes.get k
  | .ncorrupt => s.run.stats.ncorrupt
  | .bytesConsumed => Sys2Proof.Machine.bytesConsumed s.run.bp
  | .lastStart => s.run.stats.lastStart
  | .lastEnd => s.run.stats.lastEnd
  | .diagCnt => s.run.diag.cnt
  | .diagLast => s.run.diag.last
  | .wcnt => zext s.run.wcnt
  | .w j => s.run.w.get j
  | .paRaw => s.run.pa.raw
  | .paLast => s.run.pa.last
  | .paLlast => s.run.pa.llast
  | .paM0 => s.run.pa.m0
  | .paValid => zext s.run.pa.valid
  | .paSkip => s.run.pa.skip
  | .pval => s.run.pval
  | .evKind => zext s.run.ev.kind.code
  | .evSeq => s.run.ev.seq
  | .evNf => zext s.run.ev.nf
  | .cmd => 0
  | .fd k i => if s.run.mode = .config then zext ((s.cfg.fd.get k).read i) else 0
  | .evVal i => s.run.ev.val.read i

/-- A read of a register number; an unassigned number reads 0 (10 R46). -/
def portRead (s : State) (r : RegNo) : Word :=
  match regOf s.params.nfmax r.toNat with
  | some reg => readReg s reg
  | none => 0

/-- The write of a configuration register, or `none` where it is refused for its value or because the register is not
one (10 R45, R46). -/
def writeConfig (nfmax : Nat) (c : Configuration) (v : Word) : Reg → Option Configuration
  | .buflen => some { c with buflen := v }
  | .hdrValid => some { c with hdr.valid := v.extractLsb' 0 3 }
  | .hdrMinthrottle => some { c with hdr.minthrottle := v }
  | .hdrVbatref => some { c with hdr.vbatref := v }
  | .hdrMotorLo => some { c with hdr.motorLo := v }
  | .hdrMotorHi => some { c with hdr.motorHi := v }
  | .hdrFwvariant => if v.toNat < 2 ^ 8 then some { c with hdr.fwvariant := v.extractLsb' 0 8 } else none
  | .nf k => if v.toNat ≤ nfmax then some { c with nf := c.nf.set k (v.extractLsb' 0 16) } else none
  | .m0idx k =>
    some { c with m0idx := c.m0idx.set k { valid := v.getLsbD 31, index := v.extractLsb' 0 16 } }
  | .fd k i =>
    if v.toNat < 2 ^ 8 then some { c with fd := c.fd.set k ((c.fd.get k).write i (v.extractLsb' 0 8)) } else none
  | _ => none

/-- The write of a register that is writable in CONFIG and BETWEEN (10 R35, R40, R45), or `none`. -/
def writeOperand (r : RunState) (v : Word) : Reg → Option RunState
  | .skip k => some { r with skip := r.skip.set k v }
  | .paRaw => some { r with pa.raw := v }
  | .paLast => some { r with pa.last := v }
  | .paLlast => some { r with pa.llast := v }
  | .paM0 => some { r with pa.m0 := v }
  | .paValid => some { r with pa.valid := v.extractLsb' 0 3 }
  | .paSkip => some { r with pa.skip := v }
  | _ => none

/-- A register write as the mode and the register allow it, or `none` where it is refused (10 R46). -/
def writeReg (s : State) (v : Word) (reg : Reg) : Option State :=
  match s.run.mode with
  | .config =>
    match writeConfig s.params.nfmax s.cfg v reg with
    | some c => some { s with cfg := c }
    | none => (writeOperand s.run v reg).map fun r => { s with run := r }
  | .between => (writeOperand s.run v reg).map fun r => { s with run := r }
  | .inframe => none
  | .eos => none
  | .fatal => none

/-- A write of a register number other than CMD: accepted with ERR = 0, or refused with ERR = 5 and nothing else
changed (10 R46, 60 R206). -/
def portWrite (s : State) (r : RegNo) (v : Word) : State :=
  match (regOf s.params.nfmax r.toNat).bind (writeReg s v) with
  | some s' => complete s'
  | none => illegalCommand s

/-- The number of CMD (10 R45). -/
def cmdReg : RegNo := 0x0050

/-- What the next step does: run an instruction, or an outcome that takes none. -/
inductive Fetched where
  | instr (i : Instr) (s : State)
  | done (o : Out)
  deriving Repr

/-- A host action on a state it has been taken from (10 R46, 30 R70, 70 R230). A value written to CMD that is no
instruction is IllegalCommand (30 R78). -/
def hostAction (a : HostAction) (s : State) : Fetched :=
  match a with
  | .hardReset => .done (.next (resetMachine s))
  | .read r => .done (.next { s with rdata := portRead s r })
  | .write r v =>
    if r = cmdReg then
      match decode .command v with
      | .ok i => .instr i s
      | .error _ => .done (.next (illegalCommand s))
    else .done (.next (portWrite s r v))

/-- Between commands: the next host action; with none to come BVLD does nothing (70 R230). -/
def fetchHost (s : State) : Fetched :=
  match s.port with
  | [] => .done (.next s)
  | a :: rest => hostAction a { s with port := rest }

/-- The half of a descriptor that is next inside FRAME (43 R175): with no raw words left the run at FI is decoded, else
the next field is stepped. -/
def frameSlot (s : State) : Slot := if s.frame.raw = [] then .encHalf else .predHalf

/-- The descriptor register that the slot's instruction stands in. -/
def slotIndex (s : State) : Nat := if s.frame.raw = [] then s.frame.fi else s.fieldIndex

/-- Inside FRAME: the next half of a descriptor, or after the last field the end of the frame. Log 8. -/
def fetchFrame (s : State) : Fetched :=
  if s.frame.raw = [] ∧ s.frameNf ≤ s.frame.fi then .done (closeFrame s)
  else
    match decode (frameSlot s) (zext (s.frameFd.read (slotIndex s))) with
    | .ok i => .instr i s
    | .error _ => .done (.fault .illegalDescriptorFetched)

/-- What the next step does. -/
def fetch (s : State) : Fetched := if s.run.mode = .inframe then fetchFrame s else fetchHost s

/-- A command word as the next host action. -/
def placeCommand (s : State) (v : Word) : State := { s with port := .write cmdReg v :: s.port }

/-- A descriptor as the next one the sequencer fetches: MODE inside FRAME, the descriptor in FD at the field index, NF
above it and, for a field step, one raw word waiting. Log 9. -/
def placeDescriptor (s : State) (d : Byte) : State :=
  { s with
    run.mode := .inframe
    cfg.fd := s.cfg.fd.set s.frame.kind (s.frameFd.write s.frame.fi d)
    cfg.nf := s.cfg.nf.set s.frame.kind (BitVec.ofNat 16 (max s.frameNf (s.frame.fi + 1)))
    frame.raw := if descriptorSlot d = .predHalf then [0] else []
    frame.rj := 0 }

/-- A table word where the next step fetches it. -/
def placeWord (s : State) (nbits w : Nat) : State :=
  let v : Word := BitVec.ofNat 32 (w % 2 ^ nbits)
  if nbits ≤ 8 then placeDescriptor s (v.extractLsb' 0 8) else placeCommand s v

end Sys2Proof.Machine
end

