-- ==== Sys2Proof/Machine/Step.lean ====
section
/-! DEFINITION. One step: one host action, a command included (70_reset_and_hazards.md R250), or inside FRAME one half
of a descriptor. FRAME itself is one command and one step (43 R173), so a step never leaves the machine inside FRAME
that was not inside it before. -/

namespace Sys2Proof.Machine

/-- One step of the machine. -/
def step (s : State) : Host.Outcome State Fault Refusal :=
  match fetch s with
  | .instr i s' => exec i s'
  | .done o => o

/-- The state with a table word where the next step fetches its instruction. -/
def State.withFetchWord (s : State) (nbits w : Nat) : State := placeWord s nbits w

end Sys2Proof.Machine
end

