-- ==== Sys2Proof/Safety.lean ====
section
/-! DEFINITION. What the statements speak in: the invariant of a machine between commands, what counts as a safe step,
the writer of variable-length integers that the spec's round trips assume (40 R105, R111), and a reading of FRAME
straight from the frame definition, without the transient registers (43 R173 to R179). -/

namespace Sys2Proof.Machine

/-! ## The invariant between commands -/

/-- Every register file and BUF is in its canonical form. -/
def StorageOk (s : State) : Prop :=
  Memory.wf s.buf = true ∧ (∀ k, Memory.wf (s.cfg.fd.get k) = true) ∧ Memory.wf s.run.cf = true ∧
    (∀ k, Memory.wf (s.run.hist.get k).l = true) ∧ (∀ k, Memory.wf (s.run.hist.get k).ll = true) ∧
    Memory.wf s.run.ev.val = true

/-- The machine is between commands: MODE reads INFRAME to no one (43 R173), no transient state is left (10 R24). -/
def BetweenCommands (s : State) : Prop := s.run.mode ≠ .inframe ∧ s.frame = FrameState.idle

/-- 0 <= BP <= 8 * BUFLEN, and BP is 0 until START (10 R23, 43 R181). -/
def CursorOk (s : State) : Prop :=
  s.run.bp.toNat ≤ 8 * s.cfg.buflen.toNat ∧ (s.run.mode = .config → s.run.bp = 0)

/-- NF[k] <= NFMAX (10 R30), and once START has been passed every descriptor in use is legal (30 R83). -/
def DefinitionsOk (s : State) : Prop :=
  (∀ k, (s.cfg.nf.get k).toNat ≤ s.params.nfmax) ∧
    (s.run.mode ≠ .config →
      ∀ k i, i < (s.cfg.nf.get k).toNat → descriptorOk ((s.cfg.fd.get k).read i) = true)

/-- HV[k].LL = 1 implies HV[k].L = 1 (10 R34). -/
def HistoryOk (s : State) : Prop := ∀ k, (s.run.hist.get k).vll = true → (s.run.hist.get k).vl = true

/-- EV_SEQ is the sum of NFRAMES modulo 2^32 (60 R221). -/
def CountersOk (s : State) : Prop :=
  s.run.ev.seq = s.run.stats.nframes.get .main + s.run.stats.nframes.get .slow
    + s.run.stats.nframes.get .gps + s.run.stats.nframes.get .gpshome

/-- WCNT is 0 to 8 and the W registers from WCNT on hold 0 (10 R21). -/
def WordsOk (s : State) : Prop := s.run.wcnt.toNat ≤ 8 ∧ ∀ j, s.run.wcnt.toNat ≤ j → s.run.w.get j = 0

/-- What holds of the machine between any two host actions. -/
def Inv (s : State) : Prop :=
  StorageOk s ∧ BetweenCommands s ∧ CursorOk s ∧ DefinitionsOk s ∧ HistoryOk s ∧ CountersOk s ∧ WordsOk s

/-- The next host action resets the machine: a hardware reset or the RESET command. -/
def resetsNext (s : State) : Prop :=
  ∃ rest, s.port = .hardReset :: rest ∨ ∃ v, s.port = .write cmdReg v :: rest ∧ decode .command v = .ok .reset

/-- A step that neither faults nor is refused. -/
def Runs (s : State) : Prop := ∃ t, step s = .next t

/-! ## Variable-length integers as a log's writer spells them -/

/-- The shortest sequence of 30 R85 that spells a value below 2^(7 * fuel): groups of 7 bits, least significant first. -/
def groupBytes : (fuel u : Nat) → List Byte
  | 0, _ => []
  | fuel + 1, u =>
    if u < 128 then [BitVec.ofNat 8 u] else BitVec.ofNat 8 (128 + u % 128) :: groupBytes fuel (u / 128)

/-- uvar_bytes(u) (40 R105, R111): 1 to 5 bytes. -/
def uvarBytes (u : Word) : List Byte := groupBytes varMax u.toNat

/-- encode(x) of 40 R105 before its bytes: wrap_32(2x) XOR wrap_32(x >>arith 31). -/
def svarCode (x : Word) : Word := (x <<< 1) ^^^ x.sshiftRight 31

/-- The bytes stand in BUF from byte address a on, within BUFLEN. -/
def BytesAt (st : Stream) (a : Nat) (bs : List Byte) : Prop :=
  a + bs.length ≤ st.len ∧ ∀ i (h : i < bs.length), st.buf.read (a + i) = bs[i]

/-- The value a sequence of bytes spells: the low 7 bits of each, the first byte lowest (30 R85). -/
def groupsValue : List Byte → Nat
  | [] => 0
  | b :: bs => b.toNat % 128 + 128 * groupsValue bs

/-- From the first byte boundary at or after bit address bp on, the stream spells the unsigned value u in 1 to 5 bytes
and bp' is the bit address after them (30 R85): every byte but the last has bit 7 set, and a fifth byte is below 16. -/
def Spells (st : Stream) (bp u bp' : Nat) : Prop :=
  ∃ (bs : List Byte) (last : Byte), bs.length ≤ 4 ∧ (∀ b ∈ bs, b.getLsbD 7 = true) ∧ last.getLsbD 7 = false ∧
    (bs.length = 4 → last.toNat < 16) ∧ BytesAt st ((bp + 7) / 8) (bs ++ [last]) ∧
    u = groupsValue (bs ++ [last]) ∧ bp' = 8 * ((bp + 7) / 8 + bs.length + 1)

/-- A malformed sequence at bp (30 R85): four bytes with bit 7 set, then one of 16 or more, all inside the buffer. -/
def Malformed (st : Stream) (bp : Nat) : Prop :=
  ∃ (bs : List Byte) (b : Byte), bs.length = 4 ∧ (∀ c ∈ bs, c.getLsbD 7 = true) ∧ 16 ≤ b.toNat ∧
    BytesAt st ((bp + 7) / 8) (bs ++ [b])

/-- A sequence at bp that the end of the buffer cuts off (40 R108, 60 R211): at most four bytes with bit 7 set, and
then the end. `pos` is the bit address of the byte that is missing. -/
def Truncated (st : Stream) (bp pos : Nat) : Prop :=
  ∃ bs : List Byte, bs.length ≤ 4 ∧ (∀ c ∈ bs, c.getLsbD 7 = true) ∧ BytesAt st ((bp + 7) / 8) bs ∧
    st.len = (bp + 7) / 8 + bs.length ∧ pos = 8 * st.len

/-- The signed value that an unsigned one stands for (00 R9): u/2 for even u, -(u+1)/2 for odd u. -/
def zigzagValue (u : Nat) : Int := if u % 2 = 0 then (u / 2 : Nat) else -((u + 1) / 2 : Nat)

/-- The value of NEG14 (41 R124): minus the 14-bit two's complement view of the low 14 bits. -/
def neg14Value (u : Nat) : Int :=
  if u % 16384 < 8192 then -((u % 16384 : Nat) : Int) else 16384 - ((u % 16384 : Nat) : Int)

/-- Slot j of a TAGVAR group under tag byte t (30 R87): with tag bit j set, a signed variable-length integer from p
to p'; with it clear, the value 0 and no bits. -/
def VarSlot (st : Stream) (t : Byte) (j p : Nat) (v : Word) (p' : Nat) : Prop :=
  if t.getLsbD j then ∃ u, Spells st p u p' ∧ v.toInt = zigzagValue u else v = 0 ∧ p' = p

/-- The DEC command of an encoding (30 R73). -/
def decInstr : Enc → BitVec 4 → Instr
  | .svar => .decSvar
  | .uvar => .decUvar
  | .neg14 => .decNeg14
  | .tagvar => .decTagvar
  | .tag32 => .decTag32
  | .tag16 => .decTag16
  | .null => .decNull

/-! ## The states that commands leave -/

/-- After a command that reads the stream and completes: W[0..n-1] the words, the rest of W 0, WCNT their number, BP
moved on, ERR 0, nothing else changed (10 R21, 40 R103, 41 R121). -/
def afterRead (ws : List Word) (bp : Nat) (s : State) : State :=
  { s with
    run.bp := BitVec.ofNat 35 bp
    run.w := { w0 := ws.getD 0 0, w1 := ws.getD 1 0, w2 := ws.getD 2 0, w3 := ws.getD 3 0,
               w4 := ws.getD 4 0, w5 := ws.getD 5 0, w6 := ws.getD 6 0, w7 := ws.getD 7 0 }
    run.wcnt := BitVec.ofNat 4 ws.length
    run.status.err := .none }

/-- After a stream exception outside FRAME: ERR and the error registers, nothing else changed (60 R207). -/
def afterRaise (e : ErrCode) (pos : Nat) (s : State) : State :=
  { s with run.status.err := e, run.errBp := BitVec.ofNat 35 pos, run.errFi := 0 }

/-- After a refused command or register write: ERR = 5, nothing else changed (60 R204). -/
def afterIllegal (s : State) : State := { s with run.status.err := .illegalCommand }

/-- After a PRED command that completes (42 R157). -/
def afterPred (v : Word) (s : State) : State := { s with run.pval := v, run.status.err := .none }

/-- After an InvalidHeaderReference outside FRAME (60 R203, R207). -/
def afterFatal (s : State) : State :=
  { s with
    run.status.err := .invalidHeaderReference
    run.errBp := s.run.bp
    run.errFi := 0
    run.mode := .fatal }

/-- The diagnostic of a stub (42 R161). -/
def afterDiagnostic (last : Word) (s : State) : State :=
  { s with run.status.unsup := true, run.diag := { cnt := s.run.diag.cnt + 1, last := last } }

/-- A descriptor byte is legal: ENC is not 7 and PRED is below 12 (30 R83). -/
def LegalDescriptor (d : Byte) : Prop := d.toNat / 16 % 8 ≠ 7 ∧ d.toNat % 16 < 12

/-! ## Tagged groups with fixed-width fields -/

/-- The bit address of slot j of a group whose slots start at `start` (41 R132). -/
def slotPos (width : Nat → Nat) (start : Nat) : Nat → Nat
  | 0 => start
  | j + 1 => slotPos width start j + width j

/-- The width of slot j under a tag byte: its class t[2j+1 : 2j] looked up in the table (30 R88, R89). -/
def slotWidth (table : List Nat) (t : Byte) (j : Nat) : Nat := table.getD (t.toNat / 4 ^ j % 4) 0

/-- The value of a slot: its field read first bit most significant and sign-extended, 0 where it has no bits. -/
def slotValue (buf : Cells 8) (p n : Nat) : Word := (memRead buf p n).signExtend 32

/-- What a DEC command for a group of `slots` fixed-width fields does (41 R121, R128, R130): with the whole group in the
buffer it completes with the first `want` slots and BP after the last slot of all; else it is EndOfData at the tag byte
or at the first slot that does not fit. -/
def TaggedGroup (i : BitVec 4 → Instr) (slots : Nat) (table : List Nat) : Prop :=
  ∀ (s : State) (want : BitVec 4) (t : Byte), s.run.mode = .between → 1 ≤ want.toNat → want.toNat ≤ slots →
    let a := (s.run.bp.toNat + 7) / 8
    let pos := slotPos (slotWidth table t) (8 * (a + 1))
    (s.cfg.buflen.toNat ≤ a → exec (i want) s = .next (afterRaise .endOfData (8 * a) s)) ∧
    (BytesAt s.stream a [t] → pos slots ≤ 8 * s.cfg.buflen.toNat →
      exec (i want) s =
        .next (afterRead ((List.range want.toNat).map fun j => slotValue s.buf (pos j) (slotWidth table t j))
          (pos slots) s)) ∧
    (∀ j, BytesAt s.stream a [t] → j < slots → pos j ≤ 8 * s.cfg.buflen.toNat →
      8 * s.cfg.buflen.toNat < pos (j + 1) → exec (i want) s = .next (afterRaise .endOfData (pos j) s))

/-! ## Register writes -/

/-- The registers writable in CONFIG only and the values they take, at NFMAX = 256 (10 R45, R46). -/
def ConfigWrite (n v : Nat) : Prop :=
  n = 0x4 ∨ (0x8 ≤ n ∧ n ≤ 0xC) ∨ (n = 0xD ∧ v < 2 ^ 8) ∨ (0x10 ≤ n ∧ n < 0x14 ∧ v ≤ 256) ∨
    (0x14 ≤ n ∧ n < 0x18) ∨ (0x1000 ≤ n ∧ n < 0x1400 ∧ v < 2 ^ 8)

/-- The registers writable in CONFIG and in BETWEEN (10 R45). -/
def OperandWrite (n : Nat) : Prop := (0x18 ≤ n ∧ n < 0x1C) ∨ (0x38 ≤ n ∧ n ≤ 0x3D)

/-- What a register reads as after an accepted write: HDR_VALID and PA_VALID keep three bits, M0IDX bit 31 and bits
15:0, every other register all of the value (10 R29, R31, R40). -/
def storedValue (n : Nat) (v : Word) : Word :=
  if n = 0x8 ∨ n = 0x3C then v &&& 0x7
  else if 0x14 ≤ n ∧ n < 0x18 then v &&& 0x8000FFFF
  else v

/-- A register write other than to CMD is accepted, at NFMAX = 256 (10 R45, R46). -/
def WriteAccepted (r : RegNo) (v : Word) (s : State) : Prop :=
  (s.run.mode = .config ∧ (ConfigWrite r.toNat v.toNat ∨ OperandWrite r.toNat)) ∨
    (s.run.mode = .between ∧ OperandWrite r.toNat)

/-- The field that each writable register number sets, and that every other writable field stays (10 R28 to R32, R35,
R40, R45, at NFMAX = 256). -/
def WriteSets (r : RegNo) (v : Word) (s t : State) : Prop :=
  t.cfg.buflen = (if r = 0x0004 then v else s.cfg.buflen) ∧
  t.cfg.hdr.valid = (if r = 0x0008 then v.setWidth 3 else s.cfg.hdr.valid) ∧
  t.cfg.hdr.minthrottle = (if r = 0x0009 then v else s.cfg.hdr.minthrottle) ∧
  t.cfg.hdr.vbatref = (if r = 0x000A then v else s.cfg.hdr.vbatref) ∧
  t.cfg.hdr.motorLo = (if r = 0x000B then v else s.cfg.hdr.motorLo) ∧
  t.cfg.hdr.motorHi = (if r = 0x000C then v else s.cfg.hdr.motorHi) ∧
  t.cfg.hdr.fwvariant = (if r = 0x000D then v.setWidth 8 else s.cfg.hdr.fwvariant) ∧
  (∀ k : Kind,
    t.cfg.nf.get k = (if r.toNat = 0x10 + k.code.toNat then v.setWidth 16 else s.cfg.nf.get k) ∧
    t.cfg.m0idx.get k = (if r.toNat = 0x14 + k.code.toNat then { valid := v.getLsbD 31, index := v.setWidth 16 }
      else s.cfg.m0idx.get k) ∧
    t.run.skip.get k = (if r.toNat = 0x18 + k.code.toNat then v else s.run.skip.get k) ∧
    ∀ i, (t.cfg.fd.get k).read i =
      (if r.toNat = 0x1000 + 0x100 * k.code.toNat + i ∧ i < 256 then v.setWidth 8 else (s.cfg.fd.get k).read i)) ∧
  t.run.pa.raw = (if r = 0x0038 then v else s.run.pa.raw) ∧
  t.run.pa.last = (if r = 0x0039 then v else s.run.pa.last) ∧
  t.run.pa.llast = (if r = 0x003A then v else s.run.pa.llast) ∧
  t.run.pa.m0 = (if r = 0x003B then v else s.run.pa.m0) ∧
  t.run.pa.valid = (if r = 0x003C then v.setWidth 3 else s.run.pa.valid) ∧
  t.run.pa.skip = (if r = 0x003D then v else s.run.pa.skip)

/-! ## Register reads -/

/-- The number of each code of STATUS.ERR (60 R200). -/
def errNumber : ErrCode → Nat
  | .none => 0
  | .endOfData => 1
  | .malformedFrame => 2
  | .invalidHeaderReference => 4
  | .illegalCommand => 5
  | .illegalDescriptor => 6

/-- STATUS as a number (10 R26): ERR in bits 3:0, ANYFRAME bit 4, UNSUP bit 5, ALIGNED bit 6, EVVALID bit 7. -/
def statusNumber (r : RunState) : Nat :=
  errNumber r.status.err + 2 ^ 4 * r.status.anyframe.toNat + 2 ^ 5 * r.status.unsup.toNat +
    2 ^ 6 * (decide (r.bp.toNat % 8 = 0)).toNat + 2 ^ 7 * r.status.evvalid.toNat

/-- The registers with one number each, and what each reads as, row by row of 10 R45. -/
def fixedRegisters (s : State) : List (RegNo × Word) :=
  [(0x0000, s.run.mode.code.setWidth 32), (0x0001, BitVec.ofNat 32 (statusNumber s.run)),
    (0x0002, BitVec.ofNat 32 (s.run.bp.toNat / 8)), (0x0003, BitVec.ofNat 32 (s.run.bp.toNat % 8)),
    (0x0004, s.cfg.buflen), (0x0005, s.run.errFi),
    (0x0006, BitVec.ofNat 32 (s.run.errBp.toNat / 8)), (0x0007, BitVec.ofNat 32 (s.run.errBp.toNat % 8)),
    (0x0008, s.cfg.hdr.valid.setWidth 32), (0x0009, s.cfg.hdr.minthrottle), (0x000A, s.cfg.hdr.vbatref),
    (0x000B, s.cfg.hdr.motorLo), (0x000C, s.cfg.hdr.motorHi), (0x000D, s.cfg.hdr.fwvariant.setWidth 32)] ++
  [(0x0020, s.run.stats.ncorrupt), (0x0021, BitVec.ofNat 32 ((s.run.bp.toNat + 7) / 8)),
    (0x0022, s.run.stats.lastStart), (0x0023, s.run.stats.lastEnd),
    (0x0024, s.run.diag.cnt), (0x0025, s.run.diag.last), (0x0028, s.run.wcnt.setWidth 32),
    (0x0030, s.run.w.w0), (0x0031, s.run.w.w1), (0x0032, s.run.w.w2), (0x0033, s.run.w.w3),
    (0x0034, s.run.w.w4), (0x0035, s.run.w.w5), (0x0036, s.run.w.w6), (0x0037, s.run.w.w7)] ++
  [(0x0038, s.run.pa.raw), (0x0039, s.run.pa.last), (0x003A, s.run.pa.llast), (0x003B, s.run.pa.m0),
    (0x003C, s.run.pa.valid.setWidth 32), (0x003D, s.run.pa.skip), (0x003E, s.run.pval),
    (0x0040, s.run.ev.kind.code.setWidth 32), (0x0041, s.run.ev.seq), (0x0042, s.run.ev.nf.setWidth 32),
    (0x0050, 0)]

/-- The registers with one number for each kind, and what each reads as (10 R45). -/
def kindRegisters (s : State) (k : Kind) : List (Nat × Word) :=
  [(0x10, (s.cfg.nf.get k).setWidth 32),
    (0x14, BitVec.ofNat 32 (2 ^ 31 * (s.cfg.m0idx.get k).valid.toNat + (s.cfg.m0idx.get k).index.toNat)),
    (0x18, s.run.skip.get k), (0x1C, s.run.stats.nframes.get k)]

/-! ## The field step -/

/-- The `diff` of the field step of field i, from the rules of the predictors and the sequencer's operands (42 R145 to
R156, 43 R176); `none` where the rule raises. -/
def fieldDiff (s : State) (d : Descriptor) (i : Nat) : Option Word :=
  let h := s.run.hist.get s.frame.kind
  let m := s.cfg.m0idx.get s.frame.kind
  let sg := match s.params.signedSource with
    | .encoding => d.enc.isSigned
    | .fielddef => d.sg
  let last := if h.vl then some (h.l.read i) else none
  let llast := if h.vll then some (h.ll.read i) else none
  match d.pred with
  | .zero => some 0
  | .previous => some (if h.vl then h.l.read i else 0)
  | .straightline => some (diffStraightline sg last llast)
  | .average2 => some (diffAverage2 sg last llast)
  | .minthrottle => if s.cfg.hdr.valid.getLsbD 0 then some s.cfg.hdr.minthrottle else none
  | .motor0 => if m.valid ∧ m.index.toNat < i then some (s.run.cf.read m.index.toNat) else none
  | .increment => some (1 + s.run.skip.get s.frame.kind + if h.vl then h.l.read i else 0)
  | .homelat => some 0
  | .fifteenhundred => some 1500
  | .vbatref => if s.cfg.hdr.valid.getLsbD 1 then some s.cfg.hdr.vbatref else none
  | .lastmainframetime => some 0
  | .minmotor => if s.cfg.hdr.valid.getLsbD 2 then some s.cfg.hdr.motorLo else none

/-- A frame abandoned from inside (43 R179, 60 R207). -/
def afterAbandon (x : Exc) (pos i : Nat) (s : State) : State :=
  { s with
    run.status.err := x.err
    run.errBp := BitVec.ofNat 35 pos
    run.errFi := errFiWord true s.frame.kind i
    run.bp := s.frame.bp0
    run.mode := if x = .invalidHeaderReference then .fatal else .between
    run.stats.ncorrupt := if x = .invalidHeaderReference then s.run.stats.ncorrupt else s.run.stats.ncorrupt + 1
    run.skip := if x = .invalidHeaderReference then s.run.skip
      else s.run.skip.set s.frame.kind (s.run.skip.get s.frame.kind + 1)
    frame := FrameState.idle }

/-- The run of a kind's definition at a field index is `n` fields of encoding `e` (43 R174), in the bits of the
descriptors: all of them have ENC = e, they fit in MAXCHUNK and in the definition, and no longer run does. -/
def RunIs (fd : Cells 8) (nf i : Nat) (e : Enc) (n : Nat) : Prop :=
  1 ≤ n ∧ n ≤ e.maxChunk ∧ i + n ≤ nf ∧ (∀ j < n, (fd.read (i + j)).toNat / 16 % 8 = e.code.toNat) ∧
    (n < e.maxChunk → i + n < nf → (fd.read (i + n)).toNat / 16 % 8 ≠ e.code.toNat)

/-- Two histories agree on all that the spec says they hold (10 R34): the valid bits, and under a set valid bit the
values of the fields in use. -/
def SamePast (nf : PerKind (BitVec 16)) (h h' : PerKind History) : Prop :=
  ∀ k, (h'.get k).vl = (h.get k).vl ∧ (h'.get k).vll = (h.get k).vll ∧
    ((h.get k).vl = true → ∀ i < (nf.get k).toNat, (h'.get k).l.read i = (h.get k).l.read i) ∧
    ((h.get k).vll = true → ∀ i < (nf.get k).toNat, (h'.get k).ll.read i = (h.get k).ll.read i)

/-! ## FRAME from the frame definition -/

/-- A frame as the frame definition and the stream give it: the field values in order and the cursor after them, or
the exception with the bit address and the field index it records. `stubs` are the stub predictors evaluated, in
order. -/
inductive FrameReading where
  | good (vals : List Word) (bp : Nat) (stubs : List Pred)
  | bad (x : Exc) (pos i : Nat) (stubs : List Pred)

/-- The stub among a predictor, for the diagnostics. -/
def stubOf (p : Pred) : List Pred := if Pred.isStub p then [p] else []

/-- The operands of field i from the values of the fields before it (43 R176): the motor-0 value is there exactly when
the motor-0 field is one of them. -/
def readingOperands (s : State) (k : Kind) (d : Descriptor) (vals : List Word) (raw : Word) : PredOperands where
  signed := signedOperand s.params.signedSource d.enc d.sg
  raw := raw
  last := optional (s.run.hist.get k).vl ((s.run.hist.get k).l.read vals.length)
  llast := optional (s.run.hist.get k).vll ((s.run.hist.get k).ll.read vals.length)
  skip := s.run.skip.get k
  m0 := if (s.cfg.m0idx.get k).valid then vals[(s.cfg.m0idx.get k).index.toNat]? else none

/-- The field steps of a run, in order: the values so far grow by one for each. -/
def readFields (s : State) (k : Kind) (bp : Nat) : List Descriptor → List Word → List Word → List Pred → FrameReading
  | d :: ds, raw :: raws, vals, stubs =>
    match predict d.pred s.cfg.hdr (readingOperands s k d vals raw) with
    | some v => readFields s k bp ds raws (vals ++ [v]) (stubs ++ stubOf d.pred)
    | none => .bad .invalidHeaderReference bp vals.length stubs
  | _, _, vals, stubs => .good vals bp stubs

/-- The run at the head of a list of descriptors: those that share its encoding, at most MAXCHUNK (43 R174). -/
def headRun (d : Descriptor) (ds : List Descriptor) : Nat :=
  min d.enc.maxChunk ((d :: ds).takeWhile fun d' => decide (d'.enc = d.enc)).length

/-- The runs of a frame in order (43 R173 to R176), `fuel` at most. -/
def readRuns (s : State) (k : Kind) : (fuel bp : Nat) → List Descriptor → List Word → List Pred → FrameReading
  | 0, bp, _, vals, stubs => .good vals bp stubs
  | _ + 1, bp, [], vals, stubs => .good vals bp stubs
  | fuel + 1, bp, d :: ds, vals, stubs =>
    match decoderOf d.enc s.stream bp (headRun d ds) with
    | .raised x pos => .bad x pos vals.length stubs
    | .ok raws bp' =>
      match readFields s k bp' ((d :: ds).take (headRun d ds)) raws vals stubs with
      | .good vals' _ stubs' => readRuns s k fuel bp' ((d :: ds).drop (headRun d ds)) vals' stubs'
      | .bad x pos i stubs' => .bad x pos i stubs'

/-- The descriptors of a frame definition, the illegal ones left out (there are none after START). -/
def definitionOf (s : State) (k : Kind) : List Descriptor :=
  ((s.cfg.fd.get k).take (s.cfg.nf.get k).toNat).filterMap fun d => (decodeDescriptor d).toOption

/-- The frame at the cursor. -/
def readFrame (s : State) (k : Kind) : FrameReading :=
  readRuns s k (s.cfg.nf.get k).toNat s.run.bp.toNat (definitionOf s k) [] []

/-- Values stored at numbers i, i+1, ... -/
def storeFrom : Nat → List Word → Cells 32 → Cells 32
  | _, [], dst => dst
  | i, v :: vs, dst => storeFrom (i + 1) vs (dst.write i v)

/-- PLAUSIBLE of a frame's values (43 R177). -/
def plausibleReading (s : State) (k : Kind) (vals : List Word) (bp : Nat) : Bool :=
  match s.params.plausible with
  | .alwaysTrue => true
  | .custom => Config.plausible k vals s.buf s.cfg.buflen.toNat bp

/-- The diagnostics of the stubs evaluated, and ANYFRAME (42 R161, 43 R173): what a frame leaves whatever its
outcome. -/
def frameTraces (stubs : List Pred) (s : State) : State :=
  stubs.foldl (fun t p => diagnostic p t) { s with run.status.anyframe := true }

/-- The state after a good frame (43 R178). -/
def goodFrame (k : Kind) (vals : List Word) (bp : Nat) (stubs : List Pred) (s : State) : State :=
  let h := s.run.hist.get k
  let t := frameTraces stubs s
  { t with
    run.bp := BitVec.ofNat 35 bp
    run.hist := s.run.hist.set k
      { l := storeFrom 0 vals h.l, vl := true, ll := Cells.copy h.l vals.length h.ll, vll := h.vl }
    run.stats := { nframes := s.run.stats.nframes.set k (s.run.stats.nframes.get k + 1)
                   ncorrupt := s.run.stats.ncorrupt
                   lastStart := BitVec.ofNat 32 (s.run.bp.toNat / 8)
                   lastEnd := BitVec.ofNat 32 ((bp + 7) / 8) }
    run.skip := s.run.skip.set k 0
    run.ev := { kind := k, nf := BitVec.ofNat 16 vals.length, seq := s.run.ev.seq + 1
                val := storeFrom 0 vals s.run.ev.val }
    run.status.evvalid := true
    run.status.err := .none }

/-- The state after an abandoned frame (43 R179, 60 R207): BP as it was, the error recorded, and the counters up by one
or the mode FATAL. -/
def badFrame (k : Kind) (x : Exc) (pos i : Nat) (stubs : List Pred) (s : State) : State :=
  let t := frameTraces stubs s
  { t with
    run.status.err := x.err
    run.errBp := BitVec.ofNat 35 pos
    run.errFi := errFiWord true k i
    run.mode := if x = .invalidHeaderReference then .fatal else .between
    run.stats.ncorrupt := if x = .invalidHeaderReference then s.run.stats.ncorrupt else s.run.stats.ncorrupt + 1
    run.skip := if x = .invalidHeaderReference then s.run.skip else s.run.skip.set k (s.run.skip.get k + 1) }

/-- What FRAME k leaves, CF apart. -/
def frameResult (k : Kind) (s : State) : State :=
  match readFrame s k with
  | .good vals bp stubs =>
    if plausibleReading s k vals bp then goodFrame k vals bp stubs s
    else badFrame k .malformedFrame bp (s.cfg.nf.get k).toNat stubs s
  | .bad x pos i stubs => badFrame k x pos i stubs s

end Sys2Proof.Machine
end

