-- ==== Sys2Proof/Certificates/Slice0/Obligations.lean ====
section
/-! DEFINITION. The statements about the machine, in the order of spec/: encodings, the step, the system commands, the
Bit Reader, the decoders, the predictors, FRAME, the register port, and the machine as a whole. -/

open Sys2Proof Sys2Proof.Machine

/-! ## Encodings (30) -/

/-- Decoding the word of a well-formed instruction gives it back, for every instruction and every operand
(30 R70 to R75, R80 to R82). -/
def Obligations.DecodeOfEncodeIsTheInstruction : Prop :=
  ∀ i : Instr, i.wf = true → decode i.slot (encode i) = .ok i

/-- A word that decodes is the word of one well-formed instruction: no bit of it is ignored (30 R76, R84). -/
def Obligations.EveryDecodedWordIsItsEncoding : Prop :=
  ∀ (sl : Slot) (v : Word) (i : Instr), decode sl v = .ok i → i.slot = sl ∧ i.wf = true ∧ encode i = v

/-- Words written out from the tables of 30 R71 to R75 and R80: one command of every class, the descriptor 0x81 of
30 R91 (SVAR, PREVIOUS, s) and 0x53 (TAG16, AVERAGE2, u) in both halves. -/
def Obligations.WordsOfTheSpecDecode : Prop :=
  decode .command 0x0000 = .ok .start ∧ decode .command 0x1008 = .ok (.rdbits 8) ∧
    decode .command 0x2308 = .ok (.decTagvar 8) ∧ decode .command 0x3380 = .ok (.predAverage2 true) ∧
    decode .command 0x4002 = .ok (.frame .gps) ∧ decode .encHalf 0x81 = .ok (.fdSvar true .previous) ∧
    decode .predHalf 0x81 = .ok (.fdPrevious true .svar) ∧ decode .encHalf 0x53 = .ok (.fdTag16 false .average2) ∧
    decode .predHalf 0x53 = .ok (.fdAverage2 false .tag16)

/-- Which values written to CMD are commands, by CLASS, OP and ARG: checks 1 to 4 of 30 R76 with the tables of 30 R71
to R75. Every other value is illegal (30 R78). -/
def Obligations.CommandWordsAcceptedExactly : Prop :=
  ∀ v : Word, (∃ i, decode .command v = .ok i) ↔
    let cls := v.toNat / 4096
    let op := v.toNat / 256 % 16
    let arg := v.toNat % 256
    (cls = 0 ∧ op < 3 ∧ arg = 0) ∨ (cls = 1 ∧ op < 2 ∧ arg ≤ 32) ∨ (cls = 1 ∧ 2 ≤ op ∧ op < 5 ∧ arg = 0) ∨
      (cls = 2 ∧ (op < 3 ∨ op = 6) ∧ arg = 1) ∨ (cls = 2 ∧ op = 3 ∧ 1 ≤ arg ∧ arg ≤ 8) ∨
      (cls = 2 ∧ op = 4 ∧ 1 ≤ arg ∧ arg ≤ 3) ∨ (cls = 2 ∧ op = 5 ∧ 1 ≤ arg ∧ arg ≤ 4) ∨
      (cls = 3 ∧ op < 12 ∧ (arg = 0 ∨ arg = 128)) ∨ (cls = 4 ∧ op = 0 ∧ arg < 4)

/-- A legal descriptor byte is 0x80 * S + 0x10 * ENC + PRED of its parts and stands for the two rows of those parts; an
illegal one, ENC = 7 or PRED >= 12, stands for no row (30 R80, R83, R84). -/
def Obligations.DescriptorsDecodeToTheirFields : Prop :=
  ∀ d : Byte,
    (LegalDescriptor d → ∃ x : Descriptor,
      d.toNat = 0x80 * x.sg.toNat + 0x10 * x.enc.code.toNat + x.pred.code.toNat ∧
        decode .encHalf (d.setWidth 32) = .ok x.encInstr ∧ decode .predHalf (d.setWidth 32) = .ok x.predInstr) ∧
    (¬ LegalDescriptor d → ∀ sl i, sl ≠ .command → decode sl (d.setWidth 32) ≠ .ok i)

/-- The code, MAXCHUNK and ISSIGNED of the seven encodings, the codes of the twelve predictors, the reserved codes, and
the same codes as OP of the DEC and the PRED commands (30 R81, R82). -/
def Obligations.CodesOfEncodingsAndPredictors : Prop :=
  [Enc.svar, .uvar, .neg14, .tagvar, .tag32, .tag16, .null].map
      (fun e => (e.code.toNat, e.maxChunk, e.isSigned)) =
    [(0, 1, true), (1, 1, false), (2, 1, true), (3, 8, true), (4, 3, true), (5, 4, true), (6, 1, false)] ∧
  [Pred.zero, .previous, .straightline, .average2, .minthrottle, .motor0, .increment, .homelat, .fifteenhundred,
      .vbatref, .lastmainframetime, .minmotor].map (fun p => p.code.toNat) = [0, 1, 2, 3, 4, 5, 6, 7, 8, 9, 10, 11] ∧
  (∀ e, encOfCode e.code = some e) ∧ encOfCode 7 = none ∧ (∀ p, predOfCode p.code = some p) ∧
  (∀ c : BitVec 4, 12 ≤ c.toNat → predOfCode c = none) ∧
  [Instr.decSvar 1, .decUvar 1, .decNeg14 1, .decTagvar 1, .decTag32 1, .decTag16 1, .decNull 1].map
      (fun i => (encode i).toNat) = [0x2001, 0x2101, 0x2201, 0x2301, 0x2401, 0x2501, 0x2601] ∧
  [Instr.predZero false, .predPrevious false, .predStraightline false, .predAverage2 false, .predMinthrottle false,
      .predMotor0 false, .predIncrement false, .predHomelat false, .predFifteenhundred false, .predVbatref false,
      .predLastmainframetime false, .predMinmotor false].map (fun i => (encode i).toNat) =
    [0x3000, 0x3100, 0x3200, 0x3300, 0x3400, 0x3500, 0x3600, 0x3700, 0x3800, 0x3900, 0x3A00, 0x3B00]

/-! ## The step (10 R46, 30 R70, 70 R250) -/

/-- A step runs the instruction that is next: a command word written to CMD, once the host action is taken from the
port; inside FRAME (log 8) the encoding half of the descriptor at FI when no raw words wait, else the predictor half of
the descriptor of the next field. -/
def Obligations.StepRunsTheDecodedInstruction : Prop :=
  ∀ (s : State) (i : Instr),
    (∀ v rest, s.run.mode ≠ .inframe → s.port = .write 0x0050 v :: rest → decode .command v = .ok i →
      step s = exec i { s with port := rest }) ∧
    (s.run.mode = .inframe → s.frame.raw = [] → s.frame.fi < (s.cfg.nf.get s.frame.kind).toNat →
      decode .encHalf (((s.cfg.fd.get s.frame.kind).read s.frame.fi).setWidth 32) = .ok i → step s = exec i s) ∧
    (s.run.mode = .inframe → s.frame.raw ≠ [] →
      decode .predHalf (((s.cfg.fd.get s.frame.kind).read (s.frame.fi + s.frame.rj)).setWidth 32) = .ok i →
      step s = exec i s)

/-- Every cause of IllegalCommand sets STATUS.ERR to 5 and changes nothing else: a word that is no command, a command in
a mode that does not admit it, FRAME of a kind with NF = 0, and a refused register write (60 R204). -/
def Obligations.IllegalCommandSetsOnlyErr : Prop :=
  ∀ (s : State) (r : RegNo) (v : Word) (rest : List HostAction), s.run.mode ≠ .inframe →
    s.port = .write r v :: rest →
    ((r = 0x0050 ∧ ∀ i, decode .command v ≠ .ok i) ∨
      (r = 0x0050 ∧ ∃ i, decode .command v = .ok i ∧ i ≠ .reset ∧
        s.run.mode ≠ (if i = .start then .config else .between)) ∨
      (r = 0x0050 ∧ ∃ k, decode .command v = .ok (.frame k) ∧ s.cfg.nf.get k = 0) ∨
      (r ≠ 0x0050 ∧ s.params.nfmax = 256 ∧ ¬ (s.run.mode = .config ∧ ConfigWrite r.toNat v.toNat) ∧
        ¬ ((s.run.mode = .config ∨ s.run.mode = .between) ∧ OperandWrite r.toNat))) →
    step s = .next (afterIllegal { s with port := rest })

/-! ## System commands (43 R181 to R183, 60 R205, 70 R230) -/

/-- START (word 0x0000): with every descriptor in use legal, BETWEEN and nothing else; else IllegalDescriptor with the
first illegal one, in the order of kinds, then of indices; in any other mode IllegalCommand (43 R181, 60 R205). -/
def Obligations.StartChecksTheDescriptors : Prop :=
  decode .command 0x0000 = .ok .start ∧
  ∀ s : State,
    (s.run.mode ≠ .config → exec .start s = .next (afterIllegal s)) ∧
    (s.run.mode = .config → (∀ k i, i < (s.cfg.nf.get k).toNat → LegalDescriptor ((s.cfg.fd.get k).read i)) →
      exec .start s = .next { s with run.mode := .between, run.status.err := .none }) ∧
    (∀ k i, s.run.mode = .config → i < (s.cfg.nf.get k).toNat → ¬ LegalDescriptor ((s.cfg.fd.get k).read i) →
      (∀ k' j, j < (s.cfg.nf.get k').toNat → (k'.code < k.code ∨ (k' = k ∧ j < i)) →
        LegalDescriptor ((s.cfg.fd.get k').read j)) →
      exec .start s = .next { s with
        run.status.err := .illegalDescriptor
        run.errFi := BitVec.ofNat 32 (65536 * k.code.toNat + i)
        run.errBp := s.run.bp })

/-- END (word 0x0100): EOS and nothing else, at any BP; in any other mode IllegalCommand. In EOS every command but
RESET is IllegalCommand and every register stays readable (43 R182). -/
def Obligations.EndStopsTheStream : Prop :=
  decode .command 0x0100 = .ok .endStream ∧
  ∀ s : State,
    (s.run.mode = .between → exec .endStream s = .next { s with run.mode := .eos, run.status.err := .none }) ∧
    (s.run.mode ≠ .between → exec .endStream s = .next (afterIllegal s)) ∧
    (∀ i : Instr, s.run.mode = .eos → i.slot = .command → i ≠ .reset →
      exec i s = .next (afterIllegal s)) ∧
    (∀ r rest, s.run.mode = .eos → s.port = .read r :: rest →
      step s = .next { s with port := rest, rdata := portRead s r })

/-- RESET (word 0x0200), in every mode, and a hardware reset leave the same state: every register reads its reset
value (FD, which has none, apart), no history is valid, and BUF, which is not BVLD's state, stays
(43 R183, 70 R230). -/
def Obligations.ResetGivesTheResetState : Prop :=
  decode .command 0x0200 = .ok .reset ∧
  ∀ s : State, ∃ t, exec .reset s = .next t ∧
    (∀ r : RegNo, (∀ k i, regOf s.params.nfmax r.toNat ≠ some (.fd k i)) →
      portRead t r = if r = 1 then 0x00000040 else 0) ∧
    (∀ k, (t.run.hist.get k).vl = false ∧ (t.run.hist.get k).vll = false) ∧ t.buf = s.buf ∧
    ∀ rest, s.port = .hardReset :: rest → s.run.mode ≠ .inframe → step s = .next { t with port := rest }

/-! ## Bit Reader (40) -/

/-- RDBITS n (word 0x1000 + n): W[0] gets the n bits at BP, the first one read as its bit n-1, bits 31:n zero; BP moves
by n. Past the end it is EndOfData at BP; n above 32 is illegal (40 R103 with R101, 20 R52, R53). -/
def Obligations.RdbitsReadsTheNextBits : Prop :=
  ∀ (s : State) (n : BitVec 6),
    (n.toNat ≤ 32 → decode .command (0x1000 + n.setWidth 32) = .ok (.rdbits n)) ∧
    (s.run.mode = .between → n.toNat ≤ 32 → s.run.bp.toNat + n.toNat ≤ 8 * s.cfg.buflen.toNat →
      ∃ v : Word, exec (.rdbits n) s = .next (afterRead [v] (s.run.bp.toNat + n.toNat) s) ∧
        ∀ j < 32, v.getLsbD j = (decide (j < n.toNat) &&
          (s.buf.read ((s.run.bp.toNat + (n.toNat - 1 - j)) / 8)).getLsbD
            (7 - (s.run.bp.toNat + (n.toNat - 1 - j)) % 8))) ∧
    (s.run.mode = .between → n.toNat ≤ 32 → 8 * s.cfg.buflen.toNat < s.run.bp.toNat + n.toNat →
      exec (.rdbits n) s = .next (afterRaise .endOfData s.run.bp.toNat s)) ∧
    (32 < n.toNat → exec (.rdbits n) s = .next (afterIllegal s))

/-- RDABITS n (word 0x1100 + n): as RDBITS n from BP rounded up to a byte; EndOfData names the rounded address and BP
keeps its own; at an aligned BP it is RDBITS n (40 R106 with R102, 20 R55). -/
def Obligations.RdabitsRoundsTheCursorUp : Prop :=
  ∀ (s : State) (n : BitVec 6),
    let a := 8 * ((s.run.bp.toNat + 7) / 8)
    (n.toNat ≤ 32 → decode .command (0x1100 + n.setWidth 32) = .ok (.rdabits n)) ∧
    (s.run.mode = .between → n.toNat ≤ 32 → a + n.toNat ≤ 8 * s.cfg.buflen.toNat →
      ∃ v : Word, exec (.rdabits n) s = .next (afterRead [v] (a + n.toNat) s) ∧
        ∀ j < 32, v.getLsbD j = (decide (j < n.toNat) &&
          (s.buf.read ((a + (n.toNat - 1 - j)) / 8)).getLsbD (7 - (a + (n.toNat - 1 - j)) % 8))) ∧
    (s.run.mode = .between → n.toNat ≤ 32 → 8 * s.cfg.buflen.toNat < a + n.toNat →
      exec (.rdabits n) s = .next (afterRaise .endOfData a s)) ∧
    (s.run.bp.toNat % 8 = 0 → exec (.rdabits n) s = exec (.rdbits n) s) ∧
    (32 < n.toNat → exec (.rdabits n) s = .next (afterIllegal s))

/-- ALIGN (word 0x1400): BP rounded up to a multiple of 8, W and WCNT as they were; STATUS.ALIGNED reads 1 after it; at
an aligned BP it changes nothing; in a wrong mode it is illegal (40 R107). -/
def Obligations.AlignMovesOnlyTheCursor : Prop :=
  decode .command 0x1400 = .ok .align ∧
  ∀ s : State,
    (s.run.mode = .between → ∃ t, exec .align s = .next t ∧
      t = { s with run.bp := BitVec.ofNat 35 (8 * ((s.run.bp.toNat + 7) / 8)), run.status.err := .none } ∧
      (portRead t 1).getLsbD 6 = true ∧
      (s.run.bp.toNat % 8 = 0 → t = { s with run.status.err := .none })) ∧
    (s.run.mode ≠ .between → exec .align s = .next (afterIllegal s))

/-- RDUVAR (word 0x1200): W[0] gets the value that the 1 to 5 bytes at the next byte boundary spell and BP moves past
them; the two malformed shapes are MalformedFrame at BP; a sequence that the end of the buffer cuts off is EndOfData at
the missing byte (40 R108 with R104, 30 R85). -/
def Obligations.RduvarReadsTheSpelledValue : Prop :=
  decode .command 0x1200 = .ok .rduvar ∧
  ∀ s : State, s.run.mode = .between →
    (∀ u bp', Spells s.stream s.run.bp.toNat u bp' →
      exec .rduvar s = .next (afterRead [BitVec.ofNat 32 u] bp' s) ∧ u < 2 ^ 32) ∧
    (Malformed s.stream s.run.bp.toNat →
      exec .rduvar s = .next (afterRaise .malformedFrame s.run.bp.toNat s)) ∧
    (∀ pos, Truncated s.stream s.run.bp.toNat pos → exec .rduvar s = .next (afterRaise .endOfData pos s))

/-- RDSVAR (word 0x1300): the spelled u gives u/2 for even u and -(u+1)/2 for odd u; it raises as RDUVAR does
(40 R109 with R105). -/
def Obligations.RdsvarUnfoldsTheZigzag : Prop :=
  decode .command 0x1300 = .ok .rdsvar ∧
  ∀ s : State, s.run.mode = .between →
    (∀ u bp', Spells s.stream s.run.bp.toNat u bp' →
      ∃ v : Word, exec .rdsvar s = .next (afterRead [v] bp' s) ∧ v.toInt = zigzagValue u) ∧
    (Malformed s.stream s.run.bp.toNat →
      exec .rdsvar s = .next (afterRaise .malformedFrame s.run.bp.toNat s)) ∧
    (∀ pos, Truncated s.stream s.run.bp.toNat pos → exec .rdsvar s = .next (afterRaise .endOfData pos s))

/-- Zig-zag: the signed value of the result is u/2 for even u and -(u+1)/2 for odd u, and the map is a bijection from
the unsigned words onto the signed values (00 R9). -/
def Obligations.ZigzagIsABijection : Prop :=
  (∀ u : Word, zigzag u = (u >>> 1) ^^^ (if u.getLsbD 0 then BitVec.allOnes 32 else 0) ∧
    (zigzag u).toInt = if u.toNat % 2 = 0 then ((u.toNat / 2 : Nat) : Int) else -(((u.toNat + 1) / 2 : Nat) : Int)) ∧
  Function.Bijective zigzag

/-- Reading back the shortest sequence of any 32-bit u gives u; that sequence has 1 byte for u < 2^7, 2 for u < 2^14, 3
for u < 2^21, 4 for u < 2^28 and else 5; a padded sequence decodes to the same value, so two sequences can give one
value (40 R111). -/
def Obligations.RduvarInvertsTheShortestForm : Prop :=
  (∀ (s : State) (a : Nat) (u : Word), s.run.mode = .between → s.run.bp.toNat = 8 * a →
    BytesAt s.stream a (uvarBytes u) →
    exec .rduvar s = .next (afterRead [u] (8 * (a + (uvarBytes u).length)) s)) ∧
  (∀ u : Word, (uvarBytes u).length =
    if u.toNat < 2 ^ 7 then 1 else if u.toNat < 2 ^ 14 then 2 else if u.toNat < 2 ^ 21 then 3
      else if u.toNat < 2 ^ 28 then 4 else 5) ∧
  (∀ (s : State) (a : Nat), s.run.mode = .between → s.run.bp.toNat = 8 * a → BytesAt s.stream a [0x80, 0x00] →
    exec .rduvar s = .next (afterRead [0] (8 * (a + 2)) s))

/-- Reading back the writer's code of any signed 32-bit x gives x; 0, 1, 2, 3 unfold to 0, -1, 1, -2, and the two
largest codes to the least and the greatest value (40 R105). -/
def Obligations.RdsvarInvertsTheEncoder : Prop :=
  (∀ (s : State) (a : Nat) (x : Word), s.run.mode = .between → s.run.bp.toNat = 8 * a →
    BytesAt s.stream a (uvarBytes (svarCode x)) →
    exec .rdsvar s = .next (afterRead [x] (8 * (a + (uvarBytes (svarCode x)).length)) s)) ∧
  [0, 1, 2, 3, 4294967295, 4294967294].map (fun u => (zigzag (BitVec.ofNat 32 u)).toInt) =
    [0, -1, 1, -2, -2147483648, 2147483647]

/-- What the Bit Reader commands consume: RDBITS n exactly n bits, RDABITS n that after rounding, ALIGN the rounding,
RDUVAR and RDSVAR 8 to 40 bits in whole bytes after rounding; a raise leaves BP; and BP stays within the buffer
(40 R110, 10 R23). -/
def Obligations.BitReaderConsumption : Prop :=
  ∀ (s t : State) (i : Instr), s.run.mode = .between → s.run.bp.toNat ≤ 8 * s.cfg.buflen.toNat → exec i s = .next t →
    ((∃ n, i = .rdbits n) ∨ (∃ n, i = .rdabits n) ∨ i = .align ∨ i = .rduvar ∨ i = .rdsvar) →
    t.run.bp.toNat ≤ 8 * s.cfg.buflen.toNat ∧
    (t.run.status.err ≠ .none → t.run.bp = s.run.bp) ∧
    (t.run.status.err = .none →
      let a := 8 * ((s.run.bp.toNat + 7) / 8)
      (∀ n, i = .rdbits n → t.run.bp.toNat = s.run.bp.toNat + n.toNat) ∧
      (∀ n, i = .rdabits n → t.run.bp.toNat = a + n.toNat) ∧
      (i = .align → t.run.bp.toNat = a) ∧
      (i = .rduvar ∨ i = .rdsvar → ∃ m, 1 ≤ m ∧ m ≤ 5 ∧ t.run.bp.toNat = a + 8 * m))

/-! ## Encoding decoders (41) -/

/-- DEC.SVAR (word 0x2001, ENC 0) and DEC.UVAR (word 0x2101, ENC 1): one word, the signed or the unsigned value
spelled at the cursor; they raise as RDSVAR and RDUVAR do (41 R122, R123). -/
def Obligations.DecSvarAndUvarGiveOneWord : Prop :=
  decode .command 0x2001 = .ok (.decSvar 1) ∧ decode .command 0x2101 = .ok (.decUvar 1) ∧
  Enc.svar.code = 0 ∧ Enc.uvar.code = 1 ∧
  ∀ s : State, s.run.mode = .between →
    (∀ u bp', Spells s.stream s.run.bp.toNat u bp' →
      (∃ v : Word, exec (.decSvar 1) s = .next (afterRead [v] bp' s) ∧ v.toInt = zigzagValue u) ∧
      exec (.decUvar 1) s = .next (afterRead [BitVec.ofNat 32 u] bp' s)) ∧
    (Malformed s.stream s.run.bp.toNat →
      exec (.decSvar 1) s = .next (afterRaise .malformedFrame s.run.bp.toNat s) ∧
      exec (.decUvar 1) s = .next (afterRaise .malformedFrame s.run.bp.toNat s)) ∧
    (∀ pos, Truncated s.stream s.run.bp.toNat pos →
      exec (.decSvar 1) s = .next (afterRaise .endOfData pos s) ∧
      exec (.decUvar 1) s = .next (afterRaise .endOfData pos s))

/-- DEC.NEG14 (word 0x2201, ENC 2): minus the sign-extended low 14 bits of the spelled value, between -8191 and 8192;
bits above them do not matter; it raises as RDUVAR does (41 R124). -/
def Obligations.DecNeg14NegatesTheLow14Bits : Prop :=
  decode .command 0x2201 = .ok (.decNeg14 1) ∧ Enc.neg14.code = 2 ∧
  ∀ s : State, s.run.mode = .between →
    (∀ u bp', Spells s.stream s.run.bp.toNat u bp' →
      ∃ v : Word, exec (.decNeg14 1) s = .next (afterRead [v] bp' s) ∧ v.toInt = neg14Value u ∧
        -8191 ≤ v.toInt ∧ v.toInt ≤ 8192) ∧
    (Malformed s.stream s.run.bp.toNat →
      exec (.decNeg14 1) s = .next (afterRaise .malformedFrame s.run.bp.toNat s)) ∧
    (∀ pos, Truncated s.stream s.run.bp.toNat pos → exec (.decNeg14 1) s = .next (afterRaise .endOfData pos s))

/-- DEC.NULL (word 0x2601, ENC 6): the word 0 with no bit consumed and no rounding, at any BP and any BUFLEN, and it
never raises (41 R131). -/
def Obligations.DecNullConsumesNothing : Prop :=
  decode .command 0x2601 = .ok (.decNull 1) ∧ Enc.null.code = 6 ∧
  ∀ s : State, s.run.mode = .between → ∃ t, exec (.decNull 1) s = .next t ∧
    t = afterRead [0] s.run.bp.toNat s ∧ t.run.bp = s.run.bp ∧ t.run.w.get 0 = 0 ∧ t.run.wcnt = 1

/-- DEC.TAGVAR want (word 0x2300 + want, ENC 3): the tag byte, then for each slot whose tag bit is set one signed
variable-length integer, 0 for the others; all eight slots are consumed and the first `want` written. EndOfData at a
missing tag byte, and the exception of the first present slot that is malformed or cut off (41 R126, 30 R87). -/
def Obligations.DecTagvarReadsThePresentSlots : Prop :=
  ∀ (s : State) (want : BitVec 4) (t : Byte) (p : Nat → Nat) (v : Nat → Word), s.run.mode = .between →
    1 ≤ want.toNat → want.toNat ≤ 8 →
    let a := (s.run.bp.toNat + 7) / 8
    decode .command (0x2300 + want.setWidth 32) = .ok (.decTagvar want) ∧ Enc.tagvar.code = 3 ∧
    (s.cfg.buflen.toNat ≤ a → exec (.decTagvar want) s = .next (afterRaise .endOfData (8 * a) s)) ∧
    (BytesAt s.stream a [t] → p 0 = 8 * (a + 1) →
      ((∀ j < 8, VarSlot s.stream t j (p j) (v j) (p (j + 1))) →
        exec (.decTagvar want) s = .next (afterRead ((List.range want.toNat).map v) (p 8) s)) ∧
      (∀ j < 8, (∀ i < j, VarSlot s.stream t i (p i) (v i) (p (i + 1))) → t.getLsbD j = true →
        (Malformed s.stream (p j) →
          exec (.decTagvar want) s = .next (afterRaise .malformedFrame (p j) s)) ∧
        (∀ pos, Truncated s.stream (p j) pos →
          exec (.decTagvar want) s = .next (afterRaise .endOfData pos s))))

/-- DEC.TAG32 want (word 0x2400 + want, ENC 4): three fields of 0, 8, 16 or 32 bits by the width classes of the tag
byte, first bit most significant and sign-extended; t[7:6] does not matter (41 R128). -/
def Obligations.DecTag32ReadsItsThreeFields : Prop :=
  (∀ want : BitVec 4, 1 ≤ want.toNat → want.toNat ≤ 3 →
    decode .command (0x2400 + want.setWidth 32) = .ok (.decTag32 want)) ∧ Enc.tag32.code = 4 ∧
  TaggedGroup .decTag32 3 [0, 8, 16, 32]

/-- DEC.TAG16 want (word 0x2500 + want, ENC 5): four fields of 0, 4, 8 or 16 bits by the width classes of the tag byte,
with no padding between them or after them, sign-extended (41 R130). -/
def Obligations.DecTag16ReadsItsFourFields : Prop :=
  (∀ want : BitVec 4, 1 ≤ want.toNat → want.toNat ≤ 4 →
    decode .command (0x2500 + want.setWidth 32) = .ok (.decTag16 want)) ∧ Enc.tag16.code = 5 ∧
  TaggedGroup .decTag16 4 [0, 4, 8, 16]

/-- The contract of every DEC command: a `want` of 0 or above MAXCHUNK is illegal; any other gives the first `want`
words of the whole group, with the cursor after the whole group, or the exception the whole group raises, which changes
nothing but ERR and the error registers (41 R121). -/
def Obligations.WantOnlyTrimsTheGroup : Prop :=
  ∀ (s : State) (e : Enc) (want : BitVec 4), s.run.mode = .between →
    ((want.toNat = 0 ∨ e.maxChunk < want.toNat) → exec (decInstr e want) s = .next (afterIllegal s)) ∧
    (1 ≤ want.toNat → want.toNat ≤ e.maxChunk →
      (∃ ws bp', ws.length = e.maxChunk ∧
        exec (decInstr e (BitVec.ofNat 4 e.maxChunk)) s = .next (afterRead ws bp' s) ∧
        exec (decInstr e want) s = .next (afterRead (ws.take want.toNat) bp' s)) ∨
      (∃ x pos, (x = .endOfData ∨ x = .malformedFrame) ∧
        exec (decInstr e (BitVec.ofNat 4 e.maxChunk)) s = .next (afterRaise x pos s) ∧
        exec (decInstr e want) s = .next (afterRaise x pos s)))

/-! ## Predictors (42) -/

/-- PRED.ZERO (words 0x3000, 0x3080, PRED 0) gives PVAL = PA_RAW and PRED.FIFTEENHUNDRED (words 0x3800, 0x3880, PRED 8)
PA_RAW + 1500, whatever S is, with nothing else changed (42 R145, R153). -/
def Obligations.PredZeroAndFifteenhundred : Prop :=
  Pred.zero.code = 0 ∧ decode .command 0x3000 = .ok (.predZero false) ∧ decode .command 0x3080 = .ok (.predZero true) ∧
  Pred.fifteenhundred.code = 8 ∧ decode .command 0x3800 = .ok (.predFifteenhundred false) ∧
  decode .command 0x3880 = .ok (.predFifteenhundred true) ∧
  ∀ (s : State) (sg : Bool), s.run.mode = .between →
    exec (.predZero sg) s = .next (afterPred s.run.pa.raw s) ∧
    exec (.predFifteenhundred sg) s = .next (afterPred (s.run.pa.raw + 1500) s)

/-- PRED.PREVIOUS (words 0x3100, 0x3180, PRED 1): PA_RAW + PA_LAST, or PA_RAW with LAST_V = 0. PRED.INCREMENT (words
0x3600, 0x3680, PRED 6): PA_RAW + 1 + PA_SKIP + PA_LAST, or without the last with LAST_V = 0. All modulo 2^32, whatever S
is, with nothing else changed (42 R146, R151). -/
def Obligations.PredPreviousAndIncrement : Prop :=
  Pred.previous.code = 1 ∧ decode .command 0x3100 = .ok (.predPrevious false) ∧
  decode .command 0x3180 = .ok (.predPrevious true) ∧
  Pred.increment.code = 6 ∧ decode .command 0x3600 = .ok (.predIncrement false) ∧
  decode .command 0x3680 = .ok (.predIncrement true) ∧
  ∀ (s : State) (sg : Bool), s.run.mode = .between →
    let last : Nat := if s.run.pa.valid.getLsbD 0 then s.run.pa.last.toNat else 0
    exec (.predPrevious sg) s = .next (afterPred (BitVec.ofNat 32 (s.run.pa.raw.toNat + last)) s) ∧
    exec (.predIncrement sg) s =
      .next (afterPred (BitVec.ofNat 32 (s.run.pa.raw.toNat + (1 + s.run.pa.skip.toNat + last))) s)

/-- PRED.STRAIGHTLINE S (words 0x3200, 0x3280, PRED 2): with both operands, PA_RAW plus the word whose value under S is
exactly 2 * last - llast, or plus last where no word has that value; with the last alone, plus last; with no last, plus 0
whatever LLAST_V is (42 R147). -/
def Obligations.PredStraightlineExtrapolates : Prop :=
  Pred.straightline.code = 2 ∧ decode .command 0x3200 = .ok (.predStraightline false) ∧
  decode .command 0x3280 = .ok (.predStraightline true) ∧
  ∀ (s : State) (sg : Bool), s.run.mode = .between →
    (s.run.pa.valid.getLsbD 0 = false → exec (.predStraightline sg) s = .next (afterPred s.run.pa.raw s)) ∧
    (s.run.pa.valid.getLsbD 0 = true → s.run.pa.valid.getLsbD 1 = false →
      exec (.predStraightline sg) s = .next (afterPred (s.run.pa.raw + s.run.pa.last) s)) ∧
    (s.run.pa.valid.getLsbD 0 = true → s.run.pa.valid.getLsbD 1 = true →
      (∀ d : Word, val sg d = 2 * val sg s.run.pa.last - val sg s.run.pa.llast →
        exec (.predStraightline sg) s = .next (afterPred (s.run.pa.raw + d) s)) ∧
      ((∀ d : Word, val sg d ≠ 2 * val sg s.run.pa.last - val sg s.run.pa.llast) →
        exec (.predStraightline sg) s = .next (afterPred (s.run.pa.raw + s.run.pa.last) s)))

/-- PRED.AVERAGE2 S (words 0x3300, 0x3380, PRED 3): with both operands, PA_RAW plus the word whose value under S is the
exact sum halved toward zero, which always exists; with the last alone, plus last; with no last, plus 0 whatever LLAST_V
is (42 R148). -/
def Obligations.PredAverage2HalvesTheExactSum : Prop :=
  Pred.average2.code = 3 ∧ decode .command 0x3300 = .ok (.predAverage2 false) ∧
  decode .command 0x3380 = .ok (.predAverage2 true) ∧
  ∀ (s : State) (sg : Bool), s.run.mode = .between →
    (s.run.pa.valid.getLsbD 0 = false → exec (.predAverage2 sg) s = .next (afterPred s.run.pa.raw s)) ∧
    (s.run.pa.valid.getLsbD 0 = true → s.run.pa.valid.getLsbD 1 = false →
      exec (.predAverage2 sg) s = .next (afterPred (s.run.pa.raw + s.run.pa.last) s)) ∧
    (s.run.pa.valid.getLsbD 0 = true → s.run.pa.valid.getLsbD 1 = true →
      ∃ d : Word, val sg d = (val sg s.run.pa.last + val sg s.run.pa.llast).tdiv 2 ∧
        exec (.predAverage2 sg) s = .next (afterPred (s.run.pa.raw + d) s))

/-- The two width-dependent rules over every width W >= 1 (42 R143, R147, R148): STRAIGHTLINE gives the W-bit pattern of
the exact extrapolation or, where none has that value, its `last`; AVERAGE2 the pattern of the exact sum halved toward
zero; both give `last` where it alone is present, and 0 with no `last`, whatever the other operand is; and fits_W holds
of an integer exactly when some W-bit pattern has that value. -/
def Obligations.ExtrapolationAndMeanAtEveryWidth : Prop :=
  ∀ (w : Nat) (sg : Bool) (a b : BitVec w), 1 ≤ w →
    (∀ x : Int, fits w sg x = true ↔ ∃ d : BitVec w, val sg d = x) ∧
    (∀ d : BitVec w, val sg d = 2 * val sg a - val sg b → diffStraightline sg (some a) (some b) = d) ∧
    ((∀ d : BitVec w, val sg d ≠ 2 * val sg a - val sg b) → diffStraightline sg (some a) (some b) = a) ∧
    val sg (diffAverage2 sg (some a) (some b)) = (val sg a + val sg b).tdiv 2 ∧
    diffStraightline sg (some a) none = a ∧ diffAverage2 sg (some a) none = a ∧
    ∀ llast : Option (BitVec w), diffStraightline sg none llast = 0 ∧ diffAverage2 sg none llast = 0

/-- PRED.MINTHROTTLE (words 0x3400, 0x3480, PRED 4), PRED.VBATREF (0x3900, 0x3980, PRED 9) and PRED.MINMOTOR (0x3B00,
0x3B80, PRED 11): PA_RAW plus HDR_MINTHROTTLE, HDR_VBATREF, HDR_MOTOR_LO; with the valid bit 0, InvalidHeaderReference at
BP, fatal. S and the history operands do not matter (42 R149, R154, R156). -/
def Obligations.PredHeaderConstants : Prop :=
  Pred.minthrottle.code = 4 ∧ decode .command 0x3400 = .ok (.predMinthrottle false) ∧
  decode .command 0x3480 = .ok (.predMinthrottle true) ∧ Pred.vbatref.code = 9 ∧
  decode .command 0x3900 = .ok (.predVbatref false) ∧ decode .command 0x3980 = .ok (.predVbatref true) ∧
  Pred.minmotor.code = 11 ∧ decode .command 0x3B00 = .ok (.predMinmotor false) ∧
  decode .command 0x3B80 = .ok (.predMinmotor true) ∧
  ∀ (s : State) (sg : Bool), s.run.mode = .between →
    (s.cfg.hdr.valid.getLsbD 0 = true →
      exec (.predMinthrottle sg) s = .next (afterPred (s.run.pa.raw + s.cfg.hdr.minthrottle) s)) ∧
    (s.cfg.hdr.valid.getLsbD 0 = false → exec (.predMinthrottle sg) s = .next (afterFatal s)) ∧
    (s.cfg.hdr.valid.getLsbD 1 = true →
      exec (.predVbatref sg) s = .next (afterPred (s.run.pa.raw + s.cfg.hdr.vbatref) s)) ∧
    (s.cfg.hdr.valid.getLsbD 1 = false → exec (.predVbatref sg) s = .next (afterFatal s)) ∧
    (s.cfg.hdr.valid.getLsbD 2 = true →
      exec (.predMinmotor sg) s = .next (afterPred (s.run.pa.raw + s.cfg.hdr.motorLo) s)) ∧
    (s.cfg.hdr.valid.getLsbD 2 = false → exec (.predMinmotor sg) s = .next (afterFatal s))

/-- PRED.MOTOR0 (words 0x3500, 0x3580, PRED 5): PA_RAW + PA_M0, or with M0_V = 0 InvalidHeaderReference, fatal
(42 R150, R157). -/
def Obligations.PredMotor0NeedsItsOperand : Prop :=
  Pred.motor0.code = 5 ∧ decode .command 0x3500 = .ok (.predMotor0 false) ∧
  decode .command 0x3580 = .ok (.predMotor0 true) ∧
  ∀ (s : State) (sg : Bool), s.run.mode = .between →
    (s.run.pa.valid.getLsbD 2 = true →
      exec (.predMotor0 sg) s = .next (afterPred (s.run.pa.raw + s.run.pa.m0) s)) ∧
    (s.run.pa.valid.getLsbD 2 = false → exec (.predMotor0 sg) s = .next (afterFatal s))

/-- PRED.HOMELAT (words 0x3700, 0x3780, PRED 7) and PRED.LASTMAINFRAMETIME (0x3A00, 0x3A80, PRED 10), the stubs: PVAL =
PA_RAW, UNSUP set, DIAGCNT up by one, DIAGLAST the code, and ERR = 0 (42 R152, R155). -/
def Obligations.PredStubsReportAndGoOn : Prop :=
  Pred.homelat.code = 7 ∧ decode .command 0x3700 = .ok (.predHomelat false) ∧
  decode .command 0x3780 = .ok (.predHomelat true) ∧ Pred.lastmainframetime.code = 10 ∧
  decode .command 0x3A00 = .ok (.predLastmainframetime false) ∧
  decode .command 0x3A80 = .ok (.predLastmainframetime true) ∧
  ∀ (s : State) (sg : Bool), s.run.mode = .between →
    exec (.predHomelat sg) s = .next (afterPred s.run.pa.raw (afterDiagnostic 0x80000007 s)) ∧
    exec (.predLastmainframetime sg) s = .next (afterPred s.run.pa.raw (afterDiagnostic 0x8000000A s))

/-- The signedness changes the value of `predict` only for STRAIGHTLINE and AVERAGE2 and there only with both history
operands; and for those two it does change some value (42 R158). -/
def Obligations.SignedMattersOnlyWithTwoFrames : Prop :=
  (∀ (p : Pred) (h : HeaderRegs) (o : PredOperands) (b : Bool),
    (p ≠ .straightline ∧ p ≠ .average2) ∨ o.last = none ∨ o.llast = none →
    predict p h { o with signed := b } = predict p h o) ∧
  (∀ p : Pred, p = .straightline ∨ p = .average2 → ∃ (h : HeaderRegs) (o : PredOperands),
    predict p h { o with signed := true } ≠ predict p h { o with signed := false })

/-! ## FRAME and the field descriptors (43) -/

/-- FRAME k under the invariant, with its kind defined, completes with exactly what a reading of its frame definition
gives: the descriptors taken in runs, each run decoded whole by its encoding's decoder, each field predicted from the
history of its kind and the fields before it, then PLAUSIBLE, then the commit, or the abandonment of the first exception.
CF, which no one reads afterwards, is left open (43 R173 to R179). -/
def Obligations.FrameMeetsItsReading : Prop :=
  ∀ (s : State) (k : Kind), Inv s → s.run.mode = .between → s.cfg.nf.get k ≠ 0 →
    ∃ cf, exec (.frame k) s = .next { frameResult k s with run.cf := cf }

/-- FRAME k is the run of the single sequencer steps from the state it enters: one step for the encoding half of each
run's descriptor, one for the predictor half of each field, and one to finish, at most 2 * NF[k] + 1. (Single steps
inside FRAME are the model's grain, log 8; that FRAME is their whole run is 43 R175, R176.) -/
def Obligations.FrameIsTheRunOfItsSteps : Prop :=
  ∀ (s : State) (k : Kind), Inv s → s.run.mode = .between → s.cfg.nf.get k ≠ 0 →
    ∃ n, n ≤ 2 * (s.cfg.nf.get k).toNat + 1 ∧
      Host.Core.run Sys2Proof.core n (enterFrame k s) = exec (.frame k) s

/-- A FRAME that completes commits: history moves down one generation, the kind's count and the event output are
written, SKIP[k] is cleared, the byte range is recorded; other kinds, the configuration, W, WCNT, PVAL and the PA
registers stay (43 R178). -/
def Obligations.FrameCommitWritesHistoryAndEvent : Prop :=
  ∀ (s t : State) (k : Kind), StorageOk s → exec (.frame k) s = .next t → t.run.status.err = .none →
    (∀ i < (s.cfg.nf.get k).toNat, (t.run.hist.get k).ll.read i = (s.run.hist.get k).l.read i ∧
      (t.run.hist.get k).l.read i = t.run.cf.read i ∧ t.run.ev.val.read i = t.run.cf.read i) ∧
    (t.run.hist.get k).vl = true ∧ (t.run.hist.get k).vll = (s.run.hist.get k).vl ∧
    t.run.stats.nframes.get k = s.run.stats.nframes.get k + 1 ∧ t.run.skip.get k = 0 ∧
    t.run.stats.lastStart = BitVec.ofNat 32 (s.run.bp.toNat / 8) ∧
    t.run.stats.lastEnd = BitVec.ofNat 32 ((t.run.bp.toNat + 7) / 8) ∧
    t.run.ev.kind = k ∧ t.run.ev.nf = s.cfg.nf.get k ∧ t.run.ev.seq = s.run.ev.seq + 1 ∧
    t.run.status.evvalid = true ∧ t.run.status.anyframe = true ∧ t.run.mode = .between ∧
    (∀ k', k' ≠ k → t.run.hist.get k' = s.run.hist.get k' ∧
      t.run.stats.nframes.get k' = s.run.stats.nframes.get k' ∧ t.run.skip.get k' = s.run.skip.get k') ∧
    t.run.stats.ncorrupt = s.run.stats.ncorrupt ∧ t.run.w = s.run.w ∧ t.run.wcnt = s.run.wcnt ∧
    t.run.pval = s.run.pval ∧ t.run.pa = s.run.pa ∧ t.cfg = s.cfg ∧ t.buf = s.buf

/-- A FRAME that raises puts BP back and commits nothing: EndOfData and MalformedFrame count in NCORRUPT and SKIP[k] and
leave BETWEEN, InvalidHeaderReference counts nothing and leaves FATAL; ERRFI says INFRAME, the kind and a field index of
0 to NF[k]; history, counts, statistics, events, W, WCNT, PVAL, PA and the configuration stay (43 R179, 60 R207). -/
def Obligations.FrameAbandonRestoresTheCursor : Prop :=
  ∀ (s t : State) (k : Kind), s.run.mode = .between → s.cfg.nf.get k ≠ 0 → exec (.frame k) s = .next t →
    t.run.status.err ≠ .none →
    t.run.bp = s.run.bp ∧ t.run.hist = s.run.hist ∧ t.run.stats.nframes = s.run.stats.nframes ∧
    t.run.stats.lastStart = s.run.stats.lastStart ∧ t.run.stats.lastEnd = s.run.stats.lastEnd ∧
    t.run.ev = s.run.ev ∧ t.run.status.evvalid = s.run.status.evvalid ∧ t.run.status.anyframe = true ∧
    t.run.errFi.getLsbD 31 = true ∧ t.run.errFi.extractLsb' 16 2 = k.code ∧
    (t.run.errFi.extractLsb' 0 16).toNat ≤ (s.cfg.nf.get k).toNat ∧
    (((t.run.status.err = .endOfData ∨ t.run.status.err = .malformedFrame) ∧ t.run.mode = .between ∧
        t.run.stats.ncorrupt = s.run.stats.ncorrupt + 1 ∧
        t.run.skip = s.run.skip.set k (s.run.skip.get k + 1)) ∨
      (t.run.status.err = .invalidHeaderReference ∧ t.run.mode = .fatal ∧
        t.run.stats.ncorrupt = s.run.stats.ncorrupt ∧ t.run.skip = s.run.skip)) ∧
    t.run.w = s.run.w ∧ t.run.wcnt = s.run.wcnt ∧ t.run.pval = s.run.pval ∧ t.run.pa = s.run.pa ∧
    t.cfg = s.cfg ∧ t.buf = s.buf

/-- A frame all of whose fields are NULL, with predictors that cannot raise, consumes no bits and commits, at any BP and
any BUFLEN, under the default PLAUSIBLE (43 R173). -/
def Obligations.NullFrameConsumesNothingAndCommits : Prop :=
  ∀ (s : State) (k : Kind), s.run.mode = .between → s.cfg.nf.get k ≠ 0 → s.params.plausible = .alwaysTrue →
    (∀ i < (s.cfg.nf.get k).toNat, ∃ d : Descriptor, decodeDescriptor ((s.cfg.fd.get k).read i) = .ok d ∧
      d.enc = .null ∧ d.pred ≠ .minthrottle ∧ d.pred ≠ .motor0 ∧ d.pred ≠ .vbatref ∧ d.pred ≠ .minmotor) →
    ∃ t, exec (.frame k) s = .next t ∧ t.run.bp = s.run.bp ∧ t.run.status.err = .none ∧
      t.run.ev.seq = s.run.ev.seq + 1

/-- The run at a field index is the longest of one encoding within MAXCHUNK and the frame definition, and there is one
wherever a field is left whose encoding is legal; ten TAGVAR fields are a run of 8 and a run of 2, five TAG16 fields a
run of 4 and a run of 1 (43 R174). -/
def Obligations.RunsAreGreedy : Prop :=
  (∀ (e : Enc) (fd : Cells 8) (nf i : Nat), i < nf → (fd.read i).toNat / 16 % 8 = e.code.toNat →
    RunIs fd nf i e (runLength e fd nf i)) ∧
  (∀ (e : Enc) (fd : Cells 8) (nf i n m : Nat), RunIs fd nf i e n → RunIs fd nf i e m → n = m) ∧
  (∀ (fd : Cells 8), (∀ i < 10, (fd.read i).toNat / 16 % 8 = 3) →
    RunIs fd 10 0 .tagvar 8 ∧ RunIs fd 10 8 .tagvar 2) ∧
  (∀ (fd : Cells 8), (∀ i < 5, (fd.read i).toNat / 16 % 8 = 5) → RunIs fd 5 0 .tag16 4 ∧ RunIs fd 5 4 .tag16 1)

/-- The encoding half of a descriptor, executed inside FRAME at the head of its run: the decoder of its encoding is
called once for the whole run, and the raw words are kept for the field steps with nothing else changed but BP; an
exception abandons the frame at the run's first field. S and PRED play no part. This covers fdSvar, fdUvar, fdNeg14,
fdTagvar, fdTag32, fdTag16 and fdNull (43 R174, R175; that one run's decoding is a step of its own is the model's
choice, log 8). That decoder is the one the DEC commands wrap: it gives `want` words and a cursor exactly where DEC of
that encoding and that `want` completes with them, and it raises what DEC raises (41 R120, R121). -/
def Obligations.EncodingHalvesDecodeTheWholeRun : Prop :=
  (∀ (s : State) (e : Enc) (want : BitVec 4), s.run.mode = .between → 1 ≤ want.toNat → want.toNat ≤ e.maxChunk →
    (∀ ws bp', decoderOf e s.stream s.run.bp.toNat want.toNat = .ok ws bp' ↔
      (ws.length = want.toNat ∧ bp' < 2 ^ 35 ∧ exec (decInstr e want) s = .next (afterRead ws bp' s))) ∧
    (∀ x pos, decoderOf e s.stream s.run.bp.toNat want.toNat = .raised x pos →
      exec (decInstr e want) s = .next (afterRaise x.err pos s))) ∧
  ∀ (s : State) (sg : Bool) (e : Enc) (p : Pred) (n : Nat), s.run.mode = .inframe → s.frame.raw = [] →
    RunIs (s.cfg.fd.get s.frame.kind) (s.cfg.nf.get s.frame.kind).toNat s.frame.fi e n →
    let i := (Descriptor.mk sg e p).encInstr
    (∀ ws bp', decoderOf e s.stream s.run.bp.toNat n = .ok ws bp' →
      exec i s = .next { s with run.bp := BitVec.ofNat 35 bp', frame.raw := ws, frame.rj := 0 }) ∧
    (∀ x pos, decoderOf e s.stream s.run.bp.toNat n = .raised x pos →
      exec i s = .next (afterAbandon x pos s.frame.fi s))

/-- The encoding halves of one field on the stream itself: inside FRAME, at a run of one field, SVAR, UVAR and NEG14
take the value spelled at the cursor and NULL takes 0 and no bits (41 R122 to R124, R131; 43 R175; the single step is
the model's choice, log 8). -/
def Obligations.SingleFieldEncodingHalvesTakeTheSpelledValue : Prop :=
  ∀ (s : State) (sg : Bool) (p : Pred), s.run.mode = .inframe → s.frame.raw = [] →
    let run := fun e => RunIs (s.cfg.fd.get s.frame.kind) (s.cfg.nf.get s.frame.kind).toNat s.frame.fi e 1
    let after := fun (v : Word) (bp' : Nat) =>
      { s with run.bp := BitVec.ofNat 35 bp', frame.raw := [v], frame.rj := 0 }
    (∀ u bp', Spells s.stream s.run.bp.toNat u bp' →
      (run .svar → ∃ v, exec (.fdSvar sg p) s = .next (after v bp') ∧ v.toInt = zigzagValue u) ∧
      (run .uvar → exec (.fdUvar sg p) s = .next (after (BitVec.ofNat 32 u) bp')) ∧
      (run .neg14 → ∃ v, exec (.fdNeg14 sg p) s = .next (after v bp') ∧ v.toInt = neg14Value u)) ∧
    (run .null → exec (.fdNull sg p) s = .next (after 0 s.run.bp.toNat))

/-- The predictor half of a descriptor, executed inside FRAME for the field at hand: CF[i] gets the raw word plus the
`diff` of the predictor over the history of the kind, SKIP, the header constants and the fields before it; a stub
reports; FI moves past the run after its last field; an absent constant or motor-0 value is fatal with BP put back. This
covers the twelve instructions fdZero to fdMinmotor (43 R176; that one field is a step of its own is the model's choice,
log 8). -/
def Obligations.PredictorHalvesStepTheField : Prop :=
  ∀ (s : State) (d : Descriptor) (raw : Word), s.run.mode = .inframe → s.frame.raw[s.frame.rj]? = some raw →
    let i := s.frame.fi + s.frame.rj
    let t := if d.pred = .homelat then afterDiagnostic 0x80000007 s
      else if d.pred = .lastmainframetime then afterDiagnostic 0x8000000A s else s
    (∀ df, fieldDiff s d i = some df →
      exec d.predInstr s = .next { t with
        run.cf := s.run.cf.write i (raw + df)
        frame := if s.frame.rj + 1 < s.frame.raw.length then { s.frame with rj := s.frame.rj + 1 }
          else { s.frame with fi := s.frame.fi + s.frame.raw.length, raw := [], rj := 0 } }) ∧
    (fieldDiff s d i = none →
      exec d.predInstr s = .next (afterAbandon .invalidHeaderReference s.run.bp.toNat i s))

/-- A descriptor has an effect only inside FRAME: executed anywhere else either half of it is the fault notSequenced
(30 R80; the fault is the model's choice, log 10). -/
def Obligations.DescriptorsRunOnlyInsideFrame : Prop :=
  ∀ (s : State) (d : Descriptor), s.run.mode ≠ .inframe →
    exec d.encInstr s = .fault .notSequenced ∧ exec d.predInstr s = .fault .notSequenced

/-- FRAME reads of CF and of the history only what the spec gives a meaning: from two states that differ in the leftovers
of CF and in history entries that are not valid or not in use, it comes to two states that differ in no more. So the
reset contents the model chose for CF and HIST (logs 4, 5) reach no result (10 R33, R34, 70 R230). -/
def Obligations.FrameNeverReadsLeftovers : Prop :=
  ∀ (s t : State) (k : Kind) (cf : Cells 32) (h : PerKind History), Inv s → s.run.mode = .between →
    StorageOk { s with run.cf := cf, run.hist := h } → SamePast s.cfg.nf s.run.hist h →
    exec (.frame k) s = .next t →
    ∃ cf' h', exec (.frame k) { s with run.cf := cf, run.hist := h } =
        .next { t with run.cf := cf', run.hist := h' } ∧ SamePast t.cfg.nf t.run.hist h'

/-! ## The register port (10 R45, R46; 70 R246, R247) -/

/-- A register read changes no register. Every assigned number reads as the field that 10 R45 gives it, with zeros above a
narrow one, BP and ERRBP split in byte and bit, BYTES_CONSUMED (BP + 7) >> 3, FD[k][i] in CONFIG only. It reads 0 at a
number with no register, at CMD, and at FD outside CONFIG (10 R45, R46, at NFMAX = 256). -/
def Obligations.RegisterReadsChangeNothing : Prop :=
  ∀ (s : State) (r : RegNo),
    (∀ rest, s.run.mode ≠ .inframe → s.port = .read r :: rest →
      step s = .next { s with port := rest, rdata := portRead s r }) ∧
    (s.params.nfmax = 256 →
      (r.toNat = 0x0E ∨ r.toNat = 0x0F ∨ r.toNat = 0x26 ∨ r.toNat = 0x27 ∨ (0x29 ≤ r.toNat ∧ r.toNat < 0x30) ∨
        r.toNat = 0x3F ∨ (0x43 ≤ r.toNat ∧ r.toNat < 0x1000) ∨ (0x1400 ≤ r.toNat ∧ r.toNat < 0x2000) ∨
        0x2100 ≤ r.toNat ∨ (s.run.mode ≠ .config ∧ 0x1000 ≤ r.toNat ∧ r.toNat < 0x1400)) →
      portRead s r = 0) ∧
    (s.params.nfmax = 256 →
      (∀ p ∈ fixedRegisters s, portRead s p.1 = p.2) ∧
      ∀ k : Kind, (∀ p ∈ kindRegisters s k, portRead s (BitVec.ofNat 16 (p.1 + k.code.toNat)) = p.2) ∧
        ∀ i < 256,
          (s.run.mode = .config → portRead s (BitVec.ofNat 16 (0x1000 + 0x100 * k.code.toNat + i)) =
            ((s.cfg.fd.get k).read i).setWidth 32) ∧
          portRead s (BitVec.ofNat 16 (0x2000 + i)) = s.run.ev.val.read i)

/-- An accepted register write: ERR = 0, the field that 10 R45 gives the number is set and no other, the register reads
back what it holds of the value, every other register (STATUS apart) reads as before, and BUF, CF and the history stay
(10 R45, R46, at NFMAX = 256). -/
def Obligations.AcceptedWritesReadBack : Prop :=
  ∀ (s : State) (r : RegNo) (v : Word) (rest : List HostAction), s.params.nfmax = 256 → StorageOk s →
    s.port = .write r v :: rest → WriteAccepted r v s →
    ∃ t, step s = .next t ∧ t.run.status.err = .none ∧ WriteSets r v s t ∧
      t.run = { s.run with status.err := .none, skip := t.run.skip, pa := t.run.pa } ∧ t.rdata = s.rdata ∧
      portRead t r = storedValue r.toNat v ∧
      (∀ r' : RegNo, r' ≠ r → r' ≠ 1 → portRead t r' = portRead s r') ∧
      t.run.status = { s.run.status with err := .none } ∧ t.port = rest ∧ t.buf = s.buf ∧ t.run.cf = s.run.cf ∧
      t.run.hist = s.run.hist ∧ t.frame = s.frame ∧ t.params = s.params

/-- From START to the next reset no step changes the configuration, and a write to BUFLEN, an HDR register, NF, M0IDX or
FD is refused (70 R246). -/
def Obligations.ConfigurationIsLocked : Prop :=
  ∀ s : State, s.run.mode ≠ .config →
    (∀ t, step s = .next t → (s.run.mode = .inframe ∨ ¬ resetsNext s) → t.cfg = s.cfg) ∧
    (∀ r v rest, s.run.mode ≠ .inframe → s.params.nfmax = 256 → s.port = .write r v :: rest →
      ((0x8 ≤ r.toNat ∧ r.toNat ≤ 0xD) ∨ r.toNat = 0x4 ∨ (0x10 ≤ r.toNat ∧ r.toNat < 0x18) ∨
        (0x1000 ≤ r.toNat ∧ r.toNat < 0x1400)) →
      step s = .next (afterIllegal { s with port := rest }))

/-! ## The machine as a whole -/

/-- The transitions of MODE and their causes, and the values MODE reads as: CONFIG to BETWEEN by START, BETWEEN to EOS by
END, BETWEEN to FATAL by an InvalidHeaderReference, any mode to CONFIG by a reset, and no other; no command leaves the
machine INFRAME (10 R25). -/
def Obligations.ModeTransitions : Prop :=
  [Mode.config, .between, .inframe, .eos, .fatal].map (fun m => m.code.toNat) = [0, 1, 2, 3, 4] ∧
  ∀ s t : State, s.run.mode ≠ .inframe → step s = .next t →
    t.run.mode = s.run.mode ∨
    (s.run.mode = .config ∧ t.run.mode = .between ∧
      ∃ v rest, s.port = .write 0x0050 v :: rest ∧ decode .command v = .ok .start) ∨
    (s.run.mode = .between ∧ t.run.mode = .eos ∧
      ∃ v rest, s.port = .write 0x0050 v :: rest ∧ decode .command v = .ok .endStream) ∨
    (s.run.mode = .between ∧ t.run.mode = .fatal ∧ t.run.status.err = .invalidHeaderReference) ∨
    (t.run.mode = .config ∧ resetsNext s)

/-- No step writes BUF (20 R51). Nor does a step change SIGNED_SOURCE, PLAUSIBLE or NFMAX: that they stand in the state
and that no step changes them is the model's choice for the OPEN parameters of 00 R5 (logs 11, 12, 13). -/
def Obligations.BufferIsNeverWritten : Prop :=
  ∀ s t : State, step s = .next t → t.buf = s.buf ∧ t.params = s.params

/-- From START to the next reset BP never goes back, and a command that raises or is refused leaves it where it was
(20 R65). -/
def Obligations.CursorNeverGoesBack : Prop :=
  ∀ s t : State, Inv s → step s = .next t → ¬ resetsNext s →
    s.run.bp.toNat ≤ t.run.bp.toNat ∧ (t.run.status.err ≠ .none → t.run.bp = s.run.bp)

/-- STATUS.ERR describes the most recent write: a register read leaves it, and every write, to CMD too, sets it to its own
outcome, whatever it was before (the whole next state does not depend on it): to 0 for an accepted register write, to
IllegalCommand for a refused one and for a value that is no command; and a code other than 0 says that the command or
write did not complete (register numbers at NFMAX = 256). ERRFI and ERRBP change only where a command ends with the code
EndOfData, MalformedFrame, InvalidHeaderReference or IllegalDescriptor, or at a reset (60 R206). -/
def Obligations.ErrorRegistersKeepTheLastRaise : Prop :=
  ∀ s t : State, s.run.mode ≠ .inframe → step s = .next t →
    (∀ r rest, s.port = .read r :: rest → t.run.status = s.run.status ∧ t.run.errFi = s.run.errFi ∧
      t.run.errBp = s.run.errBp) ∧
    (∀ r v rest, s.port = .write r v :: rest →
      (∀ e, step { s with run.status.err := e } = .next t) ∧
      (r ≠ 0x0050 → s.params.nfmax = 256 →
        (WriteAccepted r v s → t.run.status.err = .none) ∧
        (¬ WriteAccepted r v s → t.run.status.err = .illegalCommand)) ∧
      (r = 0x0050 → (∀ i, decode .command v ≠ .ok i) → t.run.status.err = .illegalCommand) ∧
      (t.run.status.err ≠ .none → t.cfg = s.cfg ∧ t.run.bp = s.run.bp ∧ t.run.w = s.run.w ∧
        t.run.wcnt = s.run.wcnt ∧ t.run.pval = s.run.pval ∧ t.run.pa = s.run.pa ∧ t.run.hist = s.run.hist ∧
        t.run.stats.nframes = s.run.stats.nframes ∧ t.run.ev = s.run.ev)) ∧
    (¬ resetsNext s → (t.run.status.err = .none ∨ t.run.status.err = .illegalCommand) →
      t.run.errFi = s.run.errFi ∧ t.run.errBp = s.run.errBp)

/-- Only FRAME and a reset change the history, the frame buffer, NFRAMES, NCORRUPT, LASTFRAME_START, LASTFRAME_END, the
event registers, ANYFRAME and EVVALID; SKIP changes also by a write to it (10 R26, R33 to R38, R44). -/
def Obligations.OnlyFramesTouchHistoryAndStatistics : Prop :=
  ∀ s t : State, s.run.mode ≠ .inframe → step s = .next t → ¬ resetsNext s →
    (∀ v rest k, s.port = .write 0x0050 v :: rest → decode .command v ≠ .ok (.frame k)) →
    t.run.hist = s.run.hist ∧ t.run.cf = s.run.cf ∧ t.run.stats = s.run.stats ∧ t.run.ev = s.run.ev ∧
    t.run.status.anyframe = s.run.status.anyframe ∧ t.run.status.evvalid = s.run.status.evvalid ∧
    ((∀ r v rest, s.port = .write r v :: rest → ¬ (0x18 ≤ r.toNat ∧ r.toNat < 0x1C)) → t.run.skip = s.run.skip)

/-- Exceptions are precise at the grain of a command: whichever command ends with code 1, 2 or 4, BP, W, WCNT, PVAL, the
history, the counts of frames, the byte range and the events are as before it; ERRFI is 0 outside FRAME and has bit 31
inside; the mode is FATAL for code 4 and BETWEEN otherwise (60 R207, R212). -/
def Obligations.ExceptionsArePrecise : Prop :=
  ∀ (s t : State) (i : Instr), i.slot = .command → s.run.mode ≠ .inframe → exec i s = .next t →
    (t.run.status.err = .endOfData ∨ t.run.status.err = .malformedFrame ∨
      t.run.status.err = .invalidHeaderReference) →
    t.run.bp = s.run.bp ∧ t.run.w = s.run.w ∧ t.run.wcnt = s.run.wcnt ∧ t.run.pval = s.run.pval ∧
    t.run.hist = s.run.hist ∧ t.run.stats.nframes = s.run.stats.nframes ∧
    t.run.stats.lastStart = s.run.stats.lastStart ∧ t.run.stats.lastEnd = s.run.stats.lastEnd ∧
    t.run.ev = s.run.ev ∧ t.run.status.evvalid = s.run.status.evvalid ∧
    t.run.mode = (if t.run.status.err = .invalidHeaderReference then .fatal else .between) ∧
    ((∃ k, i = .frame k) → t.run.errFi.getLsbD 31 = true) ∧
    ((∀ k, i ≠ .frame k) → t.run.errFi = 0 ∧ t.run.stats = s.run.stats ∧ t.run.skip = s.run.skip ∧
      t.run.status.anyframe = s.run.status.anyframe)

/-- The invariant of a machine between commands holds after reset. (Of its clauses, the canonical form of FD, CF and
HIST rests on the reset contents of logs 3 to 5, and of BUF on logs 1 and 2.) -/
def Obligations.ResetHasTheInvariant : Prop := Inv State.reset

/-- Every step keeps the invariant: storage in canonical form, no command half done, 0 <= BP <= 8 * BUFLEN, NF within
NFMAX and every descriptor in use legal once START is passed, LL valid only with L, EV_SEQ the sum of the NFRAMES,
W[j] = 0 from WCNT on. -/
def Obligations.StepKeepsTheInvariant : Prop :=
  ∀ s t : State, Inv s → step s = .next t → Inv t

/-- Under the invariant every step has a next state: no fault, no refusal, whatever the host does and whatever the stream
holds (43 R180, 70 R251 "Every command terminates", 30 R83 "no illegal descriptor is ever fetched"). -/
def Obligations.EveryStepHasANextState : Prop := ∀ s : State, Inv s → ∃ t, step s = .next t

/-! ## STATUS (10 R26, 60 R200) -/

/-- STATUS reads ERR in bits 3:0, ANYFRAME in bit 4, UNSUP in bit 5, ALIGNED (BP is a multiple of 8) in bit 6, EVVALID in
bit 7 and 0 elsewhere; ERR reads 0 after a command or write that ends well and 1 EndOfData, 2 MalformedFrame, 4
InvalidHeaderReference, 5 IllegalCommand, 6 IllegalDescriptor, never another number. So an illegal command, a stream
exception and a fatal one read as 5, their own code and 4 (10 R26, 60 R200). -/
def Obligations.StatusReadsItsBits : Prop :=
  [ErrCode.none, .endOfData, .malformedFrame, .invalidHeaderReference, .illegalCommand, .illegalDescriptor].map
      (fun e => e.code.toNat) = [0, 1, 2, 4, 5, 6] ∧
  ∀ s : State,
    (portRead s 0x0001).extractLsb' 0 4 = s.run.status.err.code ∧
    (portRead s 0x0001).getLsbD 4 = s.run.status.anyframe ∧ (portRead s 0x0001).getLsbD 5 = s.run.status.unsup ∧
    (portRead s 0x0001).getLsbD 6 = decide (s.run.bp.toNat % 8 = 0) ∧
    (portRead s 0x0001).getLsbD 7 = s.run.status.evvalid ∧ (portRead s 0x0001).extractLsb' 8 24 = 0 ∧
    (portRead (afterIllegal s) 0x0001).extractLsb' 0 4 = 5 ∧
    (∀ pos, (portRead (afterRaise .endOfData pos s) 0x0001).extractLsb' 0 4 = 1 ∧
      (portRead (afterRaise .malformedFrame pos s) 0x0001).extractLsb' 0 4 = 2) ∧
    (portRead (afterFatal s) 0x0001).extractLsb' 0 4 = 4
end

