-- ==== Sys2Proof/Laws/Cells.lean ====
section
/-! SUPPORT. Indexed storage: read after write, and that every operation keeps the canonical form. -/

namespace Sys2Proof.Machine

variable {w : Nat}

@[simp] theorem Cells.read_nil (a : Nat) : Cells.read ([] : Cells w) a = 0 := rfl

theorem Cells.wfFrom_mono {lo lo' : Nat} {m : Cells w} (h : Cells.wfFrom lo m = true) (hl : lo' ≤ lo) :
    Cells.wfFrom lo' m = true := by
  cases m with
  | nil => rfl
  | cons e t =>
    simp only [Cells.wfFrom, Bool.and_eq_true, decide_eq_true_eq] at h ⊢
    exact ⟨⟨le_trans hl h.1.1, h.1.2⟩, h.2⟩

/-- Below its first number a canonical store holds nothing. -/
theorem Cells.read_below {lo a : Nat} {m : Cells w} (h : Cells.wfFrom lo m = true) (ha : a < lo) :
    Cells.read m a = 0 := by
  induction m generalizing lo with
  | nil => rfl
  | cons e t ih =>
    simp only [Cells.wfFrom, Bool.and_eq_true, decide_eq_true_eq] at h
    have hne : a ≠ e.1 := by omega
    simp only [Cells.read, if_neg hne]
    exact ih h.2 (by omega)

/-- Every write keeps the canonical form. -/
theorem Cells.wfFrom_write {lo a : Nat} {m : Cells w} (v : BitVec w) (h : Cells.wfFrom lo m = true) (ha : lo ≤ a) :
    Cells.wfFrom lo (Cells.write m a v) = true := by
  induction m generalizing lo with
  | nil =>
    simp only [Cells.write]
    split <;> simp_all [Cells.wfFrom]
  | cons e t ih =>
    obtain ⟨k, x⟩ := e
    simp only [Cells.wfFrom, Bool.and_eq_true, decide_eq_true_eq] at h
    obtain ⟨⟨hk, hx⟩, ht⟩ := h
    simp only [Cells.write]
    split
    · next hak =>
      split
      · simp only [Cells.wfFrom, Bool.and_eq_true, decide_eq_true_eq]
        exact ⟨⟨hk, hx⟩, ht⟩
      · next hv =>
        simp only [Cells.wfFrom, Bool.and_eq_true, decide_eq_true_eq]
        exact ⟨⟨ha, hv⟩, ⟨by omega, hx⟩, ht⟩
    · split
      · next hak =>
        split
        · exact Cells.wfFrom_mono ht (by omega)
        · next hv =>
          simp only [Cells.wfFrom, Bool.and_eq_true, decide_eq_true_eq]
          exact ⟨⟨ha, hv⟩, hak ▸ ht⟩
      · simp only [Cells.wfFrom, Bool.and_eq_true, decide_eq_true_eq]
        exact ⟨⟨hk, hx⟩, ih ht (by omega)⟩

theorem Memory.wf_nil : Memory.wf ([] : Cells w) = true := rfl

/-- BUF is in its canonical form after reset. -/
theorem State.reset_buf_wf : Memory.wf State.reset.buf = true := rfl

/-- Every write keeps the canonical form. -/
theorem Memory.wf_write {m : Cells w} (a : Nat) (v : BitVec w) (h : Memory.wf m = true) :
    Memory.wf (Cells.write m a v) = true := Cells.wfFrom_write v h (Nat.zero_le a)

/-- Every copy keeps the canonical form. -/
theorem Memory.wf_copy (src : Cells w) (n : Nat) {dst : Cells w} (h : Memory.wf dst = true) :
    Memory.wf (Cells.copy src n dst) = true := by
  induction n with
  | zero => exact h
  | succ n ih => exact Memory.wf_write n _ ih

theorem Cells.read_write_from {lo : Nat} {m : Cells w} (a b : Nat) (v : BitVec w) (h : Cells.wfFrom lo m = true) :
    Cells.read (Cells.write m a v) b = if b = a then v else Cells.read m b := by
  induction m generalizing lo with
  | nil =>
    simp only [Cells.write]
    split <;> simp_all [Cells.read]
  | cons e t ih =>
    obtain ⟨k, x⟩ := e
    simp only [Cells.wfFrom, Bool.and_eq_true, decide_eq_true_eq] at h
    simp only [Cells.write]
    by_cases hba : b = a
    · subst hba
      split
      · split
        · next hv =>
          have : Cells.read t b = 0 := Cells.read_below h.2 (by omega)
          simp_all [Cells.read]; omega
        · simp [Cells.read]
      · split
        · split
          · next hv =>
            have : Cells.read t b = 0 := Cells.read_below h.2 (by omega)
            simp_all
          · simp [Cells.read]
        · next hak => simp [Cells.read, hak, ih h.2]
    · simp only [hba, if_false]
      split
      · split <;> simp [Cells.read, hba]
      · split
        · next hak =>
          have hbk : b ≠ k := by omega
          split <;> simp [Cells.read, hba, hbk]
        · simp [Cells.read, ih h.2, hba]

/-- Reading after writing: the value at its number, every other number as before. -/
theorem Cells.read_write {m : Cells w} (h : Memory.wf m = true) (a b : Nat) (v : BitVec w) :
    Cells.read (Cells.write m a v) b = if b = a then v else Cells.read m b := Cells.read_write_from a b v h

theorem Cells.read_write_same {m : Cells w} (h : Memory.wf m = true) (a : Nat) (v : BitVec w) :
    Cells.read (Cells.write m a v) a = v := by simp [Cells.read_write h]

theorem Cells.read_write_other {m : Cells w} (h : Memory.wf m = true) {a b : Nat} (v : BitVec w) (hb : b ≠ a) :
    Cells.read (Cells.write m a v) b = Cells.read m b := by simp [Cells.read_write h, hb]

/-- A copy of n entries: below n the source, from n on the destination. -/
theorem Cells.read_copy {src dst : Cells w} (h : Memory.wf dst = true) (n b : Nat) :
    Cells.read (Cells.copy src n dst) b = if b < n then Cells.read src b else Cells.read dst b := by
  induction n with
  | zero => simp [Cells.copy]
  | succ n ih =>
    simp only [Cells.copy, Cells.read_write (Memory.wf_copy src n h), ih]
    by_cases hb : b = n
    · simp [hb]
    · by_cases hlt : b < n
      · simp [hb, hlt, Nat.lt_succ_of_lt hlt]
      · have : ¬ b < n + 1 := by omega
        simp [hb, hlt, this]

theorem Cells.read_ext_from {lo lo' : Nat} {m m' : Cells w} (h : Cells.wfFrom lo m = true)
    (h' : Cells.wfFrom lo' m' = true) (he : ∀ i, m.read i = m'.read i) : m = m' := by
  induction m generalizing m' lo lo' with
  | nil =>
    cases m' with
    | nil => rfl
    | cons e t =>
      simp only [Cells.wfFrom, Bool.and_eq_true, decide_eq_true_eq] at h'
      have := he e.1
      simp only [Cells.read, if_true] at this
      exact absurd this.symm h'.1.2
  | cons e t ih =>
    obtain ⟨k, x⟩ := e
    simp only [Cells.wfFrom, Bool.and_eq_true, decide_eq_true_eq] at h
    cases m' with
    | nil =>
      have := he k
      simp only [Cells.read, if_true] at this
      exact absurd this h.1.2
    | cons e' t' =>
      obtain ⟨k', x'⟩ := e'
      simp only [Cells.wfFrom, Bool.and_eq_true, decide_eq_true_eq] at h'
      have hk : k = k' := by
        rcases Nat.lt_trichotomy k k' with hlt | heq | hgt
        · have := he k
          simp only [Cells.read, if_true] at this
          rw [if_neg (by omega), Cells.read_below h'.2 (by omega)] at this
          exact absurd this h.1.2
        · exact heq
        · have := he k'
          simp only [Cells.read, if_true] at this
          rw [if_neg (by omega), Cells.read_below h.2 (by omega)] at this
          exact absurd this.symm h'.1.2
      subst hk
      have hx : x = x' := by have := he k; simpa [Cells.read] using this
      subst hx
      congr 1
      refine ih h.2 h'.2 fun i => ?_
      have := he i
      simp only [Cells.read] at this
      by_cases hik : i = k
      · subst hik; rw [Cells.read_below h.2 (by omega), Cells.read_below h'.2 (by omega)]
      · simpa [hik] using this

/-- Two stores in canonical form that read alike are equal. -/
theorem Cells.read_ext {m m' : Cells w} (h : Memory.wf m = true) (h' : Memory.wf m' = true)
    (he : ∀ i, m.read i = m'.read i) : m = m' := Cells.read_ext_from h h' he

end Sys2Proof.Machine
end

