-- ==== Sys2Proof/Laws/Reader.lean ====
section
/-! SUPPORT. What the Bit Reader functions and the decoders can do, said once for each: where the cursor is after a
value, and which exceptions there are. -/

namespace Sys2Proof.Machine

/-! ## Cursor arithmetic -/

theorem alignUp_ge (bp : Nat) : bp ≤ alignUp bp := by unfold alignUp; omega

theorem alignUp_lt (bp : Nat) : alignUp bp < bp + 8 := by unfold alignUp; omega

theorem alignUp_mod (bp : Nat) : alignUp bp % 8 = 0 := by unfold alignUp; omega

theorem alignUp_le {bp len : Nat} (h : bp ≤ 8 * len) : alignUp bp ≤ 8 * len := by unfold alignUp; omega

@[simp] theorem alignUp_bytes (a : Nat) : alignUp (8 * a) = 8 * a := by unfold alignUp; omega

theorem alignUp_of_mod {bp : Nat} (h : bp % 8 = 0) : alignUp bp = bp := by unfold alignUp; omega

/-! ## Bits of the stream -/

/-- The first bit read is the most significant bit of the result (20 R53). -/
theorem memRead_getLsbD (buf : Cells 8) (p n i : Nat) :
    (memRead buf p n).getLsbD i = (decide (i < n) && streamBit buf (p + (n - 1 - i))) := by
  induction n generalizing i with
  | zero => simp [memRead]
  | succ n ih =>
    simp only [memRead, BitVec.getLsbD_concat]
    cases i with
    | zero => simp
    | succ i =>
      simp only [Nat.add_sub_cancel, Nat.succ_ne_zero, if_false, ih]
      have e : n - (i + 1) = n - 1 - i := by omega
      simp [e]

/-- An aligned read of 8 bits is the byte (20 R53). -/
theorem memRead_byte (buf : Cells 8) (a : Nat) : memRead buf (8 * a) 8 = buf.read a := by
  apply BitVec.eq_of_getLsbD_eq
  intro i hi
  have e1 : (8 * a + (7 - i)) / 8 = a := by omega
  have e2 : 7 - (8 * a + (7 - i)) % 8 = i := by omega
  rw [memRead_getLsbD]
  simp only [streamBit, hi, decide_true, Bool.true_and, Nat.add_one_sub_one, e1, e2]

/-! ## Sequencing -/

@[simp] theorem Rd.andThen_ok {α β : Type} (v : α) (bp : Nat) (f : α → Nat → Rd β) : (Rd.ok v bp).andThen f = f v bp := rfl

@[simp] theorem Rd.andThen_raised {α β : Type} (x : Exc) (p : Nat) (f : α → Nat → Rd β) :
    (Rd.raised x p : Rd α).andThen f = .raised x p := rfl

theorem Rd.andThen_eq_ok {α β : Type} {r : Rd α} {f : α → Nat → Rd β} {v : β} {bp : Nat} (h : r.andThen f = .ok v bp) :
    ∃ a p, r = .ok a p ∧ f a p = .ok v bp := by
  cases r with
  | ok a p => exact ⟨a, p, rfl, h⟩
  | raised x p => exact absurd h (by simp)

theorem Rd.andThen_eq_raised {α β : Type} {r : Rd α} {f : α → Nat → Rd β} {x : Exc} {pos : Nat}
    (h : r.andThen f = .raised x pos) : r = .raised x pos ∨ ∃ a p, r = .ok a p ∧ f a p = .raised x pos := by
  cases r with
  | ok a p => exact .inr ⟨a, p, rfl, h⟩
  | raised y p => exact .inl (by simpa using h)

/-! ## What a read answers -/

/-- `r` moves the cursor forward within the buffer, or raises a stream exception. -/
def Rd.Forward {α : Type} (len bp : Nat) : Rd α → Prop
  | .ok _ bp' => bp ≤ bp' ∧ bp' ≤ 8 * len
  | .raised x _ => x = .endOfData ∨ x = .malformedFrame

theorem Rd.Forward.andThen {α β : Type} {len bp : Nat} {r : Rd α} {f : α → Nat → Rd β} (h : r.Forward len bp)
    (hf : ∀ v bp', r = .ok v bp' → bp ≤ bp' → bp' ≤ 8 * len → (f v bp').Forward len bp') :
    (r.andThen f).Forward len bp := by
  cases r with
  | raised x p => exact h
  | ok v p =>
    obtain ⟨h1, h2⟩ := h
    have := hf v p rfl h1 h2
    show (f v p).Forward len bp
    cases hr : f v p with
    | raised x q => rw [hr] at this; exact this
    | ok v' q => rw [hr] at this; exact ⟨le_trans h1 this.1, this.2⟩

theorem Rd.Forward.mono {α : Type} {len bp bp' : Nat} {r : Rd α} (h : r.Forward len bp') (hb : bp ≤ bp') :
    r.Forward len bp := by
  cases r with
  | raised x p => exact h
  | ok v p => exact ⟨le_trans hb h.1, h.2⟩

/-- All that `readField` can answer (20 R57). -/
theorem readField_cases (st : Stream) (bp n : Nat) :
    (bp + n ≤ 8 * st.len ∧ readField st bp n = .ok (memRead st.buf bp n) (bp + n)) ∨
      (8 * st.len < bp + n ∧ readField st bp n = .raised .endOfData bp) := by
  unfold readField
  split
  · exact .inr ⟨by omega, rfl⟩
  · exact .inl ⟨by omega, rfl⟩

theorem readField_forward (st : Stream) (bp n : Nat) : (readField st bp n).Forward st.len bp := by
  rcases readField_cases st bp n with ⟨h, e⟩ | ⟨_, e⟩
  · rw [e]; exact ⟨by omega, h⟩
  · rw [e]; exact .inl rfl

/-- All that the read of an aligned byte can answer. -/
theorem rdbyte_cases (st : Stream) (bp : Nat) :
    (alignUp bp + 8 ≤ 8 * st.len ∧ rdbyte st bp = .ok (st.buf.read (alignUp bp / 8)) (alignUp bp + 8)) ∨
      (8 * st.len < alignUp bp + 8 ∧ rdbyte st bp = .raised .endOfData (alignUp bp)) := by
  rcases readField_cases st (alignUp bp) 8 with ⟨h, e⟩ | ⟨h, e⟩
  · refine .inl ⟨h, ?_⟩
    have ha : alignUp bp = 8 * (alignUp bp / 8) := by have := alignUp_mod bp; omega
    have hm : memRead st.buf (alignUp bp) 8 = st.buf.read (alignUp bp / 8) := by
      rw [ha, memRead_byte, ← ha]
    rw [rdbyte, e, hm]
  · exact .inr ⟨h, e⟩

theorem rdbyte_forward (st : Stream) (bp : Nat) : (rdbyte st bp).Forward st.len bp :=
  (readField_forward st (alignUp bp) 8).mono (alignUp_ge bp)

/-- `rdabits(8)` is the aligned byte as a word. -/
theorem rdabits_byte (st : Stream) (bp : Nat) :
    rdabits st bp 8 = (rdbyte st bp).andThen fun b bp' => .ok (zext b) bp' := rfl

theorem rdbits_forward (st : Stream) (bp n : Nat) : (rdbits st bp n).Forward st.len bp :=
  (readField_forward st bp n).andThen fun _ _ _ _ h => ⟨le_refl _, h⟩

theorem rdabits_forward (st : Stream) (bp n : Nat) : (rdabits st bp n).Forward st.len bp :=
  (rdbits_forward st (alignUp bp) n).mono (alignUp_ge bp)

theorem rduvarFrom_forward (st : Stream) (entry left i bp : Nat) (r : Word) :
    (rduvarFrom st entry left i bp r).Forward st.len bp := by
  induction left generalizing i bp r with
  | zero => exact .inr rfl
  | succ left ih =>
    refine (rdbyte_forward st bp).andThen fun b bp' _ _ h => ?_
    split
    · exact .inr rfl
    · split
      · exact ih _ _ _
      · exact ⟨le_refl _, h⟩

theorem rduvar_forward (st : Stream) (bp : Nat) : (rduvar st bp).Forward st.len bp := rduvarFrom_forward ..

theorem rdsvar_forward (st : Stream) (bp : Nat) : (rdsvar st bp).Forward st.len bp :=
  (rduvar_forward st bp).andThen fun _ _ _ _ h => ⟨le_refl _, h⟩

/-! ## Decoders -/

theorem readSlots_forward {st : Stream} {slot : Nat → Nat → Rd Word}
    (hs : ∀ j bp, bp ≤ 8 * st.len → (slot j bp).Forward st.len bp) (js : List Nat) {bp : Nat} (hb : bp ≤ 8 * st.len) :
    (readSlots slot js bp).Forward st.len bp := by
  induction js generalizing bp with
  | nil => exact ⟨le_refl _, hb⟩
  | cons j js ih =>
    refine (hs j bp hb).andThen fun v bp' _ _ h => ?_
    exact (ih h).andThen fun _ _ _ _ h' => ⟨le_refl _, h'⟩

theorem readSlots_length {slot : Nat → Nat → Rd Word} {js : List Nat} {bp bp' : Nat} {vs : List Word}
    (h : readSlots slot js bp = .ok vs bp') : vs.length = js.length := by
  induction js generalizing bp bp' vs with
  | nil => simp only [readSlots, Rd.ok.injEq] at h; simp [← h.1]
  | cons j js ih =>
    obtain ⟨v, p, _, h⟩ := Rd.andThen_eq_ok h
    obtain ⟨us, q, hq, h⟩ := Rd.andThen_eq_ok h
    simp only [Rd.ok.injEq] at h
    simp [← h.1, ih hq]

theorem slotVar_forward (st : Stream) (t : Byte) (j bp : Nat) (hb : bp ≤ 8 * st.len) :
    (slotVar st t j bp).Forward st.len bp := by
  unfold slotVar
  split
  · exact rdsvar_forward st bp
  · exact ⟨le_refl _, hb⟩

theorem slotField_forward (st : Stream) (n bp : Nat) (hb : bp ≤ 8 * st.len) :
    (slotField st n bp).Forward st.len bp := by
  unfold slotField
  split
  · exact ⟨le_refl _, hb⟩
  · exact (readField_forward st bp n).andThen fun _ _ _ _ h => ⟨le_refl _, h⟩

theorem tagged_forward {st : Stream} {slot : Byte → Nat → Nat → Rd Word}
    (hs : ∀ t j bp, bp ≤ 8 * st.len → (slot t j bp).Forward st.len bp) (bp want : Nat) (js : List Nat) :
    (tagged st bp want js slot).Forward st.len bp :=
  (rdbyte_forward st bp).andThen fun t _ _ _ h =>
    (readSlots_forward (hs t) js h).andThen fun _ _ _ _ h' => ⟨le_refl _, h'⟩

theorem tagged_length {st : Stream} {slot : Byte → Nat → Nat → Rd Word} {bp want bp' : Nat} {js : List Nat}
    {ws : List Word} (h : tagged st bp want js slot = .ok ws bp') : ws.length = min want js.length := by
  obtain ⟨t, p, _, h⟩ := Rd.andThen_eq_ok h
  obtain ⟨vs, q, hq, h⟩ := Rd.andThen_eq_ok h
  simp only [Rd.ok.injEq] at h
  simp [← h.1, readSlots_length hq]

theorem oneWord_forward {r : Rd Word} {len bp : Nat} (h : r.Forward len bp) : (oneWord r).Forward len bp :=
  h.andThen fun _ _ _ _ h => ⟨le_refl _, h⟩

theorem oneWord_length {r : Rd Word} {bp : Nat} {ws : List Word} (h : oneWord r = .ok ws bp) : ws.length = 1 := by
  obtain ⟨v, p, _, h⟩ := Rd.andThen_eq_ok h
  simp only [Rd.ok.injEq] at h
  simp [← h.1]

/-- Every decoder moves the cursor forward within the buffer or raises a stream exception. -/
theorem decoderOf_forward (e : Enc) (st : Stream) (bp want : Nat) (hb : bp ≤ 8 * st.len) :
    (decoderOf e st bp want).Forward st.len bp := by
  cases e
  · exact oneWord_forward (rdsvar_forward st bp)
  · exact oneWord_forward (rduvar_forward st bp)
  · exact oneWord_forward ((rduvar_forward st bp).andThen fun _ _ _ _ h => ⟨le_refl _, h⟩)
  · exact tagged_forward (slotVar_forward st) bp want _
  · exact tagged_forward (fun t j p h => slotField_forward st _ p h) bp want _
  · exact tagged_forward (fun t j p h => slotField_forward st _ p h) bp want _
  · exact ⟨le_refl _, hb⟩

/-- Every decoder returns exactly `want` words (41 R121). -/
theorem decoderOf_length {e : Enc} {st : Stream} {bp want bp' : Nat} {ws : List Word} (h1 : 1 ≤ want)
    (h2 : want ≤ e.maxChunk) (h : decoderOf e st bp want = .ok ws bp') : ws.length = want := by
  cases e <;> simp only [Enc.maxChunk] at h2
  · rw [oneWord_length h]; omega
  · rw [oneWord_length h]; omega
  · rw [oneWord_length h]; omega
  · rw [tagged_length h]; simp; omega
  · rw [tagged_length h]; simp; omega
  · rw [tagged_length h]; simp; omega
  · simp only [decoderOf, decNull, Rd.ok.injEq] at h
    rw [← h.1]; simp; omega

end Sys2Proof.Machine
end

