-- ==== Sys2Proof/Laws/State.lean ====
section
/-! SUPPORT. One lemma per field per named update of the state, so that no proof unfolds a record update. -/

namespace Sys2Proof.Machine

/-! `complete` -/

@[simp] theorem complete_params (s : State) : (complete s).params = s.params := rfl
@[simp] theorem complete_buf (s : State) : (complete s).buf = s.buf := rfl
@[simp] theorem complete_port (s : State) : (complete s).port = s.port := rfl
@[simp] theorem complete_rdata (s : State) : (complete s).rdata = s.rdata := rfl
@[simp] theorem complete_cfg (s : State) : (complete s).cfg = s.cfg := rfl
@[simp] theorem complete_frame (s : State) : (complete s).frame = s.frame := rfl
@[simp] theorem complete_run_mode (s : State) : (complete s).run.mode = s.run.mode := rfl
@[simp] theorem complete_run_bp (s : State) : (complete s).run.bp = s.run.bp := rfl
@[simp] theorem complete_run_errFi (s : State) : (complete s).run.errFi = s.run.errFi := rfl
@[simp] theorem complete_run_errBp (s : State) : (complete s).run.errBp = s.run.errBp := rfl
@[simp] theorem complete_run_w (s : State) : (complete s).run.w = s.run.w := rfl
@[simp] theorem complete_run_wcnt (s : State) : (complete s).run.wcnt = s.run.wcnt := rfl
@[simp] theorem complete_run_pval (s : State) : (complete s).run.pval = s.run.pval := rfl
@[simp] theorem complete_run_pa (s : State) : (complete s).run.pa = s.run.pa := rfl
@[simp] theorem complete_run_skip (s : State) : (complete s).run.skip = s.run.skip := rfl
@[simp] theorem complete_run_stats (s : State) : (complete s).run.stats = s.run.stats := rfl
@[simp] theorem complete_run_diag (s : State) : (complete s).run.diag = s.run.diag := rfl
@[simp] theorem complete_run_ev (s : State) : (complete s).run.ev = s.run.ev := rfl
@[simp] theorem complete_run_cf (s : State) : (complete s).run.cf = s.run.cf := rfl
@[simp] theorem complete_run_hist (s : State) : (complete s).run.hist = s.run.hist := rfl
@[simp] theorem complete_run_status_err (s : State) : (complete s).run.status.err = .none := rfl
@[simp] theorem complete_run_status_anyframe (s : State) : (complete s).run.status.anyframe = s.run.status.anyframe := rfl
@[simp] theorem complete_run_status_unsup (s : State) : (complete s).run.status.unsup = s.run.status.unsup := rfl
@[simp] theorem complete_run_status_evvalid (s : State) : (complete s).run.status.evvalid = s.run.status.evvalid := rfl

/-! `illegalCommand` -/

@[simp] theorem illegalCommand_params (s : State) : (illegalCommand s).params = s.params := rfl
@[simp] theorem illegalCommand_buf (s : State) : (illegalCommand s).buf = s.buf := rfl
@[simp] theorem illegalCommand_port (s : State) : (illegalCommand s).port = s.port := rfl
@[simp] theorem illegalCommand_rdata (s : State) : (illegalCommand s).rdata = s.rdata := rfl
@[simp] theorem illegalCommand_cfg (s : State) : (illegalCommand s).cfg = s.cfg := rfl
@[simp] theorem illegalCommand_frame (s : State) : (illegalCommand s).frame = s.frame := rfl
@[simp] theorem illegalCommand_run_mode (s : State) : (illegalCommand s).run.mode = s.run.mode := rfl
@[simp] theorem illegalCommand_run_bp (s : State) : (illegalCommand s).run.bp = s.run.bp := rfl
@[simp] theorem illegalCommand_run_errFi (s : State) : (illegalCommand s).run.errFi = s.run.errFi := rfl
@[simp] theorem illegalCommand_run_errBp (s : State) : (illegalCommand s).run.errBp = s.run.errBp := rfl
@[simp] theorem illegalCommand_run_w (s : State) : (illegalCommand s).run.w = s.run.w := rfl
@[simp] theorem illegalCommand_run_wcnt (s : State) : (illegalCommand s).run.wcnt = s.run.wcnt := rfl
@[simp] theorem illegalCommand_run_pval (s : State) : (illegalCommand s).run.pval = s.run.pval := rfl
@[simp] theorem illegalCommand_run_pa (s : State) : (illegalCommand s).run.pa = s.run.pa := rfl
@[simp] theorem illegalCommand_run_skip (s : State) : (illegalCommand s).run.skip = s.run.skip := rfl
@[simp] theorem illegalCommand_run_stats (s : State) : (illegalCommand s).run.stats = s.run.stats := rfl
@[simp] theorem illegalCommand_run_diag (s : State) : (illegalCommand s).run.diag = s.run.diag := rfl
@[simp] theorem illegalCommand_run_ev (s : State) : (illegalCommand s).run.ev = s.run.ev := rfl
@[simp] theorem illegalCommand_run_cf (s : State) : (illegalCommand s).run.cf = s.run.cf := rfl
@[simp] theorem illegalCommand_run_hist (s : State) : (illegalCommand s).run.hist = s.run.hist := rfl
@[simp] theorem illegalCommand_run_status_err (s : State) : (illegalCommand s).run.status.err = .illegalCommand := rfl
@[simp] theorem illegalCommand_run_status_anyframe (s : State) : (illegalCommand s).run.status.anyframe = s.run.status.anyframe := rfl
@[simp] theorem illegalCommand_run_status_unsup (s : State) : (illegalCommand s).run.status.unsup = s.run.status.unsup := rfl
@[simp] theorem illegalCommand_run_status_evvalid (s : State) : (illegalCommand s).run.status.evvalid = s.run.status.evvalid := rfl

/-! `illegalDescriptor` -/

@[simp] theorem illegalDescriptor_params (k : Kind) (i : Nat) (s : State) : (illegalDescriptor k i s).params = s.params := rfl
@[simp] theorem illegalDescriptor_buf (k : Kind) (i : Nat) (s : State) : (illegalDescriptor k i s).buf = s.buf := rfl
@[simp] theorem illegalDescriptor_port (k : Kind) (i : Nat) (s : State) : (illegalDescriptor k i s).port = s.port := rfl
@[simp] theorem illegalDescriptor_rdata (k : Kind) (i : Nat) (s : State) : (illegalDescriptor k i s).rdata = s.rdata := rfl
@[simp] theorem illegalDescriptor_cfg (k : Kind) (i : Nat) (s : State) : (illegalDescriptor k i s).cfg = s.cfg := rfl
@[simp] theorem illegalDescriptor_frame (k : Kind) (i : Nat) (s : State) : (illegalDescriptor k i s).frame = s.frame := rfl
@[simp] theorem illegalDescriptor_run_mode (k : Kind) (i : Nat) (s : State) : (illegalDescriptor k i s).run.mode = s.run.mode := rfl
@[simp] theorem illegalDescriptor_run_bp (k : Kind) (i : Nat) (s : State) : (illegalDescriptor k i s).run.bp = s.run.bp := rfl
@[simp] theorem illegalDescriptor_run_errFi (k : Kind) (i : Nat) (s : State) : (illegalDescriptor k i s).run.errFi = errFiWord false k i := rfl
@[simp] theorem illegalDescriptor_run_errBp (k : Kind) (i : Nat) (s : State) : (illegalDescriptor k i s).run.errBp = s.run.bp := rfl
@[simp] theorem illegalDescriptor_run_w (k : Kind) (i : Nat) (s : State) : (illegalDescriptor k i s).run.w = s.run.w := rfl
@[simp] theorem illegalDescriptor_run_wcnt (k : Kind) (i : Nat) (s : State) : (illegalDescriptor k i s).run.wcnt = s.run.wcnt := rfl
@[simp] theorem illegalDescriptor_run_pval (k : Kind) (i : Nat) (s : State) : (illegalDescriptor k i s).run.pval = s.run.pval := rfl
@[simp] theorem illegalDescriptor_run_pa (k : Kind) (i : Nat) (s : State) : (illegalDescriptor k i s).run.pa = s.run.pa := rfl
@[simp] theorem illegalDescriptor_run_skip (k : Kind) (i : Nat) (s : State) : (illegalDescriptor k i s).run.skip = s.run.skip := rfl
@[simp] theorem illegalDescriptor_run_stats (k : Kind) (i : Nat) (s : State) : (illegalDescriptor k i s).run.stats = s.run.stats := rfl
@[simp] theorem illegalDescriptor_run_diag (k : Kind) (i : Nat) (s : State) : (illegalDescriptor k i s).run.diag = s.run.diag := rfl
@[simp] theorem illegalDescriptor_run_ev (k : Kind) (i : Nat) (s : State) : (illegalDescriptor k i s).run.ev = s.run.ev := rfl
@[simp] theorem illegalDescriptor_run_cf (k : Kind) (i : Nat) (s : State) : (illegalDescriptor k i s).run.cf = s.run.cf := rfl
@[simp] theorem illegalDescriptor_run_hist (k : Kind) (i : Nat) (s : State) : (illegalDescriptor k i s).run.hist = s.run.hist := rfl
@[simp] theorem illegalDescriptor_run_status_err (k : Kind) (i : Nat) (s : State) : (illegalDescriptor k i s).run.status.err = .illegalDescriptor := rfl
@[simp] theorem illegalDescriptor_run_status_anyframe (k : Kind) (i : Nat) (s : State) : (illegalDescriptor k i s).run.status.anyframe = s.run.status.anyframe := rfl
@[simp] theorem illegalDescriptor_run_status_unsup (k : Kind) (i : Nat) (s : State) : (illegalDescriptor k i s).run.status.unsup = s.run.status.unsup := rfl
@[simp] theorem illegalDescriptor_run_status_evvalid (k : Kind) (i : Nat) (s : State) : (illegalDescriptor k i s).run.status.evvalid = s.run.status.evvalid := rfl

/-! `setBp` -/

@[simp] theorem setBp_params (bp : Nat) (s : State) : (setBp bp s).params = s.params := rfl
@[simp] theorem setBp_buf (bp : Nat) (s : State) : (setBp bp s).buf = s.buf := rfl
@[simp] theorem setBp_port (bp : Nat) (s : State) : (setBp bp s).port = s.port := rfl
@[simp] theorem setBp_rdata (bp : Nat) (s : State) : (setBp bp s).rdata = s.rdata := rfl
@[simp] theorem setBp_cfg (bp : Nat) (s : State) : (setBp bp s).cfg = s.cfg := rfl
@[simp] theorem setBp_frame (bp : Nat) (s : State) : (setBp bp s).frame = s.frame := rfl
@[simp] theorem setBp_run_mode (bp : Nat) (s : State) : (setBp bp s).run.mode = s.run.mode := rfl
@[simp] theorem setBp_run_bp (bp : Nat) (s : State) : (setBp bp s).run.bp = BitVec.ofNat 35 bp := rfl
@[simp] theorem setBp_run_errFi (bp : Nat) (s : State) : (setBp bp s).run.errFi = s.run.errFi := rfl
@[simp] theorem setBp_run_errBp (bp : Nat) (s : State) : (setBp bp s).run.errBp = s.run.errBp := rfl
@[simp] theorem setBp_run_w (bp : Nat) (s : State) : (setBp bp s).run.w = s.run.w := rfl
@[simp] theorem setBp_run_wcnt (bp : Nat) (s : State) : (setBp bp s).run.wcnt = s.run.wcnt := rfl
@[simp] theorem setBp_run_pval (bp : Nat) (s : State) : (setBp bp s).run.pval = s.run.pval := rfl
@[simp] theorem setBp_run_pa (bp : Nat) (s : State) : (setBp bp s).run.pa = s.run.pa := rfl
@[simp] theorem setBp_run_skip (bp : Nat) (s : State) : (setBp bp s).run.skip = s.run.skip := rfl
@[simp] theorem setBp_run_stats (bp : Nat) (s : State) : (setBp bp s).run.stats = s.run.stats := rfl
@[simp] theorem setBp_run_diag (bp : Nat) (s : State) : (setBp bp s).run.diag = s.run.diag := rfl
@[simp] theorem setBp_run_ev (bp : Nat) (s : State) : (setBp bp s).run.ev = s.run.ev := rfl
@[simp] theorem setBp_run_cf (bp : Nat) (s : State) : (setBp bp s).run.cf = s.run.cf := rfl
@[simp] theorem setBp_run_hist (bp : Nat) (s : State) : (setBp bp s).run.hist = s.run.hist := rfl
@[simp] theorem setBp_run_status_err (bp : Nat) (s : State) : (setBp bp s).run.status.err = s.run.status.err := rfl
@[simp] theorem setBp_run_status_anyframe (bp : Nat) (s : State) : (setBp bp s).run.status.anyframe = s.run.status.anyframe := rfl
@[simp] theorem setBp_run_status_unsup (bp : Nat) (s : State) : (setBp bp s).run.status.unsup = s.run.status.unsup := rfl
@[simp] theorem setBp_run_status_evvalid (bp : Nat) (s : State) : (setBp bp s).run.status.evvalid = s.run.status.evvalid := rfl

/-! `writeWords` -/

@[simp] theorem writeWords_params (ws : List Word) (s : State) : (writeWords ws s).params = s.params := rfl
@[simp] theorem writeWords_buf (ws : List Word) (s : State) : (writeWords ws s).buf = s.buf := rfl
@[simp] theorem writeWords_port (ws : List Word) (s : State) : (writeWords ws s).port = s.port := rfl
@[simp] theorem writeWords_rdata (ws : List Word) (s : State) : (writeWords ws s).rdata = s.rdata := rfl
@[simp] theorem writeWords_cfg (ws : List Word) (s : State) : (writeWords ws s).cfg = s.cfg := rfl
@[simp] theorem writeWords_frame (ws : List Word) (s : State) : (writeWords ws s).frame = s.frame := rfl
@[simp] theorem writeWords_run_mode (ws : List Word) (s : State) : (writeWords ws s).run.mode = s.run.mode := rfl
@[simp] theorem writeWords_run_bp (ws : List Word) (s : State) : (writeWords ws s).run.bp = s.run.bp := rfl
@[simp] theorem writeWords_run_errFi (ws : List Word) (s : State) : (writeWords ws s).run.errFi = s.run.errFi := rfl
@[simp] theorem writeWords_run_errBp (ws : List Word) (s : State) : (writeWords ws s).run.errBp = s.run.errBp := rfl
@[simp] theorem writeWords_run_wcnt (ws : List Word) (s : State) : (writeWords ws s).run.wcnt = BitVec.ofNat 4 ws.length := rfl
@[simp] theorem writeWords_run_pval (ws : List Word) (s : State) : (writeWords ws s).run.pval = s.run.pval := rfl
@[simp] theorem writeWords_run_pa (ws : List Word) (s : State) : (writeWords ws s).run.pa = s.run.pa := rfl
@[simp] theorem writeWords_run_skip (ws : List Word) (s : State) : (writeWords ws s).run.skip = s.run.skip := rfl
@[simp] theorem writeWords_run_stats (ws : List Word) (s : State) : (writeWords ws s).run.stats = s.run.stats := rfl
@[simp] theorem writeWords_run_diag (ws : List Word) (s : State) : (writeWords ws s).run.diag = s.run.diag := rfl
@[simp] theorem writeWords_run_ev (ws : List Word) (s : State) : (writeWords ws s).run.ev = s.run.ev := rfl
@[simp] theorem writeWords_run_cf (ws : List Word) (s : State) : (writeWords ws s).run.cf = s.run.cf := rfl
@[simp] theorem writeWords_run_hist (ws : List Word) (s : State) : (writeWords ws s).run.hist = s.run.hist := rfl
@[simp] theorem writeWords_run_status_err (ws : List Word) (s : State) : (writeWords ws s).run.status.err = s.run.status.err := rfl
@[simp] theorem writeWords_run_status_anyframe (ws : List Word) (s : State) : (writeWords ws s).run.status.anyframe = s.run.status.anyframe := rfl
@[simp] theorem writeWords_run_status_unsup (ws : List Word) (s : State) : (writeWords ws s).run.status.unsup = s.run.status.unsup := rfl
@[simp] theorem writeWords_run_status_evvalid (ws : List Word) (s : State) : (writeWords ws s).run.status.evvalid = s.run.status.evvalid := rfl

/-! `diagnostic` -/

@[simp] theorem diagnostic_params (p : Pred) (s : State) : (diagnostic p s).params = s.params := rfl
@[simp] theorem diagnostic_buf (p : Pred) (s : State) : (diagnostic p s).buf = s.buf := rfl
@[simp] theorem diagnostic_port (p : Pred) (s : State) : (diagnostic p s).port = s.port := rfl
@[simp] theorem diagnostic_rdata (p : Pred) (s : State) : (diagnostic p s).rdata = s.rdata := rfl
@[simp] theorem diagnostic_cfg (p : Pred) (s : State) : (diagnostic p s).cfg = s.cfg := rfl
@[simp] theorem diagnostic_frame (p : Pred) (s : State) : (diagnostic p s).frame = s.frame := rfl
@[simp] theorem diagnostic_run_mode (p : Pred) (s : State) : (diagnostic p s).run.mode = s.run.mode := rfl
@[simp] theorem diagnostic_run_bp (p : Pred) (s : State) : (diagnostic p s).run.bp = s.run.bp := rfl
@[simp] theorem diagnostic_run_errFi (p : Pred) (s : State) : (diagnostic p s).run.errFi = s.run.errFi := rfl
@[simp] theorem diagnostic_run_errBp (p : Pred) (s : State) : (diagnostic p s).run.errBp = s.run.errBp := rfl
@[simp] theorem diagnostic_run_w (p : Pred) (s : State) : (diagnostic p s).run.w = s.run.w := rfl
@[simp] theorem diagnostic_run_wcnt (p : Pred) (s : State) : (diagnostic p s).run.wcnt = s.run.wcnt := rfl
@[simp] theorem diagnostic_run_pval (p : Pred) (s : State) : (diagnostic p s).run.pval = s.run.pval := rfl
@[simp] theorem diagnostic_run_pa (p : Pred) (s : State) : (diagnostic p s).run.pa = s.run.pa := rfl
@[simp] theorem diagnostic_run_skip (p : Pred) (s : State) : (diagnostic p s).run.skip = s.run.skip := rfl
@[simp] theorem diagnostic_run_stats (p : Pred) (s : State) : (diagnostic p s).run.stats = s.run.stats := rfl
@[simp] theorem diagnostic_run_ev (p : Pred) (s : State) : (diagnostic p s).run.ev = s.run.ev := rfl
@[simp] theorem diagnostic_run_cf (p : Pred) (s : State) : (diagnostic p s).run.cf = s.run.cf := rfl
@[simp] theorem diagnostic_run_hist (p : Pred) (s : State) : (diagnostic p s).run.hist = s.run.hist := rfl
@[simp] theorem diagnostic_run_status_err (p : Pred) (s : State) : (diagnostic p s).run.status.err = s.run.status.err := rfl
@[simp] theorem diagnostic_run_status_anyframe (p : Pred) (s : State) : (diagnostic p s).run.status.anyframe = s.run.status.anyframe := rfl
@[simp] theorem diagnostic_run_status_unsup (p : Pred) (s : State) : (diagnostic p s).run.status.unsup = true := rfl
@[simp] theorem diagnostic_run_status_evvalid (p : Pred) (s : State) : (diagnostic p s).run.status.evvalid = s.run.status.evvalid := rfl

/-! `countFailed` -/

@[simp] theorem countFailed_params (s : State) : (countFailed s).params = s.params := rfl
@[simp] theorem countFailed_buf (s : State) : (countFailed s).buf = s.buf := rfl
@[simp] theorem countFailed_port (s : State) : (countFailed s).port = s.port := rfl
@[simp] theorem countFailed_rdata (s : State) : (countFailed s).rdata = s.rdata := rfl
@[simp] theorem countFailed_cfg (s : State) : (countFailed s).cfg = s.cfg := rfl
@[simp] theorem countFailed_frame (s : State) : (countFailed s).frame = s.frame := rfl
@[simp] theorem countFailed_run_mode (s : State) : (countFailed s).run.mode = s.run.mode := rfl
@[simp] theorem countFailed_run_bp (s : State) : (countFailed s).run.bp = s.run.bp := rfl
@[simp] theorem countFailed_run_errFi (s : State) : (countFailed s).run.errFi = s.run.errFi := rfl
@[simp] theorem countFailed_run_errBp (s : State) : (countFailed s).run.errBp = s.run.errBp := rfl
@[simp] theorem countFailed_run_w (s : State) : (countFailed s).run.w = s.run.w := rfl
@[simp] theorem countFailed_run_wcnt (s : State) : (countFailed s).run.wcnt = s.run.wcnt := rfl
@[simp] theorem countFailed_run_pval (s : State) : (countFailed s).run.pval = s.run.pval := rfl
@[simp] theorem countFailed_run_pa (s : State) : (countFailed s).run.pa = s.run.pa := rfl
@[simp] theorem countFailed_run_skip (s : State) : (countFailed s).run.skip = s.run.skip.set s.frame.kind (s.run.skip.get s.frame.kind + 1) := rfl
@[simp] theorem countFailed_run_diag (s : State) : (countFailed s).run.diag = s.run.diag := rfl
@[simp] theorem countFailed_run_ev (s : State) : (countFailed s).run.ev = s.run.ev := rfl
@[simp] theorem countFailed_run_cf (s : State) : (countFailed s).run.cf = s.run.cf := rfl
@[simp] theorem countFailed_run_hist (s : State) : (countFailed s).run.hist = s.run.hist := rfl
@[simp] theorem countFailed_run_status_err (s : State) : (countFailed s).run.status.err = s.run.status.err := rfl
@[simp] theorem countFailed_run_status_anyframe (s : State) : (countFailed s).run.status.anyframe = s.run.status.anyframe := rfl
@[simp] theorem countFailed_run_status_unsup (s : State) : (countFailed s).run.status.unsup = s.run.status.unsup := rfl
@[simp] theorem countFailed_run_status_evvalid (s : State) : (countFailed s).run.status.evvalid = s.run.status.evvalid := rfl

/-! `resetMachine` -/

@[simp] theorem resetMachine_params (s : State) : (resetMachine s).params = s.params := rfl
@[simp] theorem resetMachine_buf (s : State) : (resetMachine s).buf = s.buf := rfl
@[simp] theorem resetMachine_port (s : State) : (resetMachine s).port = s.port := rfl
@[simp] theorem resetMachine_rdata (s : State) : (resetMachine s).rdata = s.rdata := rfl
@[simp] theorem resetMachine_cfg (s : State) : (resetMachine s).cfg = Configuration.reset := rfl
@[simp] theorem resetMachine_frame (s : State) : (resetMachine s).frame = FrameState.idle := rfl
@[simp] theorem resetMachine_run (s : State) : (resetMachine s).run = RunState.reset := rfl

/-! `enterFrame` -/

@[simp] theorem enterFrame_params (k : Kind) (s : State) : (enterFrame k s).params = s.params := rfl
@[simp] theorem enterFrame_buf (k : Kind) (s : State) : (enterFrame k s).buf = s.buf := rfl
@[simp] theorem enterFrame_port (k : Kind) (s : State) : (enterFrame k s).port = s.port := rfl
@[simp] theorem enterFrame_rdata (k : Kind) (s : State) : (enterFrame k s).rdata = s.rdata := rfl
@[simp] theorem enterFrame_cfg (k : Kind) (s : State) : (enterFrame k s).cfg = s.cfg := rfl
@[simp] theorem enterFrame_run_mode (k : Kind) (s : State) : (enterFrame k s).run.mode = .inframe := rfl
@[simp] theorem enterFrame_run_bp (k : Kind) (s : State) : (enterFrame k s).run.bp = s.run.bp := rfl
@[simp] theorem enterFrame_run_errFi (k : Kind) (s : State) : (enterFrame k s).run.errFi = s.run.errFi := rfl
@[simp] theorem enterFrame_run_errBp (k : Kind) (s : State) : (enterFrame k s).run.errBp = s.run.errBp := rfl
@[simp] theorem enterFrame_run_w (k : Kind) (s : State) : (enterFrame k s).run.w = s.run.w := rfl
@[simp] theorem enterFrame_run_wcnt (k : Kind) (s : State) : (enterFrame k s).run.wcnt = s.run.wcnt := rfl
@[simp] theorem enterFrame_run_pval (k : Kind) (s : State) : (enterFrame k s).run.pval = s.run.pval := rfl
@[simp] theorem enterFrame_run_pa (k : Kind) (s : State) : (enterFrame k s).run.pa = s.run.pa := rfl
@[simp] theorem enterFrame_run_skip (k : Kind) (s : State) : (enterFrame k s).run.skip = s.run.skip := rfl
@[simp] theorem enterFrame_run_stats (k : Kind) (s : State) : (enterFrame k s).run.stats = s.run.stats := rfl
@[simp] theorem enterFrame_run_diag (k : Kind) (s : State) : (enterFrame k s).run.diag = s.run.diag := rfl
@[simp] theorem enterFrame_run_ev (k : Kind) (s : State) : (enterFrame k s).run.ev = s.run.ev := rfl
@[simp] theorem enterFrame_run_cf (k : Kind) (s : State) : (enterFrame k s).run.cf = s.run.cf := rfl
@[simp] theorem enterFrame_run_hist (k : Kind) (s : State) : (enterFrame k s).run.hist = s.run.hist := rfl
@[simp] theorem enterFrame_run_status_err (k : Kind) (s : State) : (enterFrame k s).run.status.err = s.run.status.err := rfl
@[simp] theorem enterFrame_run_status_anyframe (k : Kind) (s : State) : (enterFrame k s).run.status.anyframe = true := rfl
@[simp] theorem enterFrame_run_status_unsup (k : Kind) (s : State) : (enterFrame k s).run.status.unsup = s.run.status.unsup := rfl
@[simp] theorem enterFrame_run_status_evvalid (k : Kind) (s : State) : (enterFrame k s).run.status.evvalid = s.run.status.evvalid := rfl

@[simp] theorem enterFrame_frame (k : Kind) (s : State) :
    (enterFrame k s).frame = { kind := k, fi := 0, bp0 := s.run.bp, raw := [], rj := 0 } := rfl

/-! `commit` -/

@[simp] theorem commit_params (s : State) : (commit s).params = s.params := rfl
@[simp] theorem commit_buf (s : State) : (commit s).buf = s.buf := rfl
@[simp] theorem commit_port (s : State) : (commit s).port = s.port := rfl
@[simp] theorem commit_rdata (s : State) : (commit s).rdata = s.rdata := rfl
@[simp] theorem commit_cfg (s : State) : (commit s).cfg = s.cfg := rfl
@[simp] theorem commit_frame (s : State) : (commit s).frame = FrameState.idle := rfl
@[simp] theorem commit_run_mode (s : State) : (commit s).run.mode = .between := rfl
@[simp] theorem commit_run_bp (s : State) : (commit s).run.bp = s.run.bp := rfl
@[simp] theorem commit_run_errFi (s : State) : (commit s).run.errFi = s.run.errFi := rfl
@[simp] theorem commit_run_errBp (s : State) : (commit s).run.errBp = s.run.errBp := rfl
@[simp] theorem commit_run_w (s : State) : (commit s).run.w = s.run.w := rfl
@[simp] theorem commit_run_wcnt (s : State) : (commit s).run.wcnt = s.run.wcnt := rfl
@[simp] theorem commit_run_pval (s : State) : (commit s).run.pval = s.run.pval := rfl
@[simp] theorem commit_run_pa (s : State) : (commit s).run.pa = s.run.pa := rfl
@[simp] theorem commit_run_skip (s : State) : (commit s).run.skip = s.run.skip.set s.frame.kind 0 := rfl
@[simp] theorem commit_run_diag (s : State) : (commit s).run.diag = s.run.diag := rfl
@[simp] theorem commit_run_cf (s : State) : (commit s).run.cf = s.run.cf := rfl
@[simp] theorem commit_run_status_err (s : State) : (commit s).run.status.err = .none := rfl
@[simp] theorem commit_run_status_anyframe (s : State) : (commit s).run.status.anyframe = s.run.status.anyframe := rfl
@[simp] theorem commit_run_status_unsup (s : State) : (commit s).run.status.unsup = s.run.status.unsup := rfl
@[simp] theorem commit_run_status_evvalid (s : State) : (commit s).run.status.evvalid = true := rfl

/-! Kinds. -/

@[simp] theorem PerKind.get_all {α : Type} (a : α) (k : Kind) : (PerKind.all a).get k = a := by cases k <;> rfl

@[simp] theorem PerKind.get_set_same {α : Type} (p : PerKind α) (k : Kind) (a : α) : (p.set k a).get k = a := by
  cases k <;> rfl

theorem PerKind.get_set_other {α : Type} (p : PerKind α) {k k' : Kind} (a : α) (h : k' ≠ k) :
    (p.set k a).get k' = p.get k' := by
  cases k <;> cases k' <;> first | rfl | exact absurd rfl h

theorem PerKind.get_set {α : Type} (p : PerKind α) (k k' : Kind) (a : α) :
    (p.set k a).get k' = if k' = k then a else p.get k' := by
  split
  · next h => subst h; simp
  · next h => exact PerKind.get_set_other p a h

/-! What `diagnose` leaves. -/

@[simp] theorem diagnose_params (p : Pred) (s : State) : (diagnose p s).params = s.params := by
  unfold diagnose; split <;> rfl
@[simp] theorem diagnose_buf (p : Pred) (s : State) : (diagnose p s).buf = s.buf := by
  unfold diagnose; split <;> rfl
@[simp] theorem diagnose_port (p : Pred) (s : State) : (diagnose p s).port = s.port := by
  unfold diagnose; split <;> rfl
@[simp] theorem diagnose_rdata (p : Pred) (s : State) : (diagnose p s).rdata = s.rdata := by
  unfold diagnose; split <;> rfl
@[simp] theorem diagnose_cfg (p : Pred) (s : State) : (diagnose p s).cfg = s.cfg := by
  unfold diagnose; split <;> rfl
@[simp] theorem diagnose_frame (p : Pred) (s : State) : (diagnose p s).frame = s.frame := by
  unfold diagnose; split <;> rfl
@[simp] theorem diagnose_run_mode (p : Pred) (s : State) : (diagnose p s).run.mode = s.run.mode := by
  unfold diagnose; split <;> rfl
@[simp] theorem diagnose_run_bp (p : Pred) (s : State) : (diagnose p s).run.bp = s.run.bp := by
  unfold diagnose; split <;> rfl
@[simp] theorem diagnose_run_errFi (p : Pred) (s : State) : (diagnose p s).run.errFi = s.run.errFi := by
  unfold diagnose; split <;> rfl
@[simp] theorem diagnose_run_errBp (p : Pred) (s : State) : (diagnose p s).run.errBp = s.run.errBp := by
  unfold diagnose; split <;> rfl
@[simp] theorem diagnose_run_w (p : Pred) (s : State) : (diagnose p s).run.w = s.run.w := by
  unfold diagnose; split <;> rfl
@[simp] theorem diagnose_run_wcnt (p : Pred) (s : State) : (diagnose p s).run.wcnt = s.run.wcnt := by
  unfold diagnose; split <;> rfl
@[simp] theorem diagnose_run_pval (p : Pred) (s : State) : (diagnose p s).run.pval = s.run.pval := by
  unfold diagnose; split <;> rfl
@[simp] theorem diagnose_run_pa (p : Pred) (s : State) : (diagnose p s).run.pa = s.run.pa := by
  unfold diagnose; split <;> rfl
@[simp] theorem diagnose_run_skip (p : Pred) (s : State) : (diagnose p s).run.skip = s.run.skip := by
  unfold diagnose; split <;> rfl
@[simp] theorem diagnose_run_stats (p : Pred) (s : State) : (diagnose p s).run.stats = s.run.stats := by
  unfold diagnose; split <;> rfl
@[simp] theorem diagnose_run_ev (p : Pred) (s : State) : (diagnose p s).run.ev = s.run.ev := by
  unfold diagnose; split <;> rfl
@[simp] theorem diagnose_run_cf (p : Pred) (s : State) : (diagnose p s).run.cf = s.run.cf := by
  unfold diagnose; split <;> rfl
@[simp] theorem diagnose_run_hist (p : Pred) (s : State) : (diagnose p s).run.hist = s.run.hist := by
  unfold diagnose; split <;> rfl
@[simp] theorem diagnose_run_status_err (p : Pred) (s : State) : (diagnose p s).run.status.err = s.run.status.err := by
  unfold diagnose; split <;> rfl
@[simp] theorem diagnose_run_status_anyframe (p : Pred) (s : State) : (diagnose p s).run.status.anyframe = s.run.status.anyframe := by
  unfold diagnose; split <;> rfl
@[simp] theorem diagnose_run_status_evvalid (p : Pred) (s : State) : (diagnose p s).run.status.evvalid = s.run.status.evvalid := by
  unfold diagnose; split <;> rfl

end Sys2Proof.Machine
end

