-- ==== Sys2Proof/Laws/Outcome.lean ====
section
/-! SUPPORT. What each shared operation of a command can do, said once: the mode check, taking an exception, the end of
a command that reads the stream, a PRED command. -/

namespace Sys2Proof.Machine

/-! ## The mode check (30 R76 check 5) -/

theorem whenBetween_admitted {s : State} (h : s.run.mode = .between) (o : Out) : whenBetween s o = o := if_pos h

theorem whenBetween_refused {s : State} (h : s.run.mode ≠ .between) (o : Out) :
    whenBetween s o = .next (afterIllegal s) := if_neg h

theorem illegalCommand_eq (s : State) : illegalCommand s = afterIllegal s := rfl

/-! ## Taking an exception (60 R207, 43 R179) -/

theorem takeException_outside {x : Exc} {pos i : Nat} {s : State} (h : s.run.mode ≠ .inframe) :
    takeException x pos i s =
      { s with
        run.status.err := x.err
        run.errBp := BitVec.ofNat 35 pos
        run.errFi := 0
        run.mode := modeAfter x s.run.mode } := if_neg h

/-- EndOfData and MalformedFrame outside FRAME. -/
theorem takeException_stream {x : Exc} {pos i : Nat} {s : State} (h : s.run.mode ≠ .inframe)
    (hx : x = .endOfData ∨ x = .malformedFrame) : takeException x pos i s = afterRaise x.err pos s := by
  rw [takeException_outside h]
  rcases hx with rfl | rfl <;> rfl

/-- InvalidHeaderReference outside FRAME, recorded at BP. -/
theorem takeException_fatal {i : Nat} {s : State} (h : s.run.mode ≠ .inframe) :
    takeException .invalidHeaderReference s.run.bp.toNat i s = afterFatal s := by
  rw [takeException_outside h]
  simp only [BitVec.ofNat_toNat, BitVec.setWidth_eq, Exc.err, modeAfter, afterFatal]

/-- Every exception inside FRAME. -/
theorem takeException_inside {x : Exc} {pos i : Nat} {s : State} (h : s.run.mode = .inframe) :
    takeException x pos i s = afterAbandon x pos i s := by
  rw [takeException, if_pos h]
  cases x <;> rfl

/-- ERR set to a code, nothing else changed. -/
abbrev withErr (e : ErrCode) (s : State) : State := { s with run.status.err := e }

/-- The ERR before an exception plays no part in it (60 R206). -/
theorem takeException_withErr (e : ErrCode) (x : Exc) (pos i : Nat) (s : State) :
    takeException x pos i (withErr e s) = takeException x pos i s := by
  unfold takeException
  cases x <;> rfl

/-! ## Commands that read the stream (40 R103, 41 R121) -/

theorem finishRead_ok (s : State) (ws : List Word) (bp : Nat) :
    finishRead s (.ok ws bp) = .next (afterRead ws bp s) := rfl

theorem finishRead_raised {s : State} (h : s.run.mode ≠ .inframe) {x : Exc} {pos : Nat}
    (hx : x = .endOfData ∨ x = .malformedFrame) :
    finishRead s (.raised x pos) = .next (afterRaise x.err pos s) := by
  rw [finishRead, takeException_stream h hx]

/-- A Bit Reader command that completes. -/
theorem bitCommand_ok {s : State} (h : s.run.mode = .between) {v : Word} {bp : Nat} {r : Rd Word} (hr : r = .ok v bp) :
    bitCommand s r = .next (afterRead [v] bp s) := by
  subst hr; exact whenBetween_admitted h _

/-- A Bit Reader command that raises. -/
theorem bitCommand_raised {s : State} (h : s.run.mode = .between) {x : Exc} {pos : Nat} {r : Rd Word}
    (hr : r = .raised x pos) (hx : x = .endOfData ∨ x = .malformedFrame) :
    bitCommand s r = .next (afterRaise x.err pos s) := by
  subst hr
  rw [bitCommand, whenBetween_admitted h]
  exact finishRead_raised (by simp [h]) hx

/-- A DEC command with a `want` that its encoding does not have. -/
theorem decCommand_illegal {e : Enc} {want : BitVec 4} (s : State) (dec : Stream → Nat → Nat → Rd (List Word))
    (h : want.toNat = 0 ∨ e.maxChunk < want.toNat) : decCommand e want s dec = .next (afterIllegal s) := by
  rw [decCommand, if_neg (by omega)]; rfl

/-- A DEC command that completes. -/
theorem decCommand_ok {e : Enc} {want : BitVec 4} {s : State} {dec : Stream → Nat → Nat → Rd (List Word)}
    (h : s.run.mode = .between) (hw : 1 ≤ want.toNat ∧ want.toNat ≤ e.maxChunk) {ws : List Word} {bp : Nat}
    (hr : dec s.stream s.run.bp.toNat want.toNat = .ok ws bp) :
    decCommand e want s dec = .next (afterRead ws bp s) := by
  rw [decCommand, if_pos hw, whenBetween_admitted h, hr]; rfl

/-- A DEC command that raises. -/
theorem decCommand_raised {e : Enc} {want : BitVec 4} {s : State} {dec : Stream → Nat → Nat → Rd (List Word)}
    (h : s.run.mode = .between) (hw : 1 ≤ want.toNat ∧ want.toNat ≤ e.maxChunk) {x : Exc} {pos : Nat}
    (hr : dec s.stream s.run.bp.toNat want.toNat = .raised x pos) (hx : x = .endOfData ∨ x = .malformedFrame) :
    decCommand e want s dec = .next (afterRaise x.err pos s) := by
  rw [decCommand, if_pos hw, whenBetween_admitted h, hr]
  exact finishRead_raised (by simp [h]) hx

/-! ## PRED commands (42 R157) -/

/-- A PRED command whose predictor has a value. -/
theorem predCommand_value {p : Pred} {sg : Bool} {s : State} {v : Word} (h : s.run.mode = .between)
    (hv : predict p s.cfg.hdr (paOperands sg s.run.pa) = some v) :
    predCommand p sg s = .next (afterPred v (diagnose p s)) := by
  rw [predCommand, whenBetween_admitted h, hv]; rfl

/-- A PRED command whose predictor raises. -/
theorem predCommand_raise {p : Pred} {sg : Bool} {s : State} (h : s.run.mode = .between)
    (hv : predict p s.cfg.hdr (paOperands sg s.run.pa) = none) :
    predCommand p sg s = .next (afterFatal s) := by
  rw [predCommand, whenBetween_admitted h, hv]
  exact congrArg Host.Outcome.next (takeException_fatal (by simp [h]))

/-- Only the four predictors that need a constant or the motor-0 value can raise (42 R160). -/
theorem predict_eq_none {p : Pred} {h : HeaderRegs} {o : PredOperands} (hn : predict p h o = none) :
    (p = .minthrottle ∧ h.valid.getLsbD 0 = false) ∨ (p = .motor0 ∧ o.m0 = none) ∨
      (p = .vbatref ∧ h.valid.getLsbD 1 = false) ∨ (p = .minmotor ∧ h.valid.getLsbD 2 = false) := by
  cases p <;> simp_all [predict, diffOf, diffMinthrottle, diffMotor0, diffVbatref, diffMinmotor,
    HeaderRegs.minthrottleV, HeaderRegs.vbatrefV, HeaderRegs.motoroutV]

/-- The diagnostic of a predictor that is no stub is nothing. -/
theorem diagnose_of_not_stub {p : Pred} (h : Pred.isStub p = false) (s : State) : diagnose p s = s := by
  simp [diagnose, h]

/-! ## The halves of a descriptor (43 R175, R176) -/

/-- All that the decode of a run can answer inside FRAME at a run of one field or more. -/
theorem decodeRun_inside {e : Enc} {dec : Stream → Nat → Nat → Rd (List Word)} {s : State}
    (hm : s.run.mode = .inframe) (hr : s.frame.raw = []) (hn : 0 < runLength e s.frameFd s.frameNf s.frame.fi) :
    (∃ ws bp, dec s.stream s.run.bp.toNat (runLength e s.frameFd s.frameNf s.frame.fi) = .ok ws bp ∧
      decodeRun e dec s = .next { setBp bp s with frame.raw := ws, frame.rj := 0 }) ∨
    (∃ x pos, dec s.stream s.run.bp.toNat (runLength e s.frameFd s.frameNf s.frame.fi) = .raised x pos ∧
      decodeRun e dec s = .next (afterAbandon x pos s.frame.fi s)) := by
  rw [decodeRun, if_pos ⟨hm, hr, hn⟩]
  cases hd : dec s.stream s.run.bp.toNat (runLength e s.frameFd s.frameNf s.frame.fi) with
  | ok ws bp => exact .inl ⟨ws, bp, rfl, rfl⟩
  | raised x pos => exact .inr ⟨x, pos, rfl, congrArg Host.Outcome.next (takeException_inside hm)⟩

/-- All that a field step can answer inside FRAME with a raw word waiting. -/
theorem fieldStep_inside {p : Pred} {sg : Bool} {e : Enc} {s : State} {raw : Word} (hm : s.run.mode = .inframe)
    (hr : s.frame.raw[s.frame.rj]? = some raw) :
    (∃ v, predict p s.cfg.hdr (fieldOperands s e sg s.fieldIndex raw) = some v ∧
      fieldStep p sg e s =
        .next { diagnose p s with run.cf := s.run.cf.write s.fieldIndex v, frame := nextField s.frame }) ∨
    (predict p s.cfg.hdr (fieldOperands s e sg s.fieldIndex raw) = none ∧
      fieldStep p sg e s =
        .next (afterAbandon .invalidHeaderReference s.run.bp.toNat s.fieldIndex s)) := by
  rw [fieldStep, if_pos hm, hr]
  cases hp : predict p s.cfg.hdr (fieldOperands s e sg s.fieldIndex raw) with
  | some v => exact .inl ⟨v, rfl, by simp only [hp]⟩
  | none => exact .inr ⟨rfl, by simp only [hp, takeException_inside hm]⟩

/-! ## The port -/

/-- What the next step runs: nothing, a hardware reset, a read, a command or a register write. -/
theorem step_host {s : State} (h : s.run.mode ≠ .inframe) :
    (s.port = [] ∧ step s = .next s) ∨
    (∃ rest, s.port = .hardReset :: rest ∧ step s = .next (resetMachine { s with port := rest })) ∨
    (∃ r rest, s.port = .read r :: rest ∧ step s = .next { s with port := rest, rdata := portRead s r }) ∨
    (∃ v rest i, s.port = .write cmdReg v :: rest ∧ decode .command v = .ok i ∧
      step s = exec i { s with port := rest }) ∨
    (∃ v rest e, s.port = .write cmdReg v :: rest ∧ decode .command v = .error e ∧
      step s = .next (afterIllegal { s with port := rest })) ∨
    (∃ r v rest, s.port = .write r v :: rest ∧ r ≠ cmdReg ∧
      step s = .next (portWrite { s with port := rest } r v)) := by
  simp only [step, fetch, if_neg h, fetchHost]
  cases hp : s.port with
  | nil => exact .inl ⟨rfl, rfl⟩
  | cons a rest =>
    refine .inr ?_
    cases a with
    | hardReset => exact .inl ⟨rest, rfl, rfl⟩
    | read r => exact .inr (.inl ⟨r, rest, rfl, rfl⟩)
    | write r v =>
      refine .inr (.inr ?_)
      by_cases hc : r = cmdReg
      · subst hc
        cases hd : decode .command v with
        | ok i => exact .inl ⟨v, rest, i, rfl, hd, by simp [hostAction, hd]⟩
        | error e => exact .inr (.inl ⟨v, rest, e, rfl, hd, by simp [hostAction, hd]; rfl⟩)
      · exact .inr (.inr ⟨r, v, rest, rfl, hc, by simp [hostAction, hc]⟩)

/-- A register write other than to CMD: accepted with ERR = 0, or refused with ERR = 5 and nothing else. -/
theorem portWrite_cases (s : State) (r : RegNo) (v : Word) :
    (∃ reg s', regOf s.params.nfmax r.toNat = some reg ∧ writeReg s v reg = some s' ∧ portWrite s r v = complete s') ∨
    ((regOf s.params.nfmax r.toNat).bind (writeReg s v) = none ∧ portWrite s r v = afterIllegal s) := by
  unfold portWrite
  cases hr : regOf s.params.nfmax r.toNat with
  | none => exact .inr ⟨rfl, rfl⟩
  | some reg =>
    cases hw : writeReg s v reg with
    | none => exact .inr ⟨by simp [hw], by simp [hw]; rfl⟩
    | some s' => exact .inl ⟨reg, s', rfl, hw, by simp [hw]⟩

/-- All that an accepted register write changes: one configuration register in CONFIG, or SKIP or a PA register. -/
theorem writeReg_cases {s s' : State} {v : Word} {reg : Reg} (h : writeReg s v reg = some s') :
    (s.run.mode = .config ∧ ∃ c, writeConfig s.params.nfmax s.cfg v reg = some c ∧ s' = { s with cfg := c }) ∨
    ((s.run.mode = .config ∨ s.run.mode = .between) ∧ ∃ r, writeOperand s.run v reg = some r ∧
      s' = { s with run := r }) := by
  unfold writeReg at h
  cases hm : s.run.mode <;> simp only [hm] at h
  · cases hc : writeConfig s.params.nfmax s.cfg v reg with
    | some c => rw [hc] at h; exact .inl ⟨rfl, c, rfl, by simpa using h.symm⟩
    | none =>
      rw [hc] at h
      obtain ⟨r, hr, e⟩ := Option.map_eq_some_iff.mp h
      exact .inr ⟨.inl rfl, r, hr, e.symm⟩
  · obtain ⟨r, hr, e⟩ := Option.map_eq_some_iff.mp h
    exact .inr ⟨.inr rfl, r, hr, e.symm⟩
  all_goals cases h

/-- An accepted write to SKIP or a PA register changes these only. -/
theorem writeOperand_keeps {r r' : RunState} {v : Word} {reg : Reg} (h : writeOperand r v reg = some r') :
    r' = { r with skip := r'.skip, pa := r'.pa } := by
  cases reg <;> simp only [writeOperand, Option.some.injEq, reduceCtorEq] at h <;> subst h <;> rfl

end Sys2Proof.Machine
end

