-- ==== Sys2Proof/Laws/Varint.lean ====
section
/-! SUPPORT. `rduvar` on the bytes of the stream (40 R104, 30 R85): the three things it can do. -/

namespace Sys2Proof.Machine

/-- A byte inside the buffer is read. -/
theorem rdbyte_at {st : Stream} {bp : Nat} (h : (bp + 7) / 8 < st.len) :
    rdbyte st bp = .ok (st.buf.read ((bp + 7) / 8)) (8 * ((bp + 7) / 8 + 1)) := by
  rcases rdbyte_cases st bp with ⟨_, e⟩ | ⟨hlt, _⟩
  · rw [e]
    have h1 : alignUp bp / 8 = (bp + 7) / 8 := by unfold alignUp; omega
    have h2 : alignUp bp + 8 = 8 * ((bp + 7) / 8 + 1) := by unfold alignUp; omega
    rw [h1, h2]
  · unfold alignUp at hlt; omega

/-- Past the last byte a read is EndOfData at the rounded cursor. -/
theorem rdbyte_end {st : Stream} {bp : Nat} (h : st.len ≤ (bp + 7) / 8) :
    rdbyte st bp = .raised .endOfData (8 * ((bp + 7) / 8)) := by
  rcases rdbyte_cases st bp with ⟨hlt, _⟩ | ⟨_, e⟩
  · unfold alignUp at hlt; omega
  · rw [e]; congr 1; unfold alignUp; omega

theorem BytesAt.head {st : Stream} {a : Nat} {b : Byte} {bs : List Byte} (h : BytesAt st a (b :: bs)) :
    a < st.len ∧ st.buf.read a = b := by
  refine ⟨by have := h.1; simp at this; omega, ?_⟩
  have := h.2 0 (by simp)
  simpa using this

theorem BytesAt.tail {st : Stream} {a : Nat} {b : Byte} {bs : List Byte} (h : BytesAt st a (b :: bs)) :
    BytesAt st (a + 1) bs := by
  refine ⟨by have := h.1; simp at this; omega, fun i hi => ?_⟩
  have := h.2 (i + 1) (by simpa using hi)
  simpa [Nat.add_comm, Nat.add_left_comm] using this

/-- The payload of a byte shifted into the result so far adds to it. -/
theorem or_payload {r : Word} {b : Byte} {i : Nat} (hr : r.toNat < 2 ^ (7 * i))
    (hb : b.toNat % 128 * 2 ^ (7 * i) < 2 ^ 32) :
    (r ||| (zext (b.extractLsb' 0 7) <<< (7 * i))).toNat = r.toNat + b.toNat % 128 * 2 ^ (7 * i) := by
  have hz : (zext (b.extractLsb' 0 7) <<< (7 * i) : Word).toNat = b.toNat % 128 * 2 ^ (7 * i) := by
    simp only [zext, BitVec.toNat_shiftLeft, BitVec.toNat_setWidth, BitVec.extractLsb'_toNat, Nat.shiftRight_zero,
      Nat.shiftLeft_eq]
    have : b.toNat % 2 ^ 7 % 2 ^ 32 = b.toNat % 128 := by omega
    rw [this, Nat.mod_eq_of_lt hb]
  rw [BitVec.toNat_or, hz, Nat.or_comm, Nat.mul_comm, ← Nat.two_pow_add_eq_or_of_lt hr, Nat.add_comm]

/-- The fifth byte of a value that fits has bits 6:4 clear. -/
theorem fifth_ok {b : Byte} (h7 : b.getLsbD 7 = false) (h : b.toNat < 16) : b.extractLsb' 4 3 = 0 := by
  revert b; decide +kernel

theorem continuation_payload (b : Byte) (h : b.getLsbD 7 = true) : 128 ≤ b.toNat := by
  revert b; decide +kernel

theorem terminator_payload (b : Byte) (h : b.getLsbD 7 = false) : b.toNat < 128 := by
  revert b; decide +kernel

/-- A byte of 16 or more is no fifth byte: bits 6:4 or the continuation flag is set. -/
theorem fifth_bad (b : Byte) (h : 16 ≤ b.toNat) : b.extractLsb' 4 3 ≠ 0 ∨ b.getLsbD 7 = true := by
  revert b; decide +kernel

/-- The loop of `rduvar` over the bytes that remain of a sequence that ends. -/
theorem rduvarFrom_spells {st : Stream} {entry i bp : Nat} {r : Word} {bs : List Byte} {last : Byte}
    (hl : i + bs.length ≤ 4) (hbs : ∀ b ∈ bs, b.getLsbD 7 = true) (hlast : last.getLsbD 7 = false)
    (h5 : i + bs.length = 4 → last.toNat < 16) (hat : BytesAt st ((bp + 7) / 8) (bs ++ [last]))
    (hr : r.toNat < 2 ^ (7 * i)) :
    rduvarFrom st entry (5 - i) i bp r =
        .ok (BitVec.ofNat 32 (r.toNat + 2 ^ (7 * i) * groupsValue (bs ++ [last])))
          (8 * ((bp + 7) / 8 + bs.length + 1)) ∧
      r.toNat + 2 ^ (7 * i) * groupsValue (bs ++ [last]) < 2 ^ 32 := by
  induction bs generalizing i bp r with
  | nil =>
    obtain ⟨hlen, hread⟩ := hat.head
    have h5i : 5 - i = (4 - i) + 1 := by simp at hl; omega
    have hi : i ≤ 4 := by simpa using hl
    have hlt := terminator_payload last hlast
    have hfit : last.toNat % 128 * 2 ^ (7 * i) < 2 ^ 32 := by
      have : i = 0 ∨ i = 1 ∨ i = 2 ∨ i = 3 ∨ i = 4 := by omega
      rcases this with rfl | rfl | rfl | rfl | rfl <;> simp at h5 ⊢ <;> omega
    have hor := or_payload (b := last) hr hfit
    have hv : groupsValue [last] = last.toNat % 128 := by simp [groupsValue]
    have hbad : ¬ (i + 1 = varMax ∧ last.extractLsb' 4 3 ≠ 0) := by
      rintro ⟨h, hne⟩
      exact hne (fifth_ok hlast (h5 (by simp [varMax] at h ⊢; omega)))
    have hlt2 : r.toNat + 2 ^ (7 * i) * groupsValue [last] < 2 ^ 32 := by
      rw [hv, Nat.mul_comm, ← hor]; exact BitVec.isLt _
    refine ⟨?_, hlt2⟩
    rw [h5i, rduvarFrom, rdbyte_at hlen, hread]
    simp only [Rd.andThen_ok, if_neg hbad, hlast, List.length_nil, Nat.add_zero, List.nil_append]
    simp only [Bool.false_eq_true, if_false]
    congr 1
    apply BitVec.eq_of_toNat_eq
    rw [hor, BitVec.toNat_ofNat, Nat.mod_eq_of_lt hlt2, hv, Nat.mul_comm]
  | cons b bs ih =>
    simp only [List.length_cons] at hl
    obtain ⟨hlen, hread⟩ := hat.head
    have hb := hbs b (by simp)
    have h5i : 5 - i = (5 - (i + 1)) + 1 := by omega
    have hbad : ¬ (i + 1 = varMax ∧ b.extractLsb' 4 3 ≠ 0) := by
      rintro ⟨h, -⟩
      simp only [varMax] at h; omega
    have hfit : b.toNat % 128 * 2 ^ (7 * i) < 2 ^ 32 := by
      have : i = 0 ∨ i = 1 ∨ i = 2 ∨ i = 3 := by omega
      rcases this with rfl | rfl | rfl | rfl <;> simp <;> omega
    have hor := or_payload (b := b) hr hfit
    have hr' : (r ||| (zext (b.extractLsb' 0 7) <<< (7 * i)) : Word).toNat < 2 ^ (7 * (i + 1)) := by
      rw [hor, show 7 * (i + 1) = 7 * i + 7 by omega, Nat.pow_add]
      have hm : b.toNat % 128 * 2 ^ (7 * i) ≤ 127 * 2 ^ (7 * i) := Nat.mul_le_mul_right _ (by omega)
      omega
    have hdiv : (8 * ((bp + 7) / 8 + 1) + 7) / 8 = (bp + 7) / 8 + 1 := by omega
    have hstep := ih (i := i + 1) (bp := 8 * ((bp + 7) / 8 + 1))
      (r := r ||| (zext (b.extractLsb' 0 7) <<< (7 * i))) (by omega)
      (fun c hc => hbs c (by simp [hc])) (fun h => h5 (by simp; omega)) (by rw [hdiv]; exact hat.tail) hr'
    have hval : (r ||| (zext (b.extractLsb' 0 7) <<< (7 * i)) : Word).toNat
        + 2 ^ (7 * (i + 1)) * groupsValue (bs ++ [last])
        = r.toNat + 2 ^ (7 * i) * groupsValue (b :: bs ++ [last]) := by
      rw [hor, show 7 * (i + 1) = 7 * i + 7 by omega, Nat.pow_add]
      simp only [List.cons_append, groupsValue]
      ring
    rw [hval] at hstep
    refine ⟨?_, hstep.2⟩
    rw [h5i, rduvarFrom, rdbyte_at hlen, hread]
    simp only [Rd.andThen_ok, if_neg hbad, hb, if_true]
    rw [hstep.1, hdiv]
    congr 2
    simp only [List.length_cons]; omega

/-- The loop of `rduvar` reaches the fifth byte, or the end, over continuation bytes. -/
theorem rduvarFrom_continues {st : Stream} {entry i bp : Nat} {r : Word} {bs rest : List Byte}
    (hl : i + bs.length ≤ 4) (hbs : ∀ b ∈ bs, b.getLsbD 7 = true) (hat : BytesAt st ((bp + 7) / 8) (bs ++ rest)) :
    ∃ r' bp', rduvarFrom st entry (5 - i) i bp r = rduvarFrom st entry (5 - (i + bs.length)) (i + bs.length) bp' r' ∧
      (bp' + 7) / 8 = (bp + 7) / 8 + bs.length := by
  induction bs generalizing i bp r with
  | nil => exact ⟨r, bp, rfl, rfl⟩
  | cons b bs ih =>
    simp only [List.length_cons] at hl
    obtain ⟨hlen, hread⟩ := hat.head
    have hdiv : (8 * ((bp + 7) / 8 + 1) + 7) / 8 = (bp + 7) / 8 + 1 := by omega
    obtain ⟨r', bp', he, hb⟩ := ih (i := i + 1) (bp := 8 * ((bp + 7) / 8 + 1))
      (r := r ||| (zext (b.extractLsb' 0 7) <<< (7 * i))) (by omega) (fun c hc => hbs c (by simp [hc]))
      (by rw [hdiv]; exact hat.tail)
    have hbad : ¬ (i + 1 = varMax ∧ b.extractLsb' 4 3 ≠ 0) := by
      rintro ⟨h, -⟩
      simp only [varMax] at h; omega
    have h5i : 5 - i = (5 - (i + 1)) + 1 := by omega
    refine ⟨r', bp', ?_, by rw [hb, hdiv]; simp only [List.length_cons]; omega⟩
    rw [h5i, rduvarFrom, rdbyte_at hlen, hread]
    simp only [Rd.andThen_ok, if_neg hbad, hbs b (by simp), if_true]
    rw [he, List.length_cons, show i + 1 + bs.length = i + (bs.length + 1) by omega]

/-- `rduvar` on a sequence that spells a value. -/
theorem rduvar_spells {st : Stream} {bp u bp' : Nat} (h : Spells st bp u bp') :
    rduvar st bp = .ok (BitVec.ofNat 32 u) bp' ∧ u < 2 ^ 32 := by
  obtain ⟨bs, last, hl, hbs, hlast, h5, hat, rfl, rfl⟩ := h
  have := rduvarFrom_spells (entry := bp) (i := 0) (r := 0) (bp := bp) (by omega) hbs hlast
    (fun h => h5 (by omega)) hat (by simp)
  simpa [rduvar, varMax] using this

/-- `rduvar` on a malformed sequence. -/
theorem rduvar_malformed {st : Stream} {bp : Nat} (h : Malformed st bp) :
    rduvar st bp = .raised .malformedFrame bp := by
  obtain ⟨bs, b, hl, hbs, hb, hat⟩ := h
  obtain ⟨r', bp', he, hd⟩ := rduvarFrom_continues (entry := bp) (i := 0) (r := 0) (bp := bp) (by omega) hbs hat
  have hlen : (bp' + 7) / 8 < st.len := by have := hat.1; simp at this; omega
  have hread : st.buf.read ((bp' + 7) / 8) = b := by
    have := hat.2 bs.length (by simp)
    rw [hd, this]; simp
  rw [rduvar, show varMax = 5 - 0 from rfl, he, hl]
  simp only [Nat.zero_add, show 5 - 4 = 0 + 1 from rfl, rduvarFrom, rdbyte_at hlen, hread, Rd.andThen_ok]
  rcases fifth_bad b hb with h | h
  · rw [if_pos ⟨rfl, h⟩]
  · simp [h]

/-- `rduvar` on a sequence that the buffer's end cuts off. -/
theorem rduvar_truncated {st : Stream} {bp pos : Nat} (h : Truncated st bp pos) :
    rduvar st bp = .raised .endOfData pos := by
  obtain ⟨bs, hl, hbs, hat, hlen, rfl⟩ := h
  obtain ⟨r', bp', he, hd⟩ := rduvarFrom_continues (entry := bp) (i := 0) (r := 0) (bp := bp) (rest := [])
    (by omega) hbs (by simpa using hat)
  rw [rduvar, show varMax = 5 - 0 from rfl, he, show 5 - (0 + bs.length) = (4 - bs.length) + 1 by omega, rduvarFrom,
    rdbyte_end (by omega), Rd.andThen_raised, hd, hlen]

end Sys2Proof.Machine
end

