-- ==== Sys2Proof/Laws/Frame.lean ====
section
/-! SUPPORT. What the sequencer's operations can do inside FRAME, said once for each: a field step, the field steps of a
run, a run, and the field loop against the reading of the frame definition. -/

namespace Sys2Proof.Machine

/-! ## The traces of a frame -/

theorem frameTraces_snoc (stubs : List Pred) (p : Pred) (s : State) :
    frameTraces (stubs ++ [p]) s = diagnostic p (frameTraces stubs s) := by
  simp [frameTraces, List.foldl_append]

theorem frameTraces_keeps (stubs : List Pred) (s : State) :
    frameTraces stubs s = { s with
      run.status.anyframe := true
      run.status.unsup := (frameTraces stubs s).run.status.unsup
      run.diag := (frameTraces stubs s).run.diag } := by
  induction stubs using List.reverseRecOn with
  | nil => rfl
  | append_singleton stubs p ih => rw [frameTraces_snoc, ih]; rfl

@[simp] theorem frameTraces_params (stubs : List Pred) (s : State) : (frameTraces stubs s).params = s.params := by
  rw [frameTraces_keeps]
@[simp] theorem frameTraces_buf (stubs : List Pred) (s : State) : (frameTraces stubs s).buf = s.buf := by
  rw [frameTraces_keeps]
@[simp] theorem frameTraces_cfg (stubs : List Pred) (s : State) : (frameTraces stubs s).cfg = s.cfg := by
  rw [frameTraces_keeps]
@[simp] theorem frameTraces_hist (stubs : List Pred) (s : State) :
    (frameTraces stubs s).run.hist = s.run.hist := by rw [frameTraces_keeps]
@[simp] theorem frameTraces_skip (stubs : List Pred) (s : State) :
    (frameTraces stubs s).run.skip = s.run.skip := by rw [frameTraces_keeps]
@[simp] theorem frameTraces_stats (stubs : List Pred) (s : State) :
    (frameTraces stubs s).run.stats = s.run.stats := by rw [frameTraces_keeps]
@[simp] theorem frameTraces_ev (stubs : List Pred) (s : State) :
    (frameTraces stubs s).run.ev = s.run.ev := by rw [frameTraces_keeps]
@[simp] theorem frameTraces_bp (stubs : List Pred) (s : State) :
    (frameTraces stubs s).run.bp = s.run.bp := by rw [frameTraces_keeps]
@[simp] theorem frameTraces_mode (stubs : List Pred) (s : State) :
    (frameTraces stubs s).run.mode = s.run.mode := by rw [frameTraces_keeps]

/-! ## The state inside a frame -/

/-- The state inside FRAME k entered from s: the stubs evaluated so far, the cursor, CF, FI and the raw words of the run
that is being stepped. -/
def midFrame (k : Kind) (s : State) (stubs : List Pred) (bp : Nat) (cf : Cells 32) (fi : Nat) (raw : List Word)
    (rj : Nat) : State :=
  { frameTraces stubs s with
    run.mode := .inframe
    run.bp := BitVec.ofNat 35 bp
    run.cf := cf
    frame := { kind := k, fi := fi, bp0 := s.run.bp, raw := raw, rj := rj } }

theorem enterFrame_eq_midFrame (k : Kind) (s : State) :
    enterFrame k s = midFrame k s [] s.run.bp.toNat s.run.cf 0 [] 0 := by
  simp [enterFrame, midFrame, frameTraces]

section
variable (k : Kind) (s : State) (stubs : List Pred) (bp : Nat) (cf : Cells 32) (fi : Nat) (raw : List Word) (rj : Nat)

@[simp] theorem midFrame_mode : (midFrame k s stubs bp cf fi raw rj).run.mode = .inframe := rfl
@[simp] theorem midFrame_bp : (midFrame k s stubs bp cf fi raw rj).run.bp = BitVec.ofNat 35 bp := rfl
@[simp] theorem midFrame_cf : (midFrame k s stubs bp cf fi raw rj).run.cf = cf := rfl
@[simp] theorem midFrame_frame : (midFrame k s stubs bp cf fi raw rj).frame =
    { kind := k, fi := fi, bp0 := s.run.bp, raw := raw, rj := rj } := rfl
@[simp] theorem midFrame_cfg : (midFrame k s stubs bp cf fi raw rj).cfg = s.cfg := by simp [midFrame]
@[simp] theorem midFrame_params : (midFrame k s stubs bp cf fi raw rj).params = s.params := by simp [midFrame]
@[simp] theorem midFrame_buf : (midFrame k s stubs bp cf fi raw rj).buf = s.buf := by simp [midFrame]
@[simp] theorem midFrame_hist : (midFrame k s stubs bp cf fi raw rj).run.hist = s.run.hist := by simp [midFrame]
@[simp] theorem midFrame_skip : (midFrame k s stubs bp cf fi raw rj).run.skip = s.run.skip := by simp [midFrame]
@[simp] theorem midFrame_stream : (midFrame k s stubs bp cf fi raw rj).stream = s.stream := by simp [State.stream]

/-- An abandoned frame, from inside. -/
theorem midFrame_abandon (x : Exc) (pos i : Nat) :
    afterAbandon x pos i (midFrame k s stubs bp cf fi raw rj) =
      { badFrame k x pos i stubs s with run.cf := cf, frame := FrameState.idle } := by
  simp [afterAbandon, midFrame, badFrame]

/-- The diagnostic of a predictor evaluated inside a frame. -/
theorem midFrame_diagnose (p : Pred) :
    diagnose p (midFrame k s stubs bp cf fi raw rj) = midFrame k s (stubs ++ stubOf p) bp cf fi raw rj := by
  unfold diagnose stubOf
  split
  · simp only [midFrame, frameTraces_snoc]; rfl
  · simp

end

/-! ## Descriptors -/

theorem legalDescriptor_iff (d : Byte) : descriptorOk d = true ↔ LegalDescriptor d := by
  revert d; unfold LegalDescriptor; decide +kernel

/-- A legal descriptor byte decodes. -/
theorem descriptorOk_decodes {d : Byte} (h : descriptorOk d = true) : ∃ x, decodeDescriptor d = .ok x := by
  unfold descriptorOk at h
  cases hd : decodeDescriptor d with
  | ok x => exact ⟨x, rfl⟩
  | error e => simp [hd] at h

/-- The encoding of a descriptor that decodes is its ENC field. -/
theorem hasEnc_of_decode {d : Byte} {x : Descriptor} (h : decodeDescriptor d = .ok x) (e : Enc) :
    hasEnc e d = decide (x.enc = e) := by
  unfold decodeDescriptor at h
  unfold hasEnc
  cases he : encOfCode (d.extractLsb' 4 3) with
  | none => simp [he] at h
  | some e' =>
    cases hp : predOfCode (d.extractLsb' 0 4) with
    | none => simp [he, hp] at h
    | some p =>
      simp only [he, hp, Except.ok.injEq] at h
      subst h
      cases e' <;> cases e <;> rfl

/-- The two halves of a descriptor, by the row of each. -/
theorem execEncHalf_eq (d : Descriptor) (s : State) : execEncHalf d s = decodeRun d.enc (decoderOf d.enc) s := by
  obtain ⟨sg, e, p⟩ := d; cases e <;> rfl

theorem execPredHalf_eq (d : Descriptor) (s : State) : execPredHalf d s = fieldStep d.pred d.sg d.enc s := by
  obtain ⟨sg, e, p⟩ := d; cases p <;> rfl

theorem exec_encInstr (d : Descriptor) (s : State) : exec d.encInstr s = decodeRun d.enc (decoderOf d.enc) s := by
  obtain ⟨sg, e, p⟩ := d; cases e <;> rfl

theorem exec_predInstr (d : Descriptor) (s : State) : exec d.predInstr s = fieldStep d.pred d.sg d.enc s := by
  obtain ⟨sg, e, p⟩ := d; cases p <;> rfl

/-! ## Runs -/

/-- `countEnc` counts descriptors of one ENC, and stops at another ENC or at its bound. -/
theorem countEnc_spec (e : Enc) (fd : Cells 8) (left i : Nat) :
    countEnc e fd left i ≤ left ∧ (∀ j < countEnc e fd left i, hasEnc e (fd.read (i + j)) = true) ∧
      (countEnc e fd left i < left → hasEnc e (fd.read (i + countEnc e fd left i)) = false) := by
  induction left generalizing i with
  | zero => simp [countEnc]
  | succ left ih =>
    obtain ⟨h1, h2, h3⟩ := ih (i + 1)
    rw [countEnc]
    by_cases h : hasEnc e (fd.read i) = true
    · rw [if_pos h]
      refine ⟨by omega, fun j hj => ?_, fun hlt => ?_⟩
      · rcases j with _ | j
        · exact h
        · have := h2 j (by omega)
          rwa [show i + 1 + j = i + (j + 1) by omega] at this
      · have := h3 (by omega)
        rwa [show i + 1 + countEnc e fd left (i + 1) = i + (countEnc e fd left (i + 1) + 1) by omega] at this
    · rw [if_neg h]
      refine ⟨by omega, by simp, fun _ => by simpa using h⟩

/-- The run at a field index is at most MAXCHUNK and within the definition. -/
theorem runLength_le (e : Enc) (fd : Cells 8) (nf fi : Nat) :
    runLength e fd nf fi ≤ e.maxChunk ∧ runLength e fd nf fi ≤ nf - fi := by
  have := (countEnc_spec e fd (min e.maxChunk (nf - fi)) fi).1
  unfold runLength; omega

/-- There is a run wherever a field of the encoding is left. -/
theorem runLength_pos {e : Enc} {fd : Cells 8} {nf fi : Nat} (h : fi < nf) (he : hasEnc e (fd.read fi) = true) :
    1 ≤ runLength e fd nf fi := by
  have hm : 1 ≤ e.maxChunk := by cases e <;> decide
  unfold runLength
  rw [show min e.maxChunk (nf - fi) = (min e.maxChunk (nf - fi) - 1) + 1 by omega, countEnc, if_pos he]
  omega

/-! ## The field steps of a run -/

/-- CF holds the values of the fields stepped so far. -/
def CfHolds (cf : Cells 32) (vals : List Word) : Prop :=
  Memory.wf cf = true ∧ ∀ i (h : i < vals.length), cf.read i = vals[i]

/-- The next field's value is stored behind them. -/
theorem CfHolds.snoc {cf : Cells 32} {vals : List Word} (h : CfHolds cf vals) (v : Word) :
    CfHolds (cf.write vals.length v) (vals ++ [v]) := by
  refine ⟨Memory.wf_write _ _ h.1, fun i hi => ?_⟩
  rw [Cells.read_write h.1]
  by_cases he : i = vals.length
  · subst he; simp
  · have hlt : i < vals.length := by simp at hi; omega
    rw [if_neg he, h.2 i hlt]; simp [hlt]

/-- The descriptors stand in a frame definition from number i on. -/
def DefAt (fd : Cells 8) (i : Nat) (ds : List Descriptor) : Prop :=
  ∀ m (h : m < ds.length), decodeDescriptor (fd.read (i + m)) = .ok ds[m]

theorem DefAt.head {fd : Cells 8} {i : Nat} {d : Descriptor} {ds : List Descriptor} (h : DefAt fd i (d :: ds)) :
    decodeDescriptor (fd.read i) = .ok d := h 0 (Nat.zero_lt_succ _)

theorem DefAt.drop {fd : Cells 8} {i : Nat} {ds : List Descriptor} (h : DefAt fd i ds) (n : Nat) :
    DefAt fd (i + n) (ds.drop n) := by
  intro m hm
  have := h (n + m) (by simp at hm; omega)
  simpa [Nat.add_assoc] using this

theorem DefAt.take {fd : Cells 8} {i : Nat} {ds : List Descriptor} (h : DefAt fd i ds) (n : Nat) :
    DefAt fd i (ds.take n) := by
  intro m hm
  have := h m (by simp at hm; omega)
  simpa using this

section
variable {k : Kind} {s : State} {bp fi : Nat}

/-- The operands of a field step are those that the reading gives (43 R176). -/
theorem fieldOperands_midFrame {stubs : List Pred} {cf : Cells 32} {raw : List Word} {rj : Nat} {vals : List Word}
    (hc : CfHolds cf vals) (hl : vals.length = fi + rj) (d : Descriptor) (r : Word) :
    fieldOperands (midFrame k s stubs bp cf fi raw rj) d.enc d.sg (fi + rj) r = readingOperands s k d vals r := by
  simp only [fieldOperands, readingOperands, midFrame_frame, midFrame_params, midFrame_hist, midFrame_skip,
    midFrame_cfg, midFrame_cf, hl]
  congr 1
  unfold motor0Operand
  by_cases hv : (s.cfg.m0idx.get k).valid = true
  · simp only [hv, true_and, if_true]
    by_cases hlt : (s.cfg.m0idx.get k).index.toNat < vals.length
    · rw [if_pos (by omega), hc.2 _ hlt, List.getElem?_eq_getElem hlt]
    · rw [if_neg (by omega), List.getElem?_eq_none (by omega)]
  · simp [hv]

/-- All that the field step of the next field of a run can answer. -/
theorem predictStep_midFrame (hb : bp < 2 ^ 35) {stubs : List Pred} {cf : Cells 32} {pre rest vals : List Word}
    {r : Word} {d : Descriptor} (hc : CfHolds cf vals) (hl : vals.length = fi + pre.length)
    (hd : decodeDescriptor ((s.cfg.fd.get k).read (fi + pre.length)) = .ok d) :
    (∃ v, predict d.pred s.cfg.hdr (readingOperands s k d vals r) = some v ∧
      predictStep (midFrame k s stubs bp cf fi (pre ++ r :: rest) pre.length) =
        .next (if rest = [] then
          midFrame k s (stubs ++ stubOf d.pred) bp (cf.write vals.length v) (fi + (pre.length + 1)) [] 0
        else
          midFrame k s (stubs ++ stubOf d.pred) bp (cf.write vals.length v) fi (pre ++ r :: rest) (pre.length + 1))) ∨
    (predict d.pred s.cfg.hdr (readingOperands s k d vals r) = none ∧
      predictStep (midFrame k s stubs bp cf fi (pre ++ r :: rest) pre.length) =
        .next { badFrame k .invalidHeaderReference bp vals.length stubs s with
          run.cf := cf, frame := FrameState.idle }) := by
  have hi : State.fieldIndex (midFrame k s stubs bp cf fi (pre ++ r :: rest) pre.length) = fi + pre.length := rfl
  have hps : predictStep (midFrame k s stubs bp cf fi (pre ++ r :: rest) pre.length) =
      fieldStep d.pred d.sg d.enc (midFrame k s stubs bp cf fi (pre ++ r :: rest) pre.length) := by
    simp only [predictStep, fetchDescriptor, State.frameFd, hi, midFrame_cfg, midFrame_frame, hd, execPredHalf_eq]
  have hbn : (BitVec.ofNat 35 bp).toNat = bp := by rw [BitVec.toNat_ofNat]; exact Nat.mod_eq_of_lt hb
  have hstep := fieldStep_inside (p := d.pred) (sg := d.sg) (e := d.enc) (raw := r)
    (midFrame_mode k s stubs bp cf fi (pre ++ r :: rest) pre.length) (by simp)
  rw [hi, fieldOperands_midFrame hc hl d r, midFrame_cfg, midFrame_diagnose, midFrame_abandon, midFrame_bp, hbn,
    ← hl] at hstep
  rw [hps]
  rcases hstep with ⟨v, hv, he⟩ | h
  · refine .inl ⟨v, hv, he.trans (congrArg Host.Outcome.next ?_)⟩
    simp only [midFrame_cf, midFrame_frame, nextField]
    by_cases hr : rest = []
    · subst hr; simp [midFrame]
    · have : 0 < rest.length := List.length_pos_iff.mpr hr
      simp [midFrame, hr]
  · exact .inr h

/-- The field steps of a run against their reading. -/
theorem predictRun_spec (hb : bp < 2 ^ 35) (raws : List Word) (hne : raws ≠ []) :
    ∀ (stubs : List Pred) (cf : Cells 32) (pre vals : List Word) (ds : List Descriptor), CfHolds cf vals →
      vals.length = fi + pre.length → ds.length = raws.length → DefAt (s.cfg.fd.get k) (fi + pre.length) ds →
      match readFields s k bp ds raws vals stubs with
      | .good vals' bp' stubs' => bp' = bp ∧ vals'.length = vals.length + raws.length ∧ ∃ cf', CfHolds cf' vals' ∧
          predictRun raws.length (midFrame k s stubs bp cf fi (pre ++ raws) pre.length) =
            .next (midFrame k s stubs' bp cf' (fi + (pre.length + raws.length)) [] 0)
      | .bad x pos i stubs' => ∃ cf', Memory.wf cf' = true ∧
          predictRun raws.length (midFrame k s stubs bp cf fi (pre ++ raws) pre.length) =
            .next { badFrame k x pos i stubs' s with run.cf := cf', frame := FrameState.idle } := by
  induction raws with
  | nil => exact absurd rfl hne
  | cons r rest ih =>
    intro stubs cf pre vals ds hc hl hd hdef
    cases ds with
    | nil => simp at hd
    | cons d ds =>
      simp only [List.length_cons, predictRun, midFrame_mode, if_true, readFields]
      rcases predictStep_midFrame (rest := rest) (r := r) (stubs := stubs) hb hc hl hdef.head with ⟨v, hv, he⟩ | ⟨hv, he⟩
      · rw [hv, he]
        simp only [andThen]
        by_cases hr : rest = []
        · subst hr
          have hds : ds = [] := by simpa using hd
          subst hds
          exact ⟨rfl, by simp, _, hc.snoc v, rfl⟩
        · rw [if_neg hr]
          have hrec := ih hr (stubs ++ stubOf d.pred) (cf.write vals.length v) (pre ++ [r]) (vals ++ [v]) ds
            (hc.snoc v) (by simp; omega) (by simpa using hd) (by simpa [Nat.add_assoc] using hdef.drop 1)
          revert hrec
          simp only [List.append_assoc, List.singleton_append, List.length_append, List.length_singleton]
          cases readFields s k bp ds rest (vals ++ [v]) (stubs ++ stubOf d.pred) with
          | good vals' bp' stubs' =>
            rintro ⟨h1, h2, cf', h3, h4⟩
            refine ⟨h1, by omega, cf', h3, ?_⟩
            rw [h4, show pre.length + 1 + rest.length = pre.length + (rest.length + 1) by omega]
          | bad x pos i stubs' => exact id
      · rw [hv, he]
        refine ⟨cf, hc.1, ?_⟩
        simp only [andThen]
        cases rest.length with
        | zero => rfl
        | succ n => simp [predictRun, badFrame]

/-! ## The field loop -/

/-- The run at a field index against the list of descriptors (43 R174). -/
theorem runLength_eq_headRun {fd : Cells 8} {nf : Nat} {d : Descriptor} {ds : List Descriptor}
    (hdef : DefAt fd fi (d :: ds)) (hlen : fi + (d :: ds).length = nf) :
    runLength d.enc fd nf fi = headRun d ds := by
  have key : ∀ (l : List Descriptor) (i m : Nat), DefAt fd i l → m ≤ l.length →
      countEnc d.enc fd m i = min m (l.takeWhile fun d' => decide (d'.enc = d.enc)).length := by
    intro l
    induction l with
    | nil => intro i m _ hm; simp at hm; subst hm; rfl
    | cons a l ih =>
      intro i m hd hm
      cases m with
      | zero => simp [countEnc]
      | succ m =>
        have h0 := hasEnc_of_decode (hd 0 (by simp)) d.enc
        simp only [Nat.add_zero, List.getElem_cons_zero] at h0
        rw [countEnc, h0]
        by_cases he : a.enc = d.enc
        · simp only [he, decide_true, if_true, List.takeWhile_cons, List.length_cons]
          rw [ih (i + 1) m (hd.drop 1) (by simpa using hm)]
          omega
        · simp [he]
  have hle := (List.takeWhile_sublist (l := d :: ds) fun d' => decide (d'.enc = d.enc)).length_le
  unfold runLength headRun
  rw [key (d :: ds) fi _ hdef (by simp at hlen ⊢; omega)]
  omega

/-- A run has one field or more, at most MAXCHUNK, and no more than are left. -/
theorem headRun_bounds (d : Descriptor) (ds : List Descriptor) :
    1 ≤ headRun d ds ∧ headRun d ds ≤ d.enc.maxChunk ∧ headRun d ds ≤ (d :: ds).length := by
  have hm : 1 ≤ d.enc.maxChunk := by cases d.enc <;> decide
  have hle := (List.takeWhile_sublist (l := d :: ds) fun d' => decide (d'.enc = d.enc)).length_le
  refine ⟨?_, by unfold headRun; omega, by unfold headRun; omega⟩
  simp [headRun]; omega

/-- A frame that an exception has ended stays as it is. -/
theorem frameRuns_done (n : Nat) {t : State} (h : t.run.mode ≠ .inframe) : frameRuns n t = .next t := by
  cases n <;> simp [frameRuns, closeFrame, h]

theorem badFrame_not_inside (k : Kind) (x : Exc) (pos i : Nat) (stubs : List Pred) (s : State) :
    (badFrame k x pos i stubs s).run.mode ≠ .inframe := by
  cases x <;> simp [badFrame]

/-- All that the decode of a run can answer from inside a frame. -/
theorem decodeStep_midFrame {stubs : List Pred} {cf : Cells 32} {d : Descriptor} {ds : List Descriptor}
    (hb : bp < 2 ^ 35) (hdef : DefAt (s.cfg.fd.get k) fi (d :: ds))
    (hlen : fi + (d :: ds).length = (s.cfg.nf.get k).toNat) :
    (∃ ws bp', decoderOf d.enc s.stream bp (headRun d ds) = .ok ws bp' ∧
      decodeStep (midFrame k s stubs bp cf fi [] 0) = .next (midFrame k s stubs bp' cf fi ws 0)) ∨
    (∃ x pos, decoderOf d.enc s.stream bp (headRun d ds) = .raised x pos ∧
      decodeStep (midFrame k s stubs bp cf fi [] 0) =
        .next { badFrame k x pos fi stubs s with run.cf := cf, frame := FrameState.idle }) := by
  have hbn : (BitVec.ofNat 35 bp).toNat = bp := by rw [BitVec.toNat_ofNat]; exact Nat.mod_eq_of_lt hb
  have hrl := runLength_eq_headRun hdef hlen
  have hds : decodeStep (midFrame k s stubs bp cf fi [] 0) =
      decodeRun d.enc (decoderOf d.enc) (midFrame k s stubs bp cf fi [] 0) := by
    simp only [decodeStep, fetchDescriptor, State.frameFd, midFrame_frame, midFrame_cfg, hdef.head, execEncHalf_eq]
  have hdec := decodeRun_inside (e := d.enc) (dec := decoderOf d.enc) (midFrame_mode k s stubs bp cf fi [] 0) rfl
    (by have := (headRun_bounds d ds).1; simp [State.frameFd, State.frameNf, hrl]; omega)
  simp only [State.frameFd, State.frameNf, midFrame_frame, midFrame_cfg, hrl, midFrame_stream, midFrame_bp, hbn,
    midFrame_abandon] at hdec
  rw [hds]
  rcases hdec with ⟨ws, bp', h1, h2⟩ | h
  · refine .inl ⟨ws, bp', h1, h2.trans (congrArg Host.Outcome.next ?_)⟩
    simp [setBp, midFrame]
  · exact .inr h

/-- The field loop against the reading of the frame definition. -/
theorem frameRuns_spec (n : Nat) :
    ∀ (fi bp : Nat) (ds : List Descriptor) (vals : List Word) (stubs : List Pred) (cf : Cells 32), CfHolds cf vals →
      vals.length = fi → fi + ds.length = (s.cfg.nf.get k).toNat → DefAt (s.cfg.fd.get k) fi ds → ds.length ≤ n →
      bp ≤ 8 * s.cfg.buflen.toNat →
      match readRuns s k n bp ds vals stubs with
      | .good vals' bp' stubs' => ∃ cf', CfHolds cf' vals' ∧ vals'.length = (s.cfg.nf.get k).toNat ∧ bp ≤ bp' ∧
          bp' ≤ 8 * s.cfg.buflen.toNat ∧
          frameRuns n (midFrame k s stubs bp cf fi [] 0) =
            closeFrame (midFrame k s stubs' bp' cf' (s.cfg.nf.get k).toNat [] 0)
      | .bad x pos i stubs' => ∃ cf', Memory.wf cf' = true ∧
          frameRuns n (midFrame k s stubs bp cf fi [] 0) =
            .next { badFrame k x pos i stubs' s with run.cf := cf', frame := FrameState.idle } := by
  have hbuf := s.cfg.buflen.isLt
  induction n with
  | zero =>
    intro fi bp ds vals stubs cf hc hl hnf hdef hn hb
    have hds : ds = [] := by simpa using hn
    subst hds
    simp at hnf
    exact ⟨cf, hc, by omega, le_refl _, hb, by rw [hnf]; rfl⟩
  | succ n ih =>
    intro fi bp ds vals stubs cf hc hl hnf hdef hn hb
    cases ds with
    | nil =>
      simp at hnf
      simp only [readRuns, frameRuns, midFrame_mode, midFrame_frame, State.frameNf, midFrame_cfg]
      rw [if_neg (by simp [hnf])]
      exact ⟨cf, hc, by omega, le_refl _, hb, by rw [hnf]⟩
    | cons d ds =>
      obtain ⟨hr1, hr2, hr3⟩ := headRun_bounds d ds
      have hin : fi < (s.cfg.nf.get k).toNat := by simp at hnf; omega
      have hfw := decoderOf_forward d.enc s.stream bp (headRun d ds) hb
      simp only [readRuns, frameRuns, midFrame_mode, midFrame_frame, State.frameNf, midFrame_cfg, true_and, hin, if_true]
      rcases decodeStep_midFrame (stubs := stubs) (cf := cf) (by omega : bp < 2 ^ 35) hdef hnf with
        ⟨ws, bp', hd1, hd2⟩ | ⟨x, pos, hd1, hd2⟩
      · have hwl := decoderOf_length hr1 hr2 hd1
        rw [hd1] at hfw ⊢
        have hb' : bp' ≤ 8 * s.cfg.buflen.toNat := hfw.2
        have hps := predictRun_spec (k := k) (s := s) (bp := bp') (fi := fi) (by omega) ws
          (List.ne_nil_of_length_pos (by omega)) stubs cf [] vals ((d :: ds).take (headRun d ds)) hc (by simp [hl])
          (by simp at hr3 ⊢; omega) (hdef.take _)
        simp only [List.nil_append, List.length_nil, Nat.zero_add] at hps
        simp only [runStep, hd2, andThen, midFrame_frame]
        revert hps
        cases readFields s k bp' ((d :: ds).take (headRun d ds)) ws vals stubs with
        | bad x pos i stubs' =>
          rintro ⟨cf', h1, h2⟩
          refine ⟨cf', h1, ?_⟩
          rw [h2]
          exact frameRuns_done n (badFrame_not_inside k x pos i stubs' s)
        | good vals' bp'' stubs' =>
          rintro ⟨rfl, h2, cf', h3, h4⟩
          rw [h4, hwl]
          have hrec := ih (fi + headRun d ds) bp'' ((d :: ds).drop (headRun d ds)) vals' stubs' cf' h3 (by omega)
            (by simp at hnf hr3 ⊢; omega) (hdef.drop _) (by simp at hn hr3 ⊢; omega) hb'
          revert hrec
          simp only []
          cases readRuns s k n bp'' ((d :: ds).drop (headRun d ds)) vals' stubs' with
          | good v2 b2 s2 =>
            rintro ⟨cf2, a1, a2, a3, a4, a5⟩
            exact ⟨cf2, a1, a2, le_trans hfw.1 a3, a4, a5⟩
          | bad x pos i s2 => exact id
      · rw [hd1, hl]
        refine ⟨cf, hc.1, ?_⟩
        simp only [runStep, hd2, andThen]
        exact frameRuns_done n (badFrame_not_inside k x pos fi stubs s)

end

/-! ## The ERR before a frame plays no part in it (60 R206) -/

/-- Two outcomes of one sequencer step, from states that differ in ERR at most. -/
def AlikeButErr (e : ErrCode) (o o' : Out) : Prop :=
  o' = o ∨ ∃ t, t.run.mode = .inframe ∧ o = .next t ∧ o' = .next (withErr e t)

theorem decodeRun_withErr (c : ErrCode) (e : Enc) (dec) (s : State) :
    AlikeButErr c (decodeRun e dec s) (decodeRun e dec (withErr c s)) := by
  unfold decodeRun
  show AlikeButErr c _ (if s.run.mode = .inframe ∧ s.frame.raw = [] ∧ 0 < runLength e s.frameFd s.frameNf s.frame.fi then
    match dec s.stream s.run.bp.toNat (runLength e s.frameFd s.frameNf s.frame.fi) with
    | .ok ws bp => .next { setBp bp (withErr c s) with frame.raw := ws, frame.rj := 0 }
    | .raised x p => .next (takeException x p s.frame.fi (withErr c s))
    else .fault .notSequenced)
  split
  next h =>
    cases dec s.stream s.run.bp.toNat (runLength e s.frameFd s.frameNf s.frame.fi) with
    | ok ws bp => exact .inr ⟨{ setBp bp s with frame.raw := ws, frame.rj := 0 }, h.1, rfl, rfl⟩
    | raised x p => exact .inl (by simp only [takeException_withErr])
  next => exact .inl rfl

theorem fieldStep_withErr (c : ErrCode) (p : Pred) (sg : Bool) (e : Enc) (s : State) :
    AlikeButErr c (fieldStep p sg e s) (fieldStep p sg e (withErr c s)) := by
  unfold fieldStep
  show AlikeButErr c _ (if s.run.mode = .inframe then
    match s.frame.raw[s.frame.rj]? with
    | some raw =>
      match predict p s.cfg.hdr (fieldOperands s e sg s.fieldIndex raw) with
      | some v =>
        .next { diagnose p (withErr c s) with run.cf := s.run.cf.write s.fieldIndex v, frame := nextField s.frame }
      | none => .next (takeException .invalidHeaderReference s.run.bp.toNat s.fieldIndex (withErr c s))
    | none => .fault .notSequenced
  else .fault .notSequenced)
  split
  next h =>
    cases s.frame.raw[s.frame.rj]? with
    | none => exact .inl rfl
    | some raw =>
      simp only [takeException_withErr]
      cases predict p s.cfg.hdr (fieldOperands s e sg s.fieldIndex raw) with
      | none => exact .inl rfl
      | some v =>
        refine .inr ⟨{ diagnose p s with run.cf := s.run.cf.write s.fieldIndex v, frame := nextField s.frame },
          ?_, rfl, ?_⟩
        · cases p <;> exact h
        · cases p <;> rfl
  next => exact .inl rfl

theorem decodeStep_withErr (c : ErrCode) (s : State) : AlikeButErr c (decodeStep s) (decodeStep (withErr c s)) := by
  unfold decodeStep
  show AlikeButErr c _ (match fetchDescriptor s s.frame.fi with
    | .ok d => execEncHalf d (withErr c s)
    | .error _ => .fault .illegalDescriptorFetched)
  cases fetchDescriptor s s.frame.fi with
  | error _ => exact .inl rfl
  | ok d =>
    simp only [execEncHalf_eq]
    exact decodeRun_withErr c _ _ s

theorem predictStep_withErr (c : ErrCode) (s : State) : AlikeButErr c (predictStep s) (predictStep (withErr c s)) := by
  unfold predictStep
  show AlikeButErr c _ (match fetchDescriptor s s.fieldIndex with
    | .ok d => execPredHalf d (withErr c s)
    | .error _ => .fault .illegalDescriptorFetched)
  cases fetchDescriptor s s.fieldIndex with
  | error _ => exact .inl rfl
  | ok d =>
    simp only [execPredHalf_eq]
    exact fieldStep_withErr c _ _ _ s

theorem predictRun_withErr (c : ErrCode) (n : Nat) : ∀ s, s.run.mode = .inframe →
    AlikeButErr c (predictRun n s) (predictRun n (withErr c s)) := by
  induction n with
  | zero => exact fun s h => .inr ⟨s, h, rfl, rfl⟩
  | succ n ih =>
    intro s h
    have h' : (withErr c s).run.mode = .inframe := h
    rw [predictRun, predictRun, if_pos h, if_pos h']
    rcases predictStep_withErr c s with e | ⟨t, ht, e, e'⟩
    · exact .inl (by rw [e])
    · rw [e, e']; exact ih t ht

theorem runStep_withErr (c : ErrCode) (s : State) : AlikeButErr c (runStep s) (runStep (withErr c s)) := by
  unfold runStep
  rcases decodeStep_withErr c s with e | ⟨t, ht, e, e'⟩
  · exact .inl (by rw [e])
  · rw [e, e']; exact predictRun_withErr c _ t ht

/-- A frame's outcome does not depend on the ERR it starts with. -/
theorem frameRuns_withErr (c : ErrCode) (n : Nat) : ∀ s, s.run.mode = .inframe →
    frameRuns n (withErr c s) = frameRuns n s := by
  have close : ∀ s, s.run.mode = .inframe → closeFrame (withErr c s) = closeFrame s := by
    intro s h
    have h' : (withErr c s).run.mode = .inframe := h
    rw [closeFrame, closeFrame, if_pos h, if_pos h', finishFrame, finishFrame, takeException_withErr]
    rfl
  induction n with
  | zero => exact close
  | succ n ih =>
    intro s h
    rw [frameRuns, frameRuns]
    show (if s.run.mode = .inframe ∧ s.frame.fi < s.frameNf then andThen (runStep (withErr c s)) (frameRuns n)
      else closeFrame (withErr c s)) = _
    rw [close s h]
    split
    · rcases runStep_withErr c s with e | ⟨t, ht, e, e'⟩
      · rw [e]
      · rw [e, e']; exact ih t ht
    · rfl

/-! ## The commit -/

theorem storeFrom_wf (vals : List Word) (i : Nat) {dst : Cells 32} (h : Memory.wf dst = true) :
    Memory.wf (storeFrom i vals dst) = true := by
  induction vals generalizing i dst with
  | nil => exact h
  | cons v vs ih => exact ih _ (Memory.wf_write _ _ h)

/-- Reading after values are stored at numbers i, i+1, ... -/
theorem storeFrom_read (vals : List Word) (i j : Nat) {dst : Cells 32} (h : Memory.wf dst = true) :
    (storeFrom i vals dst).read j =
      if h : i ≤ j ∧ j < i + vals.length then vals[j - i]'(by omega) else dst.read j := by
  induction vals generalizing i dst with
  | nil => simp [storeFrom]
  | cons v vs ih =>
    rw [storeFrom, ih _ (Memory.wf_write _ _ h)]
    by_cases h1 : i + 1 ≤ j ∧ j < i + 1 + vs.length
    · rw [dif_pos h1, dif_pos (by simp; omega)]
      simp [show j - i = j - (i + 1) + 1 by omega]
    · rw [dif_neg h1, Cells.read_write h]
      by_cases h2 : j = i
      · subst h2; simp
      · rw [if_neg h2, dif_neg (by simp; omega)]

/-- What a commit copies from CF are the frame's values. -/
theorem copy_eq_storeFrom {cf : Cells 32} {vals : List Word} (hc : CfHolds cf vals) {dst : Cells 32}
    (h : Memory.wf dst = true) : Cells.copy cf vals.length dst = storeFrom 0 vals dst := by
  apply Cells.read_ext (Memory.wf_copy _ _ h) (storeFrom_wf _ _ h)
  intro i
  rw [Cells.read_copy h, storeFrom_read _ _ _ h]
  by_cases hi : i < vals.length
  · rw [if_pos hi, dif_pos (by omega), hc.2 _ hi]; simp
  · rw [if_neg hi, dif_neg (by omega)]

/-- A definition whose descriptors are all legal, as a list. -/
theorem definition_at (fd : Cells 8) (n : Nat) (h : ∀ i < n, descriptorOk (fd.read i) = true) :
    let l := (fd.take n).filterMap fun d => (decodeDescriptor d).toOption
    l.length = n ∧ DefAt fd 0 l := by
  induction n with
  | zero => exact ⟨rfl, fun m hm => absurd hm (by simp [Cells.take])⟩
  | succ n ih =>
    obtain ⟨h1, h2⟩ := ih fun i hi => h i (by omega)
    obtain ⟨x, hx⟩ := descriptorOk_decodes (h n (by omega))
    have e : (fd.take (n + 1)).filterMap (fun d => (decodeDescriptor d).toOption) =
        ((fd.take n).filterMap fun d => (decodeDescriptor d).toOption) ++ [x] := by
      simp [Cells.take, List.range_succ, hx, Except.toOption]
    simp only [e]
    refine ⟨by simp [h1], fun m hm => ?_⟩
    by_cases hmn : m < n
    · rw [List.getElem_append_left (by omega)]; exact h2 m (by omega)
    · have : m = n := by simp [h1] at hm; omega
      subst this
      rw [List.getElem_append_right (by omega)]; simp [h1, hx]

end Sys2Proof.Machine
end

