-- ==== Sys2Proof/Laws/Groups.lean ====
section
/-! SUPPORT. Tagged groups (41 R126, R128, R130, R132): what a slot and a row of slots can do. -/

namespace Sys2Proof.Machine

/-- A field that fits is its bits, sign-extended. -/
theorem slotField_ok {st : Stream} {n bp : Nat} (h : bp + n ≤ 8 * st.len) :
    slotField st n bp = .ok (slotValue st.buf bp n) (bp + n) := by
  unfold slotField slotValue
  by_cases hn : n = 0
  · subst hn; simp [memRead]
  · rw [if_neg hn]
    rcases readField_cases st bp n with ⟨_, e⟩ | ⟨hlt, _⟩
    · rw [e]; simp [sext, wrap, BitVec.signExtend]
    · omega

/-- A field that does not fit is EndOfData where it starts. -/
theorem slotField_end {st : Stream} {n bp : Nat} (h0 : bp ≤ 8 * st.len) (h : 8 * st.len < bp + n) :
    slotField st n bp = .raised .endOfData bp := by
  unfold slotField
  rw [if_neg (by omega)]
  rcases readField_cases st bp n with ⟨hlt, _⟩ | ⟨_, e⟩
  · omega
  · rw [e]; rfl

theorem slotPos_succ (w : Nat → Nat) (a i : Nat) : slotPos w a (i + 1) = slotPos w a i + w i := rfl

theorem slotPos_mono (w : Nat → Nat) (a : Nat) {i j : Nat} (h : i ≤ j) : slotPos w a i ≤ slotPos w a j := by
  induction h with
  | refl => exact le_refl _
  | step _ ih => rw [Nat.succ_eq_add_one, slotPos_succ]; omega

/-- A row of fields that all fit: their values in order, each at its own position. -/
theorem readSlots_fields {st : Stream} {w : Nat → Nat} {a : Nat} (n i : Nat) (h : slotPos w a (i + n) ≤ 8 * st.len) :
    readSlots (fun j => slotField st (w j)) (List.range' i n) (slotPos w a i) =
      .ok ((List.range' i n).map fun j => slotValue st.buf (slotPos w a j) (w j)) (slotPos w a (i + n)) := by
  induction n generalizing i with
  | zero => rfl
  | succ n ih =>
    have hs : i + 1 + n = i + (n + 1) := by omega
    have h1 : slotPos w a i + w i ≤ 8 * st.len := by
      rw [← slotPos_succ]; exact le_trans (slotPos_mono w a (by omega)) h
    have hrec := ih (i + 1) (by rw [hs]; exact h)
    rw [slotPos_succ] at hrec
    simp only [List.range'_succ, readSlots, slotField_ok h1, Rd.andThen_ok, hrec, List.map_cons, hs]

/-- A row of fields of which one does not fit: EndOfData at the first such. -/
theorem readSlots_fields_end {st : Stream} {w : Nat → Nat} {a : Nat} (n i j : Nat) (h1 : i ≤ j) (h2 : j < i + n)
    (h3 : slotPos w a j ≤ 8 * st.len) (h4 : 8 * st.len < slotPos w a (j + 1)) :
    readSlots (fun j => slotField st (w j)) (List.range' i n) (slotPos w a i) =
      .raised .endOfData (slotPos w a j) := by
  induction n generalizing i with
  | zero => omega
  | succ n ih =>
    by_cases hij : i = j
    · subst hij
      rw [slotPos_succ] at h4
      simp only [List.range'_succ, readSlots, slotField_end h3 h4, Rd.andThen_raised]
    · have h5 : slotPos w a i + w i ≤ 8 * st.len := by
        rw [← slotPos_succ]; exact le_trans (slotPos_mono w a (by omega)) h3
      have hrec := ih (i + 1) (by omega) (by omega)
      rw [slotPos_succ] at hrec
      simp only [List.range'_succ, readSlots, slotField_ok h5, Rd.andThen_ok, hrec, Rd.andThen_raised]

/-- The width class of a slot as a digit of the tag byte. -/
theorem widthClass_eq (t : Byte) (j : Nat) : widthClass t j = t.toNat / 4 ^ j % 4 := by
  simp [widthClass, BitVec.extractLsb'_toNat, Nat.shiftRight_eq_div_pow, pow_mul]

/-- A tagged group with its tag byte in the buffer: the slots from the byte after it. -/
theorem tagged_at {st : Stream} {bp want : Nat} {t : Byte} {js : List Nat} {slot : Byte → Nat → Nat → Rd Word}
    (h : BytesAt st ((bp + 7) / 8) [t]) :
    tagged st bp want js slot =
      (readSlots (slot t) js (8 * ((bp + 7) / 8 + 1))).andThen fun vs bp' => .ok (vs.take want) bp' := by
  rw [tagged, rdbyte_at h.head.1, h.head.2]; rfl

/-- A tagged group with its tag byte past the end. -/
theorem tagged_end {st : Stream} {bp want : Nat} {js : List Nat} {slot : Byte → Nat → Nat → Rd Word}
    (h : st.len ≤ (bp + 7) / 8) : tagged st bp want js slot = .raised .endOfData (8 * ((bp + 7) / 8)) := by
  rw [tagged, rdbyte_end h]; rfl

end Sys2Proof.Machine
end

