-- ==== Sys2Proof/Tests/Slice0.lean ====
section
/-! SUPPORT. Tests: ill-formed terms refused, one written-out word for every constructor, the worked examples of the
spec as single steps, and for every statement with hypotheses a concrete case that meets them. The expected values are
those of spec/ (the Example of each rule and 95_test_vectors.md), not the model's. -/

namespace Sys2Proof.Tests

open Sys2Proof Sys2Proof.Machine

/-! ## Helpers -/

/-- Bytes stored from a number on. -/
def cells : Nat → List Byte → Cells 8
  | _, [] => []
  | i, b :: bs => Cells.write (cells (i + 1) bs) i b

/-- A machine in BETWEEN over the given bytes with the cursor at a bit address. -/
def ready (bytes : List Byte) (bp : Nat) : State :=
  { State.reset with
    buf := cells 0 bytes
    cfg.buflen := BitVec.ofNat 32 bytes.length
    run.mode := .between
    run.bp := BitVec.ofNat 35 bp }

/-- The same with header constants, their valid bits and the PA registers set. -/
def predReady (hdr : BitVec 3) (valid : BitVec 3) (raw last llast m0 skip : Word) : State :=
  { ready [] 0 with
    cfg.hdr := { valid := hdr, minthrottle := 1070, vbatref := 4095, motorLo := 158, motorHi := 2000, fwvariant := 0 }
    run.pa := { raw := raw, last := last, llast := llast, m0 := m0, skip := skip, valid := valid } }

/-- The same with the frame definition of MAIN. -/
def frameReady (bytes : List Byte) (bp : Nat) (fds : List Byte) : State :=
  { ready bytes bp with
    cfg.fd := (State.reset.cfg.fd).set .main (cells 0 fds)
    cfg.nf := (State.reset.cfg.nf).set .main (BitVec.ofNat 16 fds.length) }

/-- The same inside FRAME MAIN, at a field index with raw words waiting. -/
def inside (bytes : List Byte) (bp : Nat) (fds : List Byte) (fi : Nat) (raw : List Word) (rj : Nat) : State :=
  { frameReady bytes bp fds with
    run.mode := .inframe
    frame := { kind := .main, fi := fi, bp0 := 0, raw := raw, rj := rj } }

/-- One value of the next state. -/
def got {α : Type} (f : State → α) : Out → Option α
  | .next s => some (f s)
  | .fault _ => none
  | .refused _ => none

/-- W[0], WCNT, BP and ERR: what a reading command leaves. -/
def wOut (s : State) : Word × BitVec 4 × BitAddr × ErrCode := (s.run.w.w0, s.run.wcnt, s.run.bp, s.run.status.err)

/-- PVAL, MODE and ERR: what a PRED command leaves. -/
def pOut (s : State) : Word × Mode × ErrCode := (s.run.pval, s.run.mode, s.run.status.err)

/-- The invariant as a computation. -/
def invCheck (s : State) : Bool :=
  let ks : List Kind := [.main, .slow, .gps, .gpshome]
  Memory.wf s.buf && Memory.wf s.run.cf && Memory.wf s.run.ev.val
  && ks.all (fun k => Memory.wf (s.cfg.fd.get k) && Memory.wf (s.run.hist.get k).l && Memory.wf (s.run.hist.get k).ll)
  && decide (s.run.mode ≠ .inframe) && decide (s.frame = FrameState.idle)
  && decide (s.run.bp.toNat ≤ 8 * s.cfg.buflen.toNat) && decide (s.run.mode = .config → s.run.bp = 0)
  && ks.all (fun k => decide ((s.cfg.nf.get k).toNat ≤ s.params.nfmax))
  && ks.all (fun k => (List.range (s.cfg.nf.get k).toNat).all fun i => descriptorOk ((s.cfg.fd.get k).read i))
  && ks.all (fun k => decide ((s.run.hist.get k).vll = true → (s.run.hist.get k).vl = true))
  && decide (s.run.ev.seq = s.run.stats.nframes.get .main + s.run.stats.nframes.get .slow
      + s.run.stats.nframes.get .gps + s.run.stats.nframes.get .gpshome)
  && decide (s.run.wcnt.toNat ≤ 8)
  && (List.range 8).all fun j => decide (s.run.wcnt.toNat ≤ j → s.run.w.get j = 0)

theorem inv_of_check {s : State} (h : invCheck s = true) : Inv s := by
  simp only [invCheck, Bool.and_eq_true, decide_eq_true_eq, List.all_eq_true, List.mem_range] at h
  obtain ⟨⟨⟨⟨⟨⟨⟨⟨⟨⟨⟨⟨⟨h1, h2⟩, h3⟩, h4⟩, h5⟩, h6⟩, h7⟩, h8⟩, h9⟩, h10⟩, h11⟩, h12⟩, h13⟩, h14⟩ := h
  have all : ∀ k : Kind, k ∈ [Kind.main, .slow, .gps, .gpshome] := fun k => by cases k <;> simp
  refine ⟨⟨h1, fun k => (h4 k (all k)).1.1, h2, fun k => (h4 k (all k)).1.2, fun k => (h4 k (all k)).2, h3⟩, ⟨h5, h6⟩,
    ⟨h7, h8⟩, ⟨fun k => h9 k (all k), fun _ k i hi => h10 k (all k) i hi⟩, fun k => h11 k (all k), h12, h13, ?_⟩
  intro j hj
  by_cases hlt : j < 8
  · exact h14 j hlt hj
  · obtain ⟨m, rfl⟩ : ∃ m, j = m + 8 := ⟨j - 8, by omega⟩
    rfl

/-! ## Well-formedness: one ill-formed term for each check (30 R76 check 4) -/

theorem test_wf_refuses_count_33 : (Instr.rdbits 33).wf = false ∧ (Instr.rdabits 33).wf = false := by decide
theorem test_wf_refuses_want_0 : [Instr.decSvar 0, .decUvar 0, .decNeg14 0, .decTagvar 0, .decTag32 0, .decTag16 0,
    .decNull 0].map Instr.wf = [false, false, false, false, false, false, false] := by decide
theorem test_wf_refuses_want_above_maxchunk : [Instr.decSvar 2, .decUvar 2, .decNeg14 2, .decTagvar 9, .decTag32 4,
    .decTag16 5, .decNull 2].map Instr.wf = [false, false, false, false, false, false, false] := by decide

/-! ## Decoding: a word written out for every constructor (30 R71 to R75, R80 to R82) -/

theorem test_decode_sys : decode .command 0b0000000000000000 = .ok .start ∧
    decode .command 0b0000000100000000 = .ok .endStream ∧ decode .command 0b0000001000000000 = .ok .reset := by decide
theorem test_decode_br : decode .command 0b0001000000100000 = .ok (.rdbits 32) ∧
    decode .command 0x1108 = .ok (.rdabits 8) ∧ decode .command 0x1200 = .ok .rduvar ∧
    decode .command 0x1300 = .ok .rdsvar ∧ decode .command 0x1400 = .ok .align := by decide
theorem test_decode_dec : decode .command 0b0010000000000001 = .ok (.decSvar 1) ∧
    decode .command 0x2101 = .ok (.decUvar 1) ∧ decode .command 0x2201 = .ok (.decNeg14 1) ∧
    decode .command 0x2308 = .ok (.decTagvar 8) ∧ decode .command 0x2403 = .ok (.decTag32 3) ∧
    decode .command 0x2504 = .ok (.decTag16 4) ∧ decode .command 0x2601 = .ok (.decNull 1) := by decide
theorem test_decode_pred_low : decode .command 0b0011000010000000 = .ok (.predZero true) ∧
    decode .command 0x3100 = .ok (.predPrevious false) ∧ decode .command 0x3280 = .ok (.predStraightline true) ∧
    decode .command 0x3300 = .ok (.predAverage2 false) ∧ decode .command 0x3480 = .ok (.predMinthrottle true) ∧
    decode .command 0x3500 = .ok (.predMotor0 false) := by decide
theorem test_decode_pred_high : decode .command 0x3680 = .ok (.predIncrement true) ∧
    decode .command 0x3700 = .ok (.predHomelat false) ∧ decode .command 0x3880 = .ok (.predFifteenhundred true) ∧
    decode .command 0x3900 = .ok (.predVbatref false) ∧ decode .command 0x3A80 = .ok (.predLastmainframetime true) ∧
    decode .command 0x3B00 = .ok (.predMinmotor false) := by decide
theorem test_decode_frm : decode .command 0b0100000000000000 = .ok (.frame .main) ∧
    decode .command 0x4001 = .ok (.frame .slow) ∧ decode .command 0x4002 = .ok (.frame .gps) ∧
    decode .command 0x4003 = .ok (.frame .gpshome) := by decide
theorem test_decode_enc_halves : decode .encHalf 0b10000001 = .ok (.fdSvar true .previous) ∧
    decode .encHalf 0x10 = .ok (.fdUvar false .zero) ∧ decode .encHalf 0xA2 = .ok (.fdNeg14 true .straightline) ∧
    decode .encHalf 0x36 = .ok (.fdTagvar false .increment) ∧ decode .encHalf 0xC4 = .ok (.fdTag32 true .minthrottle) ∧
    decode .encHalf 0x53 = .ok (.fdTag16 false .average2) ∧ decode .encHalf 0xEB = .ok (.fdNull true .minmotor) := by
  decide
theorem test_decode_pred_halves_low : decode .predHalf 0b00010000 = .ok (.fdZero false .uvar) ∧
    decode .predHalf 0x81 = .ok (.fdPrevious true .svar) ∧ decode .predHalf 0xA2 = .ok (.fdStraightline true .neg14) ∧
    decode .predHalf 0x53 = .ok (.fdAverage2 false .tag16) ∧ decode .predHalf 0xC4 = .ok (.fdMinthrottle true .tag32) ∧
    decode .predHalf 0x35 = .ok (.fdMotor0 false .tagvar) := by decide
theorem test_decode_pred_halves_high : decode .predHalf 0x36 = .ok (.fdIncrement false .tagvar) ∧
    decode .predHalf 0x87 = .ok (.fdHomelat true .svar) ∧ decode .predHalf 0x18 = .ok (.fdFifteenhundred false .uvar) ∧
    decode .predHalf 0x99 = .ok (.fdVbatref true .uvar) ∧ decode .predHalf 0x6A = .ok (.fdLastmainframetime false .null) ∧
    decode .predHalf 0xEB = .ok (.fdMinmotor true .null) := by decide

/-- The first check of 30 R76 that fails, by name. -/
theorem test_decode_rejects_by_name : decode .command 0x10000 = .error .highBits ∧
    decode .command 0x5000 = .error .reservedClass ∧ decode .command 0x0300 = .error .reservedOp ∧
    decode .command 0x1021 = .error .badArg ∧ decode .command 0x2300 = .error .badArg ∧
    decode .command 0x2309 = .error .badArg ∧ decode .command 0x3001 = .error .badArg ∧
    decode .command 0x4004 = .error .badArg ∧ decode .encHalf 0x70 = .error .reservedEnc ∧
    decode .predHalf 0x0C = .error .reservedPred := by decide

/-! ## Reset (70 R230) and the placing of a word -/

theorem test_reset_storage : Memory.wf State.reset.buf = true ∧ Memory.wf State.reset.run.cf = true := by decide
theorem test_reset_status : portRead State.reset 1 = 0x40 ∧ portRead State.reset 0 = 0 := by decide
theorem test_placed_command_runs :
    got (fun s => s.run.mode) (step (State.reset.withFetchWord 16 0x0000)) = some .between := by decide
theorem test_placed_descriptor_runs :
    got (fun s => s.frame.raw) (step (State.reset.withFetchWord 8 0x60)) = some [0] := by decide

/-! ## System commands (43 R181 to R183) -/

theorem test_start_refuses_reserved_enc :
    got (fun s => (s.run.mode, s.run.status.err, s.run.errFi))
      (exec .start { frameReady [] 0 [0x7F] with run.mode := .config }) = some (.config, .illegalDescriptor, 0) := by
  decide
theorem test_end_then_read_is_illegal :
    got (fun s => (s.run.mode, s.run.status.err)) (exec .endStream (ready [0xA5] 0)) = some (.eos, .none) ∧
    got (fun s => (s.run.mode, s.run.status.err)) (exec (.rdbits 8) { ready [0xA5] 0 with run.mode := .eos }) =
      some (.eos, .illegalCommand) := by decide
theorem test_reset_leaves_fatal :
    got (fun s => (s.run.mode, portRead s 1)) (exec .reset { ready [0xA5] 3 with run.mode := .fatal }) =
      some (.config, 0x40) := by decide

/-! ## Bit Reader (40 R103 to R109) -/

theorem test_rdbits_example :
    got wOut (exec (.rdbits 3) (ready [0xA5, 0x3C] 0)) = some (5, 1, 3, .none) ∧
    got wOut (exec (.rdbits 4) (ready [0xA5, 0x3C] 8)) = some (3, 1, 12, .none) := by decide
theorem test_rdbits_past_the_end :
    got (fun s => (s.run.status.err, s.run.errBp, s.run.bp)) (exec (.rdbits 9) (ready [0xA5] 0)) =
      some (.endOfData, 0, 0) := by decide
theorem test_rdabits_example : got wOut (exec (.rdabits 8) (ready [0xA5, 0x3C] 3)) = some (0x3C, 1, 16, .none) := by
  decide
theorem test_align_example : got (fun s => s.run.bp) (exec .align (ready [0, 0] 12)) = some 16 := by decide
theorem test_rduvar_example : got wOut (exec .rduvar (ready [0xAC, 0x02] 0)) = some (300, 1, 16, .none) := by decide
theorem test_rduvar_malformed :
    got (fun s => (s.run.status.err, s.run.bp)) (exec .rduvar (ready [0xFF, 0xFF, 0xFF, 0xFF, 0x1F] 0)) =
      some (.malformedFrame, 0) := by decide
theorem test_rdsvar_example : got wOut (exec .rdsvar (ready [0x95, 0x01] 0)) = some (0xFFFFFFB5, 1, 16, .none) := by
  decide
theorem test_rdsvar_least :
    got wOut (exec .rdsvar (ready [0xFF, 0xFF, 0xFF, 0xFF, 0x0F] 0)) = some (0x80000000, 1, 40, .none) := by decide

/-! ## Decoders (41 R122 to R131) -/

theorem test_dec_svar_example : got wOut (exec (.decSvar 1) (ready [0x95, 0x01] 0)) = some (0xFFFFFFB5, 1, 16, .none) := by
  decide
theorem test_dec_uvar_example : got wOut (exec (.decUvar 1) (ready [0xAC, 0x02] 0)) = some (300, 1, 16, .none) := by
  decide
theorem test_dec_neg14_example :
    got wOut (exec (.decNeg14 1) (ready [0xFF, 0x3F] 0)) = some (0xFFFFE001, 1, 16, .none) ∧
    got wOut (exec (.decNeg14 1) (ready [0x80, 0x40] 0)) = some (0x00002000, 1, 16, .none) := by decide
theorem test_dec_tagvar_example :
    got (fun s => (s.run.w, s.run.wcnt, s.run.bp)) (exec (.decTagvar 8) (ready [0x05, 0x02, 0x03, 0xEE] 0)) =
      some (⟨1, 0, 0xFFFFFFFE, 0, 0, 0, 0, 0⟩, 8, 24) := by decide
theorem test_dec_tag32_example :
    got (fun s => (s.run.w, s.run.bp))
        (exec (.decTag32 3) (ready [0x39, 0xFE, 0x12, 0x34, 0x80, 0x00, 0x00, 0x01] 0)) =
      some (⟨0xFFFFFFFE, 0x1234, 0x80000001, 0, 0, 0, 0, 0⟩, 64) := by decide
theorem test_dec_tag16_example :
    got (fun s => (s.run.w, s.run.bp)) (exec (.decTag16 4) (ready [0xE4, 0x7F, 0x08, 0x00, 0x10] 0)) =
      some (⟨0, 7, 0xFFFFFFF0, 0xFFFF8001, 0, 0, 0, 0⟩, 36) := by decide
theorem test_dec_tag16_half_byte :
    got (fun s => (s.run.w.w0, s.run.bp)) (exec (.decTag16 4) (ready [0x01, 0x70, 0x02] 0)) = some (7, 12) := by decide
theorem test_dec_null_example : got wOut (exec (.decNull 1) (ready [] 0)) = some (0, 1, 0, .none) := by decide

/-! ## Predictors (42 R145 to R156) -/

theorem test_pred_zero : got pOut (exec (.predZero true) (predReady 0 0 0xFFFFFFB5 0 0 0 0)) =
    some (0xFFFFFFB5, .between, .none) := by decide
theorem test_pred_previous : got pOut (exec (.predPrevious true) (predReady 0 1 0xFFFFFFFB 1000 0 0 0)) =
    some (995, .between, .none) := by decide
theorem test_pred_straightline : got pOut (exec (.predStraightline true) (predReady 0 3 0 12 10 0 0)) =
    some (14, .between, .none) := by decide
theorem test_pred_straightline_falls_back :
    got pOut (exec (.predStraightline true) (predReady 0 3 0 0 0x80000000 0 0)) = some (0, .between, .none) ∧
    got pOut (exec (.predStraightline false) (predReady 0 3 0 5 11 0 0)) = some (5, .between, .none) := by decide
theorem test_pred_average2 : got pOut (exec (.predAverage2 true) (predReady 0 3 0 0xFFFFFFFD 0 0 0)) =
    some (0xFFFFFFFF, .between, .none) := by decide
theorem test_pred_average2_unsigned : got pOut (exec (.predAverage2 false) (predReady 0 3 0 0xFFFFFFFF 1 0 0)) =
    some (0x80000000, .between, .none) := by decide
theorem test_pred_minthrottle : got pOut (exec (.predMinthrottle true) (predReady 1 0 0xFFFFFFF6 0 0 0 0)) =
    some (1060, .between, .none) := by decide
theorem test_pred_minthrottle_absent : got pOut (exec (.predMinthrottle true) (predReady 6 0 5 0 0 0 0)) =
    some (0, .fatal, .invalidHeaderReference) := by decide
theorem test_pred_motor0 : got pOut (exec (.predMotor0 true) (predReady 0 4 0xFFFFFFEC 0 0 1200 0)) =
    some (1180, .between, .none) := by decide
theorem test_pred_motor0_absent : got pOut (exec (.predMotor0 true) (predReady 7 3 5 1 1 1200 0)) =
    some (0, .fatal, .invalidHeaderReference) := by decide
theorem test_pred_increment : got pOut (exec (.predIncrement false) (predReady 0 1 0 41 0 0 2)) =
    some (44, .between, .none) := by decide
theorem test_pred_homelat :
    got (fun s => (pOut s, s.run.diag, s.run.status.unsup)) (exec (.predHomelat false) (predReady 0 0 5 0 0 0 0)) =
      some ((5, .between, .none), ⟨1, 0x80000007⟩, true) := by decide
theorem test_pred_fifteenhundred : got pOut (exec (.predFifteenhundred true) (predReady 0 0 0xFFFFFFFD 0 0 0 0)) =
    some (1497, .between, .none) := by decide
theorem test_pred_vbatref : got pOut (exec (.predVbatref true) (predReady 2 0 0xFFFFFF9C 0 0 0 0)) =
    some (3995, .between, .none) := by decide
theorem test_pred_lastmainframetime :
    got (fun s => (s.run.pval, s.run.diag.last)) (exec (.predLastmainframetime false) (predReady 0 0 7 0 0 0 0)) =
      some (7, 0x8000000A) := by decide
theorem test_pred_minmotor : got pOut (exec (.predMinmotor false) (predReady 4 0 12 0 0 0 0)) =
    some (170, .between, .none) := by decide

/-! ## FRAME (43 R173 to R179) -/

/-- Two fields, SVAR PREVIOUS and UVAR ZERO, without history. -/
theorem test_frame_commits :
    got (fun s => (s.run.ev.val, s.run.ev.nf, s.run.bp, s.run.stats.nframes.main))
        (exec (.frame .main) (frameReady [0x02, 0xAC, 0x02] 0 [0x81, 0x10])) =
      some ([(0, 1), (1, 300)], 2, 24, 1) := by decide
theorem test_frame_abandons :
    got (fun s => (s.run.status.err, s.run.bp, s.run.errFi, s.run.stats.ncorrupt, s.run.skip.main))
        (exec (.frame .main) (frameReady [0x02, 0xAC] 0 [0x81, 0x10])) =
      some (.endOfData, 0, 0x80000001, 1, 1) := by decide

/-! ## Halves of descriptors (43 R175, R176) -/

theorem test_fd_svar : got (fun s => (s.frame.raw, s.run.bp)) (exec (.fdSvar true .previous)
    (inside [0x95, 0x01] 0 [0x81] 0 [] 0)) = some ([0xFFFFFFB5], 16) := by decide
theorem test_fd_uvar : got (fun s => s.frame.raw) (exec (.fdUvar false .zero) (inside [0xAC, 0x02] 0 [0x10] 0 [] 0)) =
    some [300] := by decide
theorem test_fd_neg14 : got (fun s => s.frame.raw) (exec (.fdNeg14 false .zero) (inside [0xFF, 0x3F] 0 [0x20] 0 [] 0)) =
    some [0xFFFFE001] := by decide
theorem test_fd_tagvar_takes_the_run : got (fun s => (s.frame.raw, s.run.bp)) (exec (.fdTagvar false .zero)
    (inside [0x05, 0x02, 0x03] 0 [0x30, 0x31, 0x10] 0 [] 0)) = some ([1, 0], 24) := by decide
theorem test_fd_tag32 : got (fun s => s.frame.raw) (exec (.fdTag32 false .zero)
    (inside [0x09, 0xFE, 0x12, 0x34] 0 [0x40, 0x40] 0 [] 0)) = some [0xFFFFFFFE, 0x1234] := by decide
theorem test_fd_tag16 : got (fun s => (s.frame.raw, s.run.bp)) (exec (.fdTag16 false .zero)
    (inside [0x05, 0x9F] 0 [0x50, 0x50] 0 [] 0)) = some ([0xFFFFFFF9, 0xFFFFFFFF], 16) := by decide
theorem test_fd_null : got (fun s => (s.frame.raw, s.run.bp)) (exec (.fdNull false .zero)
    (inside [0xFF] 3 [0x60] 0 [] 0)) = some ([0], 3) := by decide
theorem test_fd_zero : got (fun s => (s.run.cf, s.frame.fi)) (exec (.fdZero false .uvar)
    (inside [] 0 [0x10] 0 [7] 0)) = some ([(0, 7)], 1) := by decide
theorem test_fd_previous : got (fun s => s.run.cf) (exec (.fdPrevious false .uvar)
    { inside [] 0 [0x11] 0 [5] 0 with run.hist.main := { l := [(0, 1000)], ll := [], vl := true, vll := false } }) =
    some [(0, 1005)] := by decide
theorem test_fd_straightline : got (fun s => s.run.cf) (exec (.fdStraightline false .svar)
    { inside [] 0 [0x02] 0 [1] 0 with run.hist.main := { l := [(0, 12)], ll := [(0, 10)], vl := true, vll := true } }) =
    some [(0, 15)] := by decide
theorem test_fd_average2 : got (fun s => s.run.cf) (exec (.fdAverage2 false .uvar)
    { inside [] 0 [0x13] 0 [1] 0 with run.hist.main := { l := [(0, 2)], ll := [(0, 10)], vl := true, vll := true } }) =
    some [(0, 7)] := by decide
theorem test_fd_minthrottle : got (fun s => (s.run.mode, s.run.errFi)) (exec (.fdMinthrottle false .uvar)
    (inside [] 0 [0x14] 0 [5] 0)) = some (.fatal, 0x80000000) := by decide
theorem test_fd_motor0 : got (fun s => s.run.cf) (exec (.fdMotor0 false .uvar)
    { inside [] 0 [0x10, 0x15] 1 [0xFFFFFFEC] 0 with
      cfg.m0idx.main := { valid := true, index := 0 }, run.cf := [(0, 1200)] }) = some [(0, 1200), (1, 1180)] := by decide
theorem test_fd_motor0_at_its_own_index : got (fun s => s.run.mode) (exec (.fdMotor0 false .uvar)
    { inside [] 0 [0x10, 0x15] 1 [5] 0 with cfg.m0idx.main := { valid := true, index := 1 } }) = some .fatal := by decide
theorem test_fd_increment : got (fun s => s.run.cf) (exec (.fdIncrement false .uvar)
    { inside [] 0 [0x16] 0 [0] 0 with
      run.skip.main := 2, run.hist.main := { l := [(0, 41)], ll := [], vl := true, vll := false } }) =
    some [(0, 44)] := by decide
theorem test_fd_homelat : got (fun s => (s.run.cf, s.run.diag)) (exec (.fdHomelat false .uvar)
    (inside [] 0 [0x17] 0 [5] 0)) = some ([(0, 5)], ⟨1, 0x80000007⟩) := by decide
theorem test_fd_fifteenhundred : got (fun s => s.run.cf) (exec (.fdFifteenhundred false .svar)
    (inside [] 0 [0x08] 0 [0xFFFFFFFD] 0)) = some [(0, 1497)] := by decide
theorem test_fd_vbatref : got (fun s => s.run.cf) (exec (.fdVbatref false .svar)
    { inside [] 0 [0x09] 0 [0xFFFFFF9C] 0 with cfg.hdr.valid := 2, cfg.hdr.vbatref := 4095 }) = some [(0, 3995)] := by
  decide
theorem test_fd_lastmainframetime : got (fun s => (s.run.cf, s.run.diag.last)) (exec (.fdLastmainframetime false .uvar)
    (inside [] 0 [0x1A] 0 [7] 0)) = some ([(0, 7)], 0x8000000A) := by decide
theorem test_fd_minmotor : got (fun s => s.run.cf) (exec (.fdMinmotor false .uvar)
    { inside [] 0 [0x1B] 0 [12] 0 with cfg.hdr.valid := 4, cfg.hdr.motorLo := 158 }) = some [(0, 170)] := by decide

/-! ## Cases that meet the hypotheses of the statements, each clause at a boundary -/

theorem exists_of_got {α : Type} {f : State → α} {o : Out} {a : α} (h : got f o = some a) :
    ∃ t, o = .next t ∧ f t = a := by
  cases o with
  | next t => exact ⟨t, rfl, by simpa [got] using h⟩
  | fault r => simp [got] at h
  | refused r => simp [got] at h

/-- The host action that comes next. -/
def withPort (s : State) (a : HostAction) : State := { s with port := [a] }

theorem not_resetsNext_nil {s : State} (h : s.port = []) : ¬ resetsNext s := by
  rintro ⟨rest, h' | ⟨v, h', -⟩⟩ <;> simp [h] at h'

theorem not_resetsNext_write {s : State} {r : RegNo} {v : Word} {rest : List HostAction}
    (h : s.port = .write r v :: rest) (hd : decode .command v ≠ .ok .reset) : ¬ resetsNext s := by
  rintro ⟨rest', h' | ⟨v', h', hd'⟩⟩
  · simp [h] at h'
  · simp only [h, List.cons.injEq, HostAction.write.injEq] at h'
    exact hd (h'.1.2 ▸ hd')

theorem witness_DecodeOfEncodeIsTheInstruction : (Instr.rdbits 0).wf = true ∧ (Instr.rdbits 32).wf = true ∧
    (Instr.decTagvar 8).wf = true ∧ (Instr.decTag32 3).wf = true ∧ (Instr.fdNull true .minmotor).wf = true := by decide
theorem witness_EveryDecodedWordIsItsEncoding : decode .command 0x1020 = .ok (.rdbits 32) ∧
    decode .encHalf 0xEB = .ok (.fdNull true .minmotor) ∧ decode .predHalf 0xEB = .ok (.fdMinmotor true .null) := by
  decide
theorem witness_DescriptorsDecodeToTheirFields : LegalDescriptor 0xEB ∧ LegalDescriptor 0x00 ∧
    ¬ LegalDescriptor 0x70 ∧ ¬ LegalDescriptor 0x0C ∧ Slot.encHalf ≠ .command := by
  simp [LegalDescriptor]

theorem witness_StepRunsTheDecodedInstruction :
    ((withPort (ready [] 0) (.write 0x0050 0x1020)).run.mode ≠ .inframe ∧ decode .command 0x1020 = .ok (.rdbits 32)) ∧
    (let s := inside [] 0 [0x10, 0x60] 1 [] 0
     s.run.mode = .inframe ∧ s.frame.raw = [] ∧ s.frame.fi < (s.cfg.nf.get s.frame.kind).toNat ∧
      decode .encHalf (((s.cfg.fd.get s.frame.kind).read s.frame.fi).setWidth 32) = .ok (.fdNull false .zero)) ∧
    (let s := inside [] 0 [0x30, 0x31] 0 [5, 6] 1
     s.run.mode = .inframe ∧ s.frame.raw ≠ [] ∧
      decode .predHalf (((s.cfg.fd.get s.frame.kind).read (s.frame.fi + s.frame.rj)).setWidth 32) =
        .ok (.fdPrevious false .tagvar)) := by
  decide

theorem witness_IllegalCommandSetsOnlyErr :
    (∀ i, decode .command 0x1021 ≠ .ok i) ∧
    (decode .command 0x0000 = .ok .start ∧ (ready [] 0).run.mode ≠ .config ∧ (ready [] 0).run.mode ≠ .inframe) ∧
    (decode .command 0x4003 = .ok (.frame .gpshome) ∧ (ready [] 0).cfg.nf.get .gpshome = 0) ∧
    (State.reset.params.nfmax = 256 ∧ State.reset.run.mode = .config ∧
      ¬ ConfigWrite 0x13 257 ∧ ¬ OperandWrite 0x13 ∧ ¬ ConfigWrite 0x13FF 256 ∧ ¬ OperandWrite 0x13FF ∧
      ¬ ConfigWrite 0x00 0 ∧ ¬ OperandWrite 0x00) := by
  refine ⟨?_, by decide, by decide, by decide, by decide, ?_⟩
  · intro i h
    have he : decode .command 0x1021 = .error .badArg := by decide
    rw [he] at h; cases h
  · simp [ConfigWrite, OperandWrite]

theorem witness_StartChecksTheDescriptors :
    (ready [] 0).run.mode ≠ .config ∧
    (State.reset.run.mode = .config ∧
      ∀ k i, i < (State.reset.cfg.nf.get k).toNat → LegalDescriptor ((State.reset.cfg.fd.get k).read i)) ∧
    (let s := { frameReady [] 0 [0x10, 0x7F] with run.mode := .config }
     s.run.mode = .config ∧ 1 < (s.cfg.nf.get .main).toNat ∧ ¬ LegalDescriptor ((s.cfg.fd.get .main).read 1) ∧
      ∀ k' j, j < (s.cfg.nf.get k').toNat → (k'.code < Kind.main.code ∨ (k' = .main ∧ j < 1)) →
        LegalDescriptor ((s.cfg.fd.get k').read j)) := by
  refine ⟨by decide, ⟨rfl, fun k i h => ?_⟩, rfl, by decide, by unfold LegalDescriptor; decide, fun k j _ h => ?_⟩
  · cases k <;> exact absurd h (by simp [State.reset, Configuration.reset, PerKind.all, PerKind.get])
  · rcases h with h | ⟨rfl, hj⟩
    · cases k <;> exact absurd h (by decide)
    · obtain rfl : j = 0 := by omega
      unfold LegalDescriptor; decide

theorem witness_EndStopsTheStream : (ready [] 0).run.mode = .between ∧ State.reset.run.mode ≠ .between ∧
    (let s := { ready [0xA5] 0 with run.mode := .eos, port := [.read 0x0020] }
     s.run.mode = .eos ∧ (Instr.rdbits 8).slot = .command ∧ Instr.rdbits 8 ≠ .reset ∧ s.port = [.read 0x0020]) := by
  decide

theorem witness_ResetGivesTheResetState : (∀ k i, regOf 256 0x0001 ≠ some (.fd k i)) ∧
    (∀ k i, regOf 256 0x20FF ≠ some (.fd k i)) ∧
    (let s := withPort { ready [0xA5] 3 with run.mode := .fatal } .hardReset
     s.port = [.hardReset] ∧ s.run.mode ≠ .inframe) := by
  have h1 : regOf 256 0x0001 = some .status := by decide
  have h2 : regOf 256 0x20FF = some (.evVal 255) := by decide
  exact ⟨fun k i h => (by rw [h1] at h; cases h), fun k i h => (by rw [h2] at h; cases h), by decide⟩

theorem witness_RdbitsReadsTheNextBits :
    (let s := ready [1, 2, 3, 4] 0
     s.run.mode = .between ∧ (32 : BitVec 6).toNat ≤ 32 ∧
      s.run.bp.toNat + (32 : BitVec 6).toNat ≤ 8 * s.cfg.buflen.toNat) ∧
    (let s := ready [1, 2, 3, 4] 1
     s.run.mode = .between ∧ 8 * s.cfg.buflen.toNat < s.run.bp.toNat + (32 : BitVec 6).toNat) ∧
    32 < (33 : BitVec 6).toNat := by decide

theorem witness_RdabitsRoundsTheCursorUp :
    (let s := ready [1, 2] 1
     s.run.mode = .between ∧ 8 * ((s.run.bp.toNat + 7) / 8) + (8 : BitVec 6).toNat ≤ 8 * s.cfg.buflen.toNat) ∧
    (let s := ready [1, 2] 9
     s.run.mode = .between ∧ 8 * s.cfg.buflen.toNat < 8 * ((s.run.bp.toNat + 7) / 8) + (1 : BitVec 6).toNat) ∧
    (ready [1, 2] 8).run.bp.toNat % 8 = 0 ∧ 32 < (63 : BitVec 6).toNat := by decide

theorem witness_AlignMovesOnlyTheCursor : (ready [1, 2] 15).run.mode = .between ∧
    (ready [1, 2] 16).run.bp.toNat % 8 = 0 ∧ State.reset.run.mode ≠ .between := by decide

/-- The greatest value, in five bytes. -/
theorem spells_max : Spells (ready [0xFF, 0xFF, 0xFF, 0xFF, 0x0F] 0).stream
    (ready [0xFF, 0xFF, 0xFF, 0xFF, 0x0F] 0).run.bp.toNat 4294967295 40 :=
  ⟨[0xFF, 0xFF, 0xFF, 0xFF], 0x0F, by decide, by decide, by decide, by decide, ⟨by decide, by decide⟩, by decide,
    by decide⟩

/-- A value in one byte, from inside the byte before it. -/
theorem spells_one : Spells (ready [0xA5, 0x7F] 3).stream (ready [0xA5, 0x7F] 3).run.bp.toNat 127 16 :=
  ⟨[], 0x7F, by decide, by decide, by decide, by decide, ⟨by decide, by decide⟩, by decide, by decide⟩

theorem malformed_fifth : Malformed (ready [0xFF, 0xFF, 0xFF, 0xFF, 0x10] 0).stream
    (ready [0xFF, 0xFF, 0xFF, 0xFF, 0x10] 0).run.bp.toNat :=
  ⟨[0xFF, 0xFF, 0xFF, 0xFF], 0x10, by decide, by decide, by decide, by decide, by decide⟩

theorem malformed_long : Malformed (ready [0x80, 0x80, 0x80, 0x80, 0x80, 0x00] 0).stream
    (ready [0x80, 0x80, 0x80, 0x80, 0x80, 0x00] 0).run.bp.toNat :=
  ⟨[0x80, 0x80, 0x80, 0x80], 0x80, by decide, by decide, by decide, by decide, by decide⟩

theorem truncated_at_once : Truncated (ready [] 0).stream (ready [] 0).run.bp.toNat 0 :=
  ⟨[], by decide, by decide, ⟨by decide, by decide⟩, by decide, by decide⟩

theorem truncated_after_four : Truncated (ready [0x80, 0x80, 0x80, 0x80] 0).stream
    (ready [0x80, 0x80, 0x80, 0x80] 0).run.bp.toNat 32 :=
  ⟨[0x80, 0x80, 0x80, 0x80], by decide, by decide, ⟨by decide, by decide⟩, by decide, by decide⟩

theorem witness_RduvarReadsTheSpelledValue : (∃ (s : State) (u bp' : Nat), s.run.mode = .between ∧ Spells s.stream s.run.bp.toNat u bp') ∧
    (∃ s : State, s.run.mode = .between ∧ Malformed s.stream s.run.bp.toNat) ∧
    ∃ (s : State) (pos : Nat), s.run.mode = .between ∧ Truncated s.stream s.run.bp.toNat pos :=
  ⟨⟨_, _, _, rfl, spells_max⟩, ⟨_, rfl, malformed_fifth⟩, ⟨_, _, rfl, truncated_after_four⟩⟩

theorem witness_RdsvarUnfoldsTheZigzag : (∃ (s : State) (u bp' : Nat), s.run.mode = .between ∧ Spells s.stream s.run.bp.toNat u bp') ∧
    (∃ s : State, s.run.mode = .between ∧ Malformed s.stream s.run.bp.toNat) ∧
    ∃ (s : State) (pos : Nat), s.run.mode = .between ∧ Truncated s.stream s.run.bp.toNat pos :=
  ⟨⟨_, _, _, rfl, spells_one⟩, ⟨_, rfl, malformed_long⟩, ⟨_, _, rfl, truncated_at_once⟩⟩

theorem witness_RduvarInvertsTheShortestForm :
    (let s := ready [0xEE, 0xFF, 0xFF, 0xFF, 0xFF, 0x0F] 8
     s.run.mode = .between ∧ s.run.bp.toNat = 8 * 1 ∧ BytesAt s.stream 1 (uvarBytes 0xFFFFFFFF)) ∧
    (let s := ready [0x80, 0x00] 0
     s.run.mode = .between ∧ s.run.bp.toNat = 8 * 0 ∧ BytesAt s.stream 0 [0x80, 0x00]) :=
  ⟨⟨rfl, rfl, by decide, by decide⟩, rfl, rfl, by decide, by decide⟩

theorem witness_RdsvarInvertsTheEncoder :
    (let s := ready [0xFF, 0xFF, 0xFF, 0xFF, 0x0F] 0
     s.run.mode = .between ∧ s.run.bp.toNat = 8 * 0 ∧ BytesAt s.stream 0 (uvarBytes (svarCode 0x80000000))) ∧
    (let s := ready [0x00] 0
     s.run.mode = .between ∧ s.run.bp.toNat = 8 * 0 ∧ BytesAt s.stream 0 (uvarBytes (svarCode 0))) :=
  ⟨⟨rfl, rfl, by decide, by decide⟩, rfl, rfl, by decide, by decide⟩

theorem witness_BitReaderConsumption :
    (∃ t, exec (.rdbits 16) (ready [1, 2] 0) = .next t ∧ t.run.status.err = .none) ∧
    (∃ t, exec (.rdabits 9) (ready [1, 2] 1) = .next t ∧ t.run.status.err = .endOfData) ∧
    (∃ t, exec .rdsvar (ready [0x80, 1] 0) = .next t ∧ t.run.status.err = .none) ∧
    (∃ t, exec .align (ready [1, 2] 9) = .next t ∧ t.run.status.err = .none) ∧
    (ready [1, 2] 16).run.bp.toNat ≤ 8 * (ready [1, 2] 16).cfg.buflen.toNat :=
  ⟨exists_of_got (f := fun t => t.run.status.err) (by decide), exists_of_got (f := fun t => t.run.status.err) (by decide),
    exists_of_got (f := fun t => t.run.status.err) (by decide),
    exists_of_got (f := fun t => t.run.status.err) (by decide), by decide⟩

theorem witness_DecSvarAndUvarGiveOneWord : (∃ (s : State) (u bp' : Nat), s.run.mode = .between ∧ Spells s.stream s.run.bp.toNat u bp') ∧
    (∃ s : State, s.run.mode = .between ∧ Malformed s.stream s.run.bp.toNat) ∧
    ∃ (s : State) (pos : Nat), s.run.mode = .between ∧ Truncated s.stream s.run.bp.toNat pos :=
  ⟨⟨_, _, _, rfl, spells_max⟩, ⟨_, rfl, malformed_long⟩, ⟨_, _, rfl, truncated_after_four⟩⟩

/-- 0x2000, whose bit 13 is set: the greatest output of NEG14. -/
theorem witness_DecNeg14NegatesTheLow14Bits :
    (ready [0x80, 0x40] 0).run.mode = .between ∧
    Spells (ready [0x80, 0x40] 0).stream (ready [0x80, 0x40] 0).run.bp.toNat 8192 16 ∧ neg14Value 8192 = 8192 ∧
    (∃ s : State, s.run.mode = .between ∧ Malformed s.stream s.run.bp.toNat) ∧
    ∃ (s : State) (pos : Nat), s.run.mode = .between ∧ Truncated s.stream s.run.bp.toNat pos :=
  ⟨rfl, ⟨[0x80], 0x40, by decide, by decide, by decide, by decide, ⟨by decide, by decide⟩, by decide, by decide⟩,
    by decide, ⟨_, rfl, malformed_fifth⟩, _, _, rfl, truncated_at_once⟩

theorem witness_DecNullConsumesNothing : (ready [] 0).run.mode = .between ∧ (ready [1] 3).run.mode = .between := by decide

/-- Slots 0 and 7 present: 1 and -2. -/
theorem witness_DecTagvarReadsThePresentSlots :
    let s := ready [0x81, 0x02, 0x03] 0
    let p := fun j => [8, 16, 16, 16, 16, 16, 16, 16, 24].getD j 0
    let v : Nat → Word := fun j => [1, 0, 0, 0, 0, 0, 0, 0xFFFFFFFE].getD j 0
    s.run.mode = .between ∧ 1 ≤ (8 : BitVec 4).toNat ∧ (8 : BitVec 4).toNat ≤ 8 ∧ BytesAt s.stream 0 [0x81] ∧
      p 0 = 8 * (0 + 1) ∧ ∀ j < 8, VarSlot s.stream 0x81 j (p j) (v j) (p (j + 1)) := by
  have h0 : Spells (ready [0x81, 0x02, 0x03] 0).stream 8 2 16 :=
    ⟨[], 0x02, by decide, by decide, by decide, by decide, ⟨by decide, by decide⟩, by decide, by decide⟩
  have h7 : Spells (ready [0x81, 0x02, 0x03] 0).stream 16 3 24 :=
    ⟨[], 0x03, by decide, by decide, by decide, by decide, ⟨by decide, by decide⟩, by decide, by decide⟩
  refine ⟨rfl, by decide, by decide, ⟨by decide, by decide⟩, rfl, fun j hj => ?_⟩
  rcases j with _ | _ | _ | _ | _ | _ | _ | _ | j
  · exact ⟨2, h0, by decide⟩
  · exact ⟨rfl, rfl⟩
  · exact ⟨rfl, rfl⟩
  · exact ⟨rfl, rfl⟩
  · exact ⟨rfl, rfl⟩
  · exact ⟨rfl, rfl⟩
  · exact ⟨rfl, rfl⟩
  · exact ⟨3, h7, by decide⟩
  · omega

/-- The raising clauses: no tag byte; slot 7 malformed after seven absent slots; slot 0 cut off. -/
theorem witness_DecTagvarRaises :
    (ready [] 0).cfg.buflen.toNat ≤ ((ready [] 0).run.bp.toNat + 7) / 8 ∧
    (let s := ready [0x80, 0xFF, 0xFF, 0xFF, 0xFF, 0x10] 0
     BytesAt s.stream 0 [0x80] ∧ (∀ i < 7, VarSlot s.stream 0x80 i 8 0 8) ∧ (0x80 : Byte).getLsbD 7 = true ∧
      Malformed s.stream 8) ∧
    (let s := ready [0x01] 0
     BytesAt s.stream 0 [0x01] ∧ (0x01 : Byte).getLsbD 0 = true ∧ Truncated s.stream 8 8) := by
  refine ⟨by decide, ⟨⟨by decide, by decide⟩, fun i hi => ?_, rfl, [0xFF, 0xFF, 0xFF, 0xFF], 0x10, by decide, by decide,
    by decide, by decide, by decide⟩, ⟨by decide, by decide⟩, rfl, [], by decide, by decide, ⟨by decide, by decide⟩,
    by decide, by decide⟩
  rcases i with _ | _ | _ | _ | _ | _ | _ | i
  all_goals first | exact ⟨rfl, rfl⟩ | omega

/-- The hypotheses of the two fixed-width groups: want at both ends, a group that ends at the last bit, no tag byte, and a
last slot that does not fit by a byte. -/
theorem witness_DecTag32ReadsItsThreeFields :
    (1 ≤ (1 : BitVec 4).toNat ∧ (3 : BitVec 4).toNat ≤ 3) ∧
    (let s := ready [0x39, 0xFE, 0x12, 0x34, 0x80, 0x00, 0x00, 0x01] 0
     s.run.mode = .between ∧ BytesAt s.stream 0 [0x39] ∧
      slotPos (slotWidth [0, 8, 16, 32] 0x39) 8 3 ≤ 8 * s.cfg.buflen.toNat) ∧
    (ready [1] 1).cfg.buflen.toNat ≤ ((ready [1] 1).run.bp.toNat + 7) / 8 ∧
    (let s := ready [0x39, 0xFE, 0x12, 0x34, 0x80, 0x00, 0x00] 0
     BytesAt s.stream 0 [0x39] ∧ slotPos (slotWidth [0, 8, 16, 32] 0x39) 8 2 ≤ 8 * s.cfg.buflen.toNat ∧
      8 * s.cfg.buflen.toNat < slotPos (slotWidth [0, 8, 16, 32] 0x39) 8 3) :=
  ⟨by decide, ⟨rfl, ⟨by decide, by decide⟩, by decide⟩, by decide, ⟨by decide, by decide⟩, by decide, by decide⟩

theorem witness_DecTag16ReadsItsFourFields :
    (1 ≤ (1 : BitVec 4).toNat ∧ (4 : BitVec 4).toNat ≤ 4) ∧
    (let s := ready [0x05, 0x9F] 0
     s.run.mode = .between ∧ BytesAt s.stream 0 [0x05] ∧
      slotPos (slotWidth [0, 4, 8, 16] 0x05) 8 4 ≤ 8 * s.cfg.buflen.toNat) ∧
    (ready [1] 1).cfg.buflen.toNat ≤ ((ready [1] 1).run.bp.toNat + 7) / 8 ∧
    (let s := ready [0xE4, 0x7F, 0x08, 0x00] 0
     BytesAt s.stream 0 [0xE4] ∧ slotPos (slotWidth [0, 4, 8, 16] 0xE4) 8 3 ≤ 8 * s.cfg.buflen.toNat ∧
      8 * s.cfg.buflen.toNat < slotPos (slotWidth [0, 4, 8, 16] 0xE4) 8 4) :=
  ⟨by decide, ⟨rfl, ⟨by decide, by decide⟩, by decide⟩, by decide, ⟨by decide, by decide⟩, by decide, by decide⟩

theorem witness_WantOnlyTrimsTheGroup : (ready [0x05, 0x9F] 0).run.mode = .between ∧ (0 : BitVec 4).toNat = 0 ∧
    Enc.tag16.maxChunk < (5 : BitVec 4).toNat ∧ 1 ≤ (1 : BitVec 4).toNat ∧ (4 : BitVec 4).toNat ≤ Enc.tag16.maxChunk := by
  decide

theorem witness_PredCommandsRun : (predReady 0 0 0xFFFFFFFF 0 0 0 0).run.mode = .between := rfl

theorem witness_PredStraightlineExtrapolates :
    (predReady 0 2 0 1 1 0 0).run.pa.valid.getLsbD 0 = false ∧
    ((predReady 0 1 0 1 1 0 0).run.pa.valid.getLsbD 0 = true ∧ (predReady 0 1 0 1 1 0 0).run.pa.valid.getLsbD 1 = false) ∧
    (let s := predReady 0 3 0 0x7FFFFFFF 0x7FFFFFFF 0 0
     s.run.mode = .between ∧ s.run.pa.valid.getLsbD 0 = true ∧ s.run.pa.valid.getLsbD 1 = true ∧
      val true (0x7FFFFFFF : Word) = 2 * val true s.run.pa.last - val true s.run.pa.llast) ∧
    (let s := predReady 0 3 0 5 11 0 0
     s.run.pa.valid.getLsbD 0 = true ∧ s.run.pa.valid.getLsbD 1 = true ∧
      ∀ d : Word, val false d ≠ 2 * val false s.run.pa.last - val false s.run.pa.llast) := by
  refine ⟨by decide, by decide, by decide, by decide, by decide, fun d => ?_⟩
  have h : 2 * val false (5 : Word) - val false (11 : Word) = -1 := by decide
  show val false d ≠ 2 * val false (5 : Word) - val false (11 : Word)
  rw [h]; simp [val]

theorem witness_PredAverage2HalvesTheExactSum :
    (predReady 0 2 0 1 1 0 0).run.pa.valid.getLsbD 0 = false ∧
    ((predReady 0 1 0 1 1 0 0).run.pa.valid.getLsbD 0 = true ∧ (predReady 0 1 0 1 1 0 0).run.pa.valid.getLsbD 1 = false) ∧
    (let s := predReady 0 3 0 0xFFFFFFFD 0 0 0
     s.run.mode = .between ∧ s.run.pa.valid.getLsbD 0 = true ∧ s.run.pa.valid.getLsbD 1 = true) := by decide

/-- The source's 8-bit cases: 14 exists, 252 does not; and width 1. -/
theorem witness_ExtrapolationAndMeanAtEveryWidth :
    val true (14 : BitVec 8) = 2 * val true (12 : BitVec 8) - val true (10 : BitVec 8) ∧
    (∀ d : BitVec 8, val true d ≠ 2 * val true (126 : BitVec 8) - val true (0 : BitVec 8)) ∧
    val false (1 : BitVec 1) = 2 * val false (1 : BitVec 1) - val false (1 : BitVec 1) := by
  refine ⟨by decide, by decide, by decide⟩

theorem witness_PredHeaderConstants : (predReady 7 0 0 0 0 0 0).run.mode = .between ∧
    ((predReady 1 0 0 0 0 0 0).cfg.hdr.valid.getLsbD 0 = true ∧ (predReady 6 0 0 0 0 0 0).cfg.hdr.valid.getLsbD 0 = false) ∧
    ((predReady 2 0 0 0 0 0 0).cfg.hdr.valid.getLsbD 1 = true ∧ (predReady 5 0 0 0 0 0 0).cfg.hdr.valid.getLsbD 1 = false) ∧
    ((predReady 4 0 0 0 0 0 0).cfg.hdr.valid.getLsbD 2 = true ∧ (predReady 3 0 0 0 0 0 0).cfg.hdr.valid.getLsbD 2 = false) := by
  decide

theorem witness_PredMotor0NeedsItsOperand : (predReady 0 4 0 0 0 1200 0).run.mode = .between ∧
    (predReady 0 4 0 0 0 1200 0).run.pa.valid.getLsbD 2 = true ∧
    (predReady 0 3 0 0 0 1200 0).run.pa.valid.getLsbD 2 = false := by decide

theorem witness_SignedMattersOnlyWithTwoFrames :
    (Pred.previous ≠ .straightline ∧ Pred.previous ≠ .average2) ∧
    (paOperands true (predReady 0 2 0 1 1 0 0).run.pa).last = none ∧
    (paOperands true (predReady 0 1 0 1 1 0 0).run.pa).llast = none := by decide

/-- A frame definition with a run of two, a single field, and a field whose predictor needs a constant. -/
def sampleFrame : State := frameReady [0x03, 0x02, 0x04, 0xAC, 0x02] 0 [0x30, 0x31, 0x10]

theorem sampleFrame_inv : Inv sampleFrame := inv_of_check (by decide)

theorem witness_FrameMeetsItsReading : Inv sampleFrame ∧ sampleFrame.run.mode = .between ∧
    sampleFrame.cfg.nf.get .main ≠ 0 := ⟨sampleFrame_inv, rfl, by decide⟩

theorem witness_FrameIsTheRunOfItsSteps : Inv sampleFrame ∧ sampleFrame.run.mode = .between ∧
    sampleFrame.cfg.nf.get .main ≠ 0 := ⟨sampleFrame_inv, rfl, by decide⟩

theorem witness_FrameCommitWritesHistoryAndEvent : StorageOk sampleFrame ∧
    ∃ t, exec (.frame .main) sampleFrame = .next t ∧ t.run.status.err = .none :=
  ⟨sampleFrame_inv.1, exists_of_got (f := fun t => t.run.status.err) (by decide)⟩

/-- One frame that is cut off and one that lacks its header constant. -/
theorem witness_FrameAbandonRestoresTheCursor :
    (let s := frameReady [0x80] 0 [0x10]
     s.run.mode = .between ∧ s.cfg.nf.get .main ≠ 0 ∧
      ∃ t, exec (.frame .main) s = .next t ∧ t.run.status.err = .endOfData) ∧
    (let s := frameReady [0x01] 0 [0x14]
     s.run.mode = .between ∧ s.cfg.nf.get .main ≠ 0 ∧
      ∃ t, exec (.frame .main) s = .next t ∧ t.run.status.err = .invalidHeaderReference) :=
  ⟨⟨rfl, by decide, exists_of_got (f := fun t => t.run.status.err) (by decide)⟩, rfl, by decide,
    exists_of_got (f := fun t => t.run.status.err) (by decide)⟩

theorem witness_NullFrameConsumesNothingAndCommits :
    let s := frameReady [0xA5] 5 [0x60, 0xE7]
    s.run.mode = .between ∧ s.cfg.nf.get .main ≠ 0 ∧ s.params.plausible = .alwaysTrue ∧
      ∀ i < (s.cfg.nf.get .main).toNat, ∃ d : Descriptor, decodeDescriptor ((s.cfg.fd.get .main).read i) = .ok d ∧
        d.enc = .null ∧ d.pred ≠ .minthrottle ∧ d.pred ≠ .motor0 ∧ d.pred ≠ .vbatref ∧ d.pred ≠ .minmotor := by
  refine ⟨rfl, by decide, rfl, fun i hi => ?_⟩
  have hi' : i < 2 := hi
  rcases i with _ | _ | i
  · exact ⟨⟨false, .null, .zero⟩, by decide⟩
  · exact ⟨⟨true, .null, .homelat⟩, by decide⟩
  · omega

theorem witness_RunsAreGreedy :
    (2 < 3 ∧ ((cells 0 [0x30, 0x31, 0x10]).read 2).toNat / 16 % 8 = Enc.uvar.code.toNat) ∧
    RunIs (cells 0 [0x30, 0x31, 0x10]) 3 0 .tagvar 2 ∧
    (∀ i < 10, ((cells 0 (List.replicate 10 0x30)).read i).toNat / 16 % 8 = 3) ∧
    (∀ i < 5, ((cells 0 (List.replicate 5 0x50)).read i).toNat / 16 % 8 = 5) :=
  ⟨by decide, ⟨by decide, by decide, by decide, by decide, by decide⟩, by decide, by decide⟩

/-- A run of two inside a longer definition that decodes, and a run of one that is cut off. -/
theorem witness_EncodingHalvesDecodeTheWholeRun :
    (let s := inside [0x03, 0x02, 0x04] 0 [0x30, 0x31, 0x10] 0 [] 0
     s.run.mode = .inframe ∧ s.frame.raw = [] ∧
      RunIs (s.cfg.fd.get s.frame.kind) (s.cfg.nf.get s.frame.kind).toNat s.frame.fi .tagvar 2 ∧
      decoderOf .tagvar s.stream s.run.bp.toNat 2 = .ok [1, 2] 24) ∧
    (let s := inside [0x80] 0 [0x30, 0x31, 0x10] 2 [] 0
     RunIs (s.cfg.fd.get s.frame.kind) (s.cfg.nf.get s.frame.kind).toNat s.frame.fi .uvar 1 ∧
      decoderOf .uvar s.stream s.run.bp.toNat 1 = .raised .endOfData 8) :=
  ⟨⟨rfl, rfl, ⟨by decide, by decide, by decide, by decide, by decide⟩, by decide⟩,
    ⟨by decide, by decide, by decide, by decide, by decide⟩, by decide⟩

/-- Cases of the clause on the DEC commands: want at both ends, a group that decodes, one that is cut off. -/
theorem witness_DecodersOfFrameAndDecAgree :
    (let s := ready [0x81, 0x02, 0x03] 0
     s.run.mode = .between ∧ 1 ≤ (8 : BitVec 4).toNat ∧ (8 : BitVec 4).toNat ≤ Enc.tagvar.maxChunk ∧
      decoderOf .tagvar s.stream s.run.bp.toNat (8 : BitVec 4).toNat = .ok [1, 0, 0, 0, 0, 0, 0, 0xFFFFFFFE] 24) ∧
    (let s := ready [0x05, 0x9F] 0
     decoderOf .tag16 s.stream s.run.bp.toNat (1 : BitVec 4).toNat = .ok [0xFFFFFFF9] 16) ∧
    (let s := ready [0x39, 0xFE] 0
     decoderOf .tag32 s.stream s.run.bp.toNat (3 : BitVec 4).toNat = .raised .endOfData 16) := by decide

theorem witness_SingleFieldEncodingHalvesTakeTheSpelledValue :
    (let s := inside [0x7F] 0 [0x00] 0 [] 0
     s.run.mode = .inframe ∧ s.frame.raw = [] ∧ Spells s.stream s.run.bp.toNat 127 8 ∧
      RunIs (s.cfg.fd.get s.frame.kind) (s.cfg.nf.get s.frame.kind).toNat s.frame.fi .svar 1) ∧
    (let s := inside [] 0 [0x10] 0 [] 0
     RunIs (s.cfg.fd.get s.frame.kind) (s.cfg.nf.get s.frame.kind).toNat s.frame.fi .uvar 1) ∧
    (let s := inside [] 0 [0x20] 0 [] 0
     RunIs (s.cfg.fd.get s.frame.kind) (s.cfg.nf.get s.frame.kind).toNat s.frame.fi .neg14 1) ∧
    (let s := inside [] 0 [0x60] 0 [] 0
     RunIs (s.cfg.fd.get s.frame.kind) (s.cfg.nf.get s.frame.kind).toNat s.frame.fi .null 1) :=
  ⟨⟨rfl, rfl, ⟨[], 0x7F, by decide, by decide, by decide, by decide, ⟨by decide, by decide⟩, by decide, by decide⟩,
    by decide, by decide, by decide, by decide, by decide⟩,
    ⟨by decide, by decide, by decide, by decide, by decide⟩, ⟨by decide, by decide, by decide, by decide, by decide⟩,
    by decide, by decide, by decide, by decide, by decide⟩

theorem witness_PredictorHalvesStepTheField :
    (let s := inside [] 0 [0x30, 0x31] 0 [5, 6] 1
     s.run.mode = .inframe ∧ s.frame.raw[s.frame.rj]? = some 6 ∧ fieldDiff s ⟨false, .tagvar, .previous⟩ 1 = some 0) ∧
    (let s := inside [] 0 [0x14] 0 [5] 0
     s.run.mode = .inframe ∧ s.frame.raw[s.frame.rj]? = some 5 ∧ fieldDiff s ⟨false, .uvar, .minthrottle⟩ 0 = none) := by
  decide

theorem witness_DescriptorsRunOnlyInsideFrame : State.reset.run.mode ≠ .inframe := by decide

/-- Leftovers in CF and in history that is not valid. -/
theorem witness_FrameNeverReadsLeftovers :
    let h : PerKind History := PerKind.all { l := [(0, 7)], ll := [(1, 8)], vl := false, vll := false }
    Inv sampleFrame ∧ sampleFrame.run.mode = .between ∧
      StorageOk { sampleFrame with run.cf := [(0, 9)], run.hist := h } ∧
      SamePast sampleFrame.cfg.nf sampleFrame.run.hist h ∧
      ∃ t, exec (.frame .main) sampleFrame = .next t ∧ t.run.status.err = .none := by
  refine ⟨sampleFrame_inv, rfl, ⟨by decide, fun k => by cases k <;> decide, by decide, fun k => by cases k <;> decide,
    fun k => by cases k <;> decide, by decide⟩, fun k => ?_, exists_of_got (f := fun t => t.run.status.err) (by decide)⟩
  refine ⟨by cases k <;> rfl, by cases k <;> rfl, fun h => ?_, fun h => ?_⟩ <;> cases k <;> cases h

theorem witness_RegisterReadsChangeNothing :
    (State.reset.run.mode = .config ∧ State.reset.params.nfmax = 256) ∧
    ((withPort (ready [] 0) (.read 0x0050)).run.mode ≠ .inframe ∧
      (withPort (ready [] 0) (.read 0x0050)).port = [.read 0x0050]) ∧
    (ready [] 0).params.nfmax = 256 ∧ (0x2100 : RegNo).toNat = 0x2100 ∧ (0x0043 : RegNo).toNat = 0x43 ∧
    (ready [] 0).run.mode ≠ .config := by decide

theorem witness_AcceptedWritesReadBack :
    (let s := withPort State.reset (.write 0x0010 256)
     s.params.nfmax = 256 ∧ StorageOk s ∧ s.port = [.write 0x0010 256] ∧ WriteAccepted 0x0010 256 s) ∧
    (let s := withPort (ready [] 0) (.write 0x003D 1)
     s.params.nfmax = 256 ∧ StorageOk s ∧ s.port = [.write 0x003D 1] ∧ WriteAccepted 0x003D 1 s) ∧
    WriteAccepted 0x13FF 255 State.reset := by
  refine ⟨⟨rfl, ⟨by decide, fun k => by cases k <;> decide, by decide, fun k => by cases k <;> decide,
    fun k => by cases k <;> decide, by decide⟩, rfl, .inl ⟨rfl, .inl ?_⟩⟩,
    ⟨rfl, ⟨by decide, fun k => by cases k <;> decide, by decide, fun k => by cases k <;> decide,
    fun k => by cases k <;> decide, by decide⟩, rfl, .inr ⟨rfl, ?_⟩⟩, .inl ⟨rfl, .inl ?_⟩⟩
  · unfold ConfigWrite; decide
  · unfold OperandWrite; decide
  · unfold ConfigWrite; decide

theorem witness_ConfigurationIsLocked :
    (let s := withPort (ready [] 0) (.write 0x0010 1)
     s.run.mode ≠ .config ∧ s.run.mode ≠ .inframe ∧ s.params.nfmax = 256 ∧ s.port = [.write 0x0010 1] ∧ ¬ resetsNext s ∧
      ∃ t, step s = .next t ∧ t.run.status.err = .illegalCommand) ∧
    (inside [] 0 [0x60] 0 [] 0).run.mode = .inframe :=
  ⟨⟨by decide, by decide, rfl, rfl, not_resetsNext_write rfl (by decide),
    exists_of_got (f := fun t => t.run.status.err) (by decide)⟩, rfl⟩

theorem witness_ModeTransitions :
    (∃ t, step (withPort State.reset (.write 0x0050 0x0000)) = .next t ∧ t.run.mode = .between) ∧
    (∃ t, step (withPort (ready [] 0) (.write 0x0050 0x0100)) = .next t ∧ t.run.mode = .eos) ∧
    (∃ t, step (withPort (ready [] 0) (.write 0x0050 0x3500)) = .next t ∧ t.run.mode = .fatal) ∧
    (∃ t, step (withPort (ready [] 0) (.write 0x0050 0x0200)) = .next t ∧ t.run.mode = .config) ∧
    (ready [] 0).run.mode ≠ .inframe :=
  ⟨exists_of_got (f := fun t => t.run.mode) (by decide), exists_of_got (f := fun t => t.run.mode) (by decide),
    exists_of_got (f := fun t => t.run.mode) (by decide), exists_of_got (f := fun t => t.run.mode) (by decide), by decide⟩

theorem witness_BufferIsNeverWritten :
    ∃ t, step (withPort (ready [0xA5] 0) (.write 0x0050 0x1008)) = .next t ∧ t.run.w.w0 = 0xA5 :=
  exists_of_got (f := fun t => t.run.w.w0) (by decide)

theorem witness_CursorNeverGoesBack :
    let s := withPort (ready [0xA5] 0) (.write 0x0050 0x1009)
    Inv s ∧ ¬ resetsNext s ∧ ∃ t, step s = .next t ∧ t.run.status.err = .endOfData :=
  ⟨inv_of_check (by decide), not_resetsNext_write rfl (by decide),
    exists_of_got (f := fun t => t.run.status.err) (by decide)⟩

theorem witness_ErrorRegistersKeepTheLastRaise :
    (let s := withPort (ready [0xA5] 0) (.read 0x0001)
     s.run.mode ≠ .inframe ∧ s.port = [.read 0x0001] ∧ ∃ t, step s = .next t ∧ t.rdata = 0x40) ∧
    (let s := withPort (ready [0xA5] 0) (.write 0x0050 0x5000)
     ¬ resetsNext s ∧ (∀ i, decode .command 0x5000 ≠ .ok i) ∧
      ∃ t, step s = .next t ∧ t.run.status.err = .illegalCommand) ∧
    (let s := withPort (ready [0xA5] 0) (.write 0x003D 1)
     s.params.nfmax = 256 ∧ WriteAccepted 0x003D 1 s ∧ ∃ t, step s = .next t ∧ t.run.pa.skip = 1) ∧
    (let s := withPort (ready [0xA5] 0) (.write 0x003E 1)
     s.params.nfmax = 256 ∧ ¬ WriteAccepted 0x003E 1 s ∧ ∃ t, step s = .next t ∧ t.run.pval = 0) ∧
    (∃ t, step (withPort (ready [0xA5] 0) (.write 0x0050 0x1009)) = .next t ∧ t.run.status.err = .endOfData) := by
  refine ⟨⟨by decide, rfl, exists_of_got (f := fun t => t.rdata) (by decide)⟩,
    ⟨not_resetsNext_write rfl (by decide), fun i h => ?_, exists_of_got (f := fun t => t.run.status.err) (by decide)⟩,
    ⟨rfl, .inr ⟨rfl, ?_⟩, exists_of_got (f := fun t => t.run.pa.skip) (by decide)⟩,
    ⟨rfl, ?_, exists_of_got (f := fun t => t.run.pval) (by decide)⟩,
    exists_of_got (f := fun t => t.run.status.err) (by decide)⟩
  · have he : decode .command 0x5000 = .error .reservedClass := by decide
    rw [he] at h; cases h
  · unfold OperandWrite; decide
  · unfold WriteAccepted ConfigWrite OperandWrite; decide

theorem witness_OnlyFramesTouchHistoryAndStatistics :
    let s := withPort (ready [0xA5] 0) (.write 0x0038 5)
    s.run.mode ≠ .inframe ∧ ¬ resetsNext s ∧
      (∀ v rest k, s.port = .write 0x0050 v :: rest → decode .command v ≠ .ok (.frame k)) ∧
      (∀ r v rest, s.port = .write r v :: rest → ¬ (0x18 ≤ r.toNat ∧ r.toNat < 0x1C)) ∧
      ∃ t, step s = .next t ∧ t.run.pa.raw = 5 := by
  refine ⟨by decide, not_resetsNext_write rfl (by decide), fun v rest k h => ?_, fun r v rest h => ?_,
    exists_of_got (f := fun t => t.run.pa.raw) (by decide)⟩
  · simp [withPort] at h
  · simp only [withPort, List.cons.injEq, HostAction.write.injEq] at h
    rw [← h.1.1]; decide

theorem witness_ExceptionsArePrecise :
    (∃ t, exec (.decTagvar 8) (ready [0xFF, 0x01] 0) = .next t ∧ t.run.status.err = .endOfData) ∧
    (∃ t, exec .rduvar (ready [0xFF, 0xFF, 0xFF, 0xFF, 0x10] 0) = .next t ∧ t.run.status.err = .malformedFrame) ∧
    (∃ t, exec (.predMotor0 true) (ready [] 0) = .next t ∧ t.run.status.err = .invalidHeaderReference) ∧
    (∃ t, exec (.frame .main) (frameReady [0x80] 0 [0x10]) = .next t ∧ t.run.status.err = .endOfData) ∧
    (Instr.decTagvar 8).slot = .command ∧ (ready [] 0).run.mode ≠ .inframe :=
  ⟨exists_of_got (f := fun t => t.run.status.err) (by decide), exists_of_got (f := fun t => t.run.status.err) (by decide),
    exists_of_got (f := fun t => t.run.status.err) (by decide),
    exists_of_got (f := fun t => t.run.status.err) (by decide), by decide, by decide⟩

theorem witness_StepKeepsTheInvariant :
    let s := withPort sampleFrame (.write 0x0050 0x4000)
    Inv s ∧ ∃ t, step s = .next t ∧ t.run.stats.nframes.main = 1 :=
  ⟨inv_of_check (by decide), exists_of_got (f := fun t => t.run.stats.nframes.main) (by decide)⟩

theorem witness_EveryStepHasANextState : Inv (withPort sampleFrame (.write 0x0050 0x4000)) := inv_of_check (by decide)

end Sys2Proof.Tests
end

section
/-! PROOFS. Zig-zag (00 R9): its formula, its signed value, and that the writer's code (40 R105) is its inverse. -/

namespace Sys2Proof.Machine

theorem getLsbD_zero_eq_odd (u : Word) : u.getLsbD 0 = decide (u.toNat % 2 = 1) := by
  rw [← BitVec.testBit_toNat, Nat.testBit_zero]

theorem toInt_not_word (x : Word) : (~~~x).toInt = -x.toInt - 1 := by
  simp only [BitVec.toInt_eq_toNat_cond, BitVec.toNat_not]
  omega

/-- The logical shift clears bit 31, so the half of a word is its own signed value. -/
theorem toInt_ushiftRight_one (u : Word) : (u >>> 1).toInt = (u.toNat / 2 : Nat) := by
  rw [BitVec.toInt_ushiftRight, if_neg Nat.one_ne_zero, Nat.shiftRight_one]

/-! ## The formula and the signed value -/

theorem zigzag_eq_xor_mask (u : Word) :
    zigzag u = (u >>> 1) ^^^ (if u.getLsbD 0 then BitVec.allOnes 32 else 0) := by
  unfold zigzag wrap
  cases u.getLsbD 0 with
  | false => rfl
  | true => rfl

theorem zigzag_of_even {u : Word} (h : u.toNat % 2 = 0) : zigzag u = u >>> 1 := by
  have hbit : u.getLsbD 0 = false := by simp only [getLsbD_zero_eq_odd, h]; rfl
  rw [zigzag_eq_xor_mask, hbit]
  exact BitVec.xor_zero

theorem zigzag_of_odd {u : Word} (h : u.toNat % 2 = 1) : zigzag u = ~~~(u >>> 1) := by
  have hbit : u.getLsbD 0 = true := by simp only [getLsbD_zero_eq_odd, h]; rfl
  rw [zigzag_eq_xor_mask, hbit]
  exact BitVec.xor_allOnes

theorem toInt_zigzag (u : Word) : (zigzag u).toInt = zigzagValue u.toNat := by
  unfold zigzagValue
  split
  next heven => rw [zigzag_of_even heven, toInt_ushiftRight_one]
  next hodd =>
    rw [zigzag_of_odd (Nat.mod_two_ne_zero.mp hodd), toInt_not_word, toInt_ushiftRight_one]
    omega

/-! ## One code for every value -/

/-- Even codes stand for the values from 0 up and odd codes for those below 0, each in order. -/
theorem zigzagValue_injective : Function.Injective zigzagValue := by
  intro u v h
  unfold zigzagValue at h
  split at h <;> split at h <;> omega

theorem zigzag_injective : Function.Injective zigzag := by
  intro u v h
  have hval : zigzagValue u.toNat = zigzagValue v.toNat := by rw [← toInt_zigzag, h, toInt_zigzag]
  exact BitVec.eq_of_toNat_eq (zigzagValue_injective hval)

theorem getLsbD_zigzag (u : Word) {i : Nat} (hi : i < 32) :
    (zigzag u).getLsbD i = (u.getLsbD (i + 1) ^^ u.getLsbD 0) := by
  rw [zigzag_eq_xor_mask, BitVec.getLsbD_xor, BitVec.getLsbD_ushiftRight, Nat.add_comm 1 i]
  congr 1
  cases u.getLsbD 0 with
  | false => exact BitVec.getLsbD_zero
  | true => simpa only [if_pos, BitVec.getLsbD_allOnes, decide_eq_true_eq] using hi

/-- The arithmetic shift by 31 spreads the sign bit over the whole word. -/
theorem getLsbD_sshiftRight_31 (x : Word) {i : Nat} (hi : i < 32) : (x.sshiftRight 31).getLsbD i = x.getLsbD 31 := by
  rw [BitVec.getLsbD_sshiftRight, BitVec.msb_eq_getLsbD_last]
  rcases Nat.eq_zero_or_pos i with rfl | hpos
  · simp
  · simp [hi, Nat.not_lt.mpr (Nat.add_le_add_left hpos 31)]

theorem getLsbD_svarCode_zero (x : Word) : (svarCode x).getLsbD 0 = x.getLsbD 31 := by
  rw [svarCode, BitVec.getLsbD_xor, getLsbD_sshiftRight_31 x (by decide)]
  simp

theorem getLsbD_svarCode_succ (x : Word) {i : Nat} (hi : i < 31) :
    (svarCode x).getLsbD (i + 1) = (x.getLsbD i ^^ x.getLsbD 31) := by
  have hi' : i + 1 < 32 := by omega
  rw [svarCode, BitVec.getLsbD_xor, getLsbD_sshiftRight_31 x hi', BitVec.getLsbD_shiftLeft]
  simp [hi']

/-- Unfolding the writer's code (40 R105) gives the value back: the sign bit, folded into bit 0, cancels itself. -/
theorem zigzag_svarCode (x : Word) : zigzag (svarCode x) = x := by
  refine BitVec.eq_of_getLsbD_eq fun i hi => ?_
  rw [getLsbD_zigzag _ hi, getLsbD_svarCode_zero]
  rcases Nat.lt_or_ge i 31 with hlow | htop
  · rw [getLsbD_svarCode_succ x hlow, Bool.xor_assoc, Bool.xor_self, Bool.xor_false]
  · obtain rfl : i = 31 := by omega
    rw [BitVec.getLsbD_of_ge _ _ (Nat.le_refl 32), Bool.false_xor]

theorem zigzag_surjective : Function.Surjective zigzag := fun x => ⟨svarCode x, zigzag_svarCode x⟩

/-- Settles O17: the signed value decides the code, and the writer's code of 40 R105 reaches every word. -/
theorem zigzagIsABijection : Obligations.ZigzagIsABijection :=
  ⟨fun u => ⟨zigzag_eq_xor_mask u, toInt_zigzag u⟩, zigzag_injective, zigzag_surjective⟩

end Sys2Proof.Machine
end

section
/-! PROOFS. The parts of the invariant, by name. -/

namespace Sys2Proof.Machine

section
variable {s : State}

theorem StorageOk.buf_wf (h : StorageOk s) : Memory.wf s.buf = true := by
  obtain ⟨hbuf, _⟩ := h
  exact hbuf

theorem StorageOk.fd_wf (h : StorageOk s) (k : Kind) : Memory.wf (s.cfg.fd.get k) = true := by
  obtain ⟨_, hfd, _⟩ := h
  exact hfd k

theorem StorageOk.cf_wf (h : StorageOk s) : Memory.wf s.run.cf = true := by
  obtain ⟨_, _, hcf, _⟩ := h
  exact hcf

theorem StorageOk.last_wf (h : StorageOk s) (k : Kind) : Memory.wf (s.run.hist.get k).l = true := by
  obtain ⟨_, _, _, hl, _⟩ := h
  exact hl k

theorem StorageOk.llast_wf (h : StorageOk s) (k : Kind) : Memory.wf (s.run.hist.get k).ll = true := by
  obtain ⟨_, _, _, _, hll, _⟩ := h
  exact hll k

theorem StorageOk.evVal_wf (h : StorageOk s) : Memory.wf s.run.ev.val = true := by
  obtain ⟨_, _, _, _, _, hev⟩ := h
  exact hev

theorem Inv.storage (h : Inv s) : StorageOk s := by
  obtain ⟨hstore, _⟩ := h
  exact hstore

theorem Inv.outside (h : Inv s) : s.run.mode ≠ .inframe := by
  obtain ⟨_, ⟨hm, _⟩, _⟩ := h
  exact hm

theorem Inv.cursor (h : Inv s) : s.run.bp.toNat ≤ 8 * s.cfg.buflen.toNat := by
  obtain ⟨_, _, ⟨hbp, _⟩, _⟩ := h
  exact hbp

/-- Every descriptor in use is legal outside CONFIG (30 R83). -/
theorem Inv.legal (h : Inv s) (hm : s.run.mode = .between) :
    ∀ k i, i < (s.cfg.nf.get k).toNat → descriptorOk ((s.cfg.fd.get k).read i) = true := by
  obtain ⟨_, _, _, ⟨_, hlegal⟩, _⟩ := h
  exact hlegal (by simp [hm])

end

end Sys2Proof.Machine
end

section
/-! PROOFS. All that a command can leave outside FRAME, said once for the 28 command words (30 R71 to R75). -/

namespace Sys2Proof.Machine

/-- The next states of a command executed outside FRAME. Every statement about "whichever command" is a case
distinction over these. -/
inductive CommandOutcome (s : State) : Instr → State → Prop
  | refused (i : Instr) : CommandOutcome s i (afterIllegal s)
  | illegalDefinition (k : Kind) (j : Nat) (hm : s.run.mode = .config) :
      CommandOutcome s .start (illegalDescriptor k j s)
  | started (hm : s.run.mode = .config) (hd : findIllegal s.cfg [.main, .slow, .gps, .gpshome] = none) :
      CommandOutcome s .start (complete { s with run.mode := .between })
  | ended (hm : s.run.mode = .between) : CommandOutcome s .endStream (complete { s with run.mode := .eos })
  | reset : CommandOutcome s .reset (resetMachine s)
  | aligned (hm : s.run.mode = .between) : CommandOutcome s .align (complete (setBp (alignUp s.run.bp.toNat) s))
  | completedRead (i : Instr) (ws : List Word) (bp : Nat) (hm : s.run.mode = .between) (hlen : ws.length ≤ 8)
      (hbp : s.run.bp.toNat ≤ 8 * s.cfg.buflen.toNat → bp ≤ 8 * s.cfg.buflen.toNat) :
      CommandOutcome s i (afterRead ws bp s)
  | raised (i : Instr) (x : Exc) (pos : Nat) (hm : s.run.mode = .between) : CommandOutcome s i (afterRaise x.err pos s)
  | predicted (i : Instr) (p : Pred) (v : Word) (hm : s.run.mode = .between) :
      CommandOutcome s i (afterPred v (diagnose p s))
  | headerAbsent (i : Instr) (hm : s.run.mode = .between) : CommandOutcome s i (afterFatal s)
  | frame (k : Kind) (t : State) (hm : s.run.mode = .between) (hn : s.cfg.nf.get k ≠ 0)
      (hr : frameRuns (s.cfg.nf.get k).toNat (enterFrame k s) = .next t) : CommandOutcome s (.frame k) t

theorem whenBetween_cases {s t : State} {o : Out} (h : whenBetween s o = .next t) :
    (s.run.mode = .between ∧ o = .next t) ∨ t = afterIllegal s := by
  by_cases hm : s.run.mode = .between
  · exact .inl ⟨hm, whenBetween_admitted hm o ▸ h⟩
  · rw [whenBetween_refused hm, Host.Outcome.next.injEq] at h
    exact .inr h.symm

theorem Rd.Forward.stream_of_raised {α : Type} {len bp pos : Nat} {r : Rd α} {x : Exc} (hf : r.Forward len bp)
    (h : r = .raised x pos) : x = .endOfData ∨ x = .malformedFrame := by subst h; exact hf

/-- A decoder raises stream exceptions only, wherever the cursor stands. -/
theorem decoderOf_raised_stream {e : Enc} {st : Stream} {bp want pos : Nat} {x : Exc}
    (h : decoderOf e st bp want = .raised x pos) : x = .endOfData ∨ x = .malformedFrame := by
  cases e with
  | svar => exact (oneWord_forward (rdsvar_forward st bp)).stream_of_raised h
  | uvar => exact (oneWord_forward (rduvar_forward st bp)).stream_of_raised h
  | neg14 =>
    have hu : ((rduvar st bp).andThen fun u bp' => Rd.ok (neg14 u) bp').Forward st.len bp :=
      (rduvar_forward st bp).andThen fun _ _ _ _ hle => ⟨le_refl _, hle⟩
    exact (oneWord_forward hu).stream_of_raised h
  | tagvar => exact (tagged_forward (slotVar_forward st) bp want _).stream_of_raised h
  | tag32 | tag16 => exact (tagged_forward (fun _ _ p hp => slotField_forward st _ p hp) bp want _).stream_of_raised h
  | null => cases h

/-- How a command that reads the stream ends. -/
theorem finishRead_outcome {s t : State} (i : Instr) {r : Rd (List Word)} (hm : s.run.mode = .between)
    (hok : ∀ ws bp, r = .ok ws bp →
      ws.length ≤ 8 ∧ (s.run.bp.toNat ≤ 8 * s.cfg.buflen.toNat → bp ≤ 8 * s.cfg.buflen.toNat))
    (hraised : ∀ x pos, r = .raised x pos → x = .endOfData ∨ x = .malformedFrame)
    (h : finishRead s r = .next t) : CommandOutcome s i t := by
  cases r with
  | ok ws bp =>
    rw [finishRead_ok, Host.Outcome.next.injEq] at h
    obtain ⟨hlen, hbp⟩ := hok ws bp rfl
    exact h ▸ .completedRead i ws bp hm hlen hbp
  | raised x pos =>
    rw [finishRead_raised (by simp [hm]) (hraised x pos rfl), Host.Outcome.next.injEq] at h
    exact h ▸ .raised i x pos hm

theorem bitCommand_outcome {s t : State} (i : Instr) {r : Rd Word}
    (hf : r.Forward s.cfg.buflen.toNat s.run.bp.toNat) (h : bitCommand s r = .next t) : CommandOutcome s i t := by
  rcases whenBetween_cases h with ⟨hm, h⟩ | rfl
  · have hword := oneWord_forward hf
    refine finishRead_outcome i hm (fun ws bp hr => ?_) (fun x pos => hword.stream_of_raised) h
    have hlen : ws.length = 1 := oneWord_length hr
    have hin : (Rd.ok ws bp).Forward s.cfg.buflen.toNat s.run.bp.toNat := hr ▸ hword
    exact ⟨by omega, fun _ => hin.2⟩
  · exact .refused i

theorem decCommand_outcome {s t : State} (i : Instr) {e : Enc} {want : BitVec 4}
    (h : decCommand e want s (decoderOf e) = .next t) : CommandOutcome s i t := by
  by_cases hw : 1 ≤ want.toNat ∧ want.toNat ≤ e.maxChunk
  · rw [decCommand, if_pos hw] at h
    rcases whenBetween_cases h with ⟨hm, h⟩ | rfl
    · refine finishRead_outcome i hm (fun ws bp hr => ⟨?_, fun hb => ?_⟩) (fun _ _ => decoderOf_raised_stream) h
      · have hmax : e.maxChunk ≤ 8 := by cases e <;> decide
        rw [decoderOf_length hw.1 hw.2 hr]
        omega
      · have hf := decoderOf_forward e s.stream s.run.bp.toNat want.toNat hb
        rw [hr] at hf
        exact hf.2
    · exact .refused i
  · rw [decCommand_illegal s _ (by omega), Host.Outcome.next.injEq] at h
    exact h ▸ .refused i

theorem predCommand_outcome {s t : State} (i : Instr) {p : Pred} {sg : Bool} (h : predCommand p sg s = .next t) :
    CommandOutcome s i t := by
  by_cases hm : s.run.mode = .between
  · cases hv : predict p s.cfg.hdr (paOperands sg s.run.pa) with
    | some v =>
      rw [predCommand_value hm hv, Host.Outcome.next.injEq] at h
      exact h ▸ .predicted i p v hm
    | none =>
      rw [predCommand_raise hm hv, Host.Outcome.next.injEq] at h
      exact h ▸ .headerAbsent i hm
  · rw [predCommand, whenBetween_refused hm, Host.Outcome.next.injEq] at h
    exact h ▸ .refused i

theorem execStart_outcome {s t : State} (h : execStart s = .next t) : CommandOutcome s .start t := by
  unfold execStart at h
  split at h
  next hm =>
    cases hd : findIllegal s.cfg [.main, .slow, .gps, .gpshome] with
    | some kj =>
      rw [hd, Host.Outcome.next.injEq] at h
      exact h ▸ .illegalDefinition kj.1 kj.2 hm
    | none =>
      rw [hd, Host.Outcome.next.injEq] at h
      exact h ▸ .started hm hd
  next =>
    rw [Host.Outcome.next.injEq] at h
    exact h ▸ .refused .start

theorem execFrame_outcome {s t : State} {k : Kind} (h : execFrame k s = .next t) :
    CommandOutcome s (.frame k) t := by
  rcases whenBetween_cases h with ⟨hm, h⟩ | rfl
  · split at h
    next =>
      rw [Host.Outcome.next.injEq] at h
      exact h ▸ .refused _
    next hn => exact .frame k t hm hn h
  · exact .refused _

/-- A command whose bit count is out of range is refused (30 R72). -/
theorem countedRead_outcome {s t : State} (i : Instr) {n : BitVec 6} {r : Rd Word}
    (hf : r.Forward s.cfg.buflen.toNat s.run.bp.toNat)
    (h : (if n.toNat ≤ 32 then bitCommand s r else .next (illegalCommand s)) = .next t) : CommandOutcome s i t := by
  split at h
  next => exact bitCommand_outcome i hf h
  next =>
    rw [Host.Outcome.next.injEq] at h
    exact h ▸ .refused i

/-- No descriptor half has a next state outside FRAME (30 R80). -/
theorem exec_encInstr_outside {s : State} (d : Descriptor) (hm : s.run.mode ≠ .inframe) :
    exec d.encInstr s = .fault .notSequenced := (exec_encInstr d s).trans (if_neg fun h => hm h.1)

theorem exec_predInstr_outside {s : State} (d : Descriptor) (hm : s.run.mode ≠ .inframe) :
    exec d.predInstr s = .fault .notSequenced := (exec_predInstr d s).trans (if_neg hm)

theorem exec_outcome {s t : State} {i : Instr} (hm : s.run.mode ≠ .inframe) (h : exec i s = .next t) :
    CommandOutcome s i t := by
  cases i with
  | start => exact execStart_outcome h
  | endStream =>
    rcases whenBetween_cases h with ⟨hb, h⟩ | rfl
    · rw [Host.Outcome.next.injEq] at h
      exact h ▸ .ended hb
    · exact .refused _
  | reset =>
    have ht : resetMachine s = t := Host.Outcome.next.inj h
    exact ht ▸ .reset
  | rdbits n => exact countedRead_outcome _ (rdbits_forward s.stream s.run.bp.toNat n.toNat) h
  | rdabits n => exact countedRead_outcome _ (rdabits_forward s.stream s.run.bp.toNat n.toNat) h
  | rduvar => exact bitCommand_outcome _ (rduvar_forward s.stream s.run.bp.toNat) h
  | rdsvar => exact bitCommand_outcome _ (rdsvar_forward s.stream s.run.bp.toNat) h
  | align =>
    rcases whenBetween_cases h with ⟨hb, h⟩ | rfl
    · rw [Host.Outcome.next.injEq] at h
      exact h ▸ .aligned hb
    · exact .refused _
  | decSvar _ => exact decCommand_outcome (e := .svar) _ h
  | decUvar _ => exact decCommand_outcome (e := .uvar) _ h
  | decNeg14 _ => exact decCommand_outcome (e := .neg14) _ h
  | decTagvar _ => exact decCommand_outcome (e := .tagvar) _ h
  | decTag32 _ => exact decCommand_outcome (e := .tag32) _ h
  | decTag16 _ => exact decCommand_outcome (e := .tag16) _ h
  | decNull _ => exact decCommand_outcome (e := .null) _ h
  | predZero _ => exact predCommand_outcome (p := .zero) _ h
  | predPrevious _ => exact predCommand_outcome (p := .previous) _ h
  | predStraightline _ => exact predCommand_outcome (p := .straightline) _ h
  | predAverage2 _ => exact predCommand_outcome (p := .average2) _ h
  | predMinthrottle _ => exact predCommand_outcome (p := .minthrottle) _ h
  | predMotor0 _ => exact predCommand_outcome (p := .motor0) _ h
  | predIncrement _ => exact predCommand_outcome (p := .increment) _ h
  | predHomelat _ => exact predCommand_outcome (p := .homelat) _ h
  | predFifteenhundred _ => exact predCommand_outcome (p := .fifteenhundred) _ h
  | predVbatref _ => exact predCommand_outcome (p := .vbatref) _ h
  | predLastmainframetime _ => exact predCommand_outcome (p := .lastmainframetime) _ h
  | predMinmotor _ => exact predCommand_outcome (p := .minmotor) _ h
  | frame k => exact execFrame_outcome h
  | fdSvar sg p => cases (exec_encInstr_outside ⟨sg, .svar, p⟩ hm).symm.trans h
  | fdUvar sg p => cases (exec_encInstr_outside ⟨sg, .uvar, p⟩ hm).symm.trans h
  | fdNeg14 sg p => cases (exec_encInstr_outside ⟨sg, .neg14, p⟩ hm).symm.trans h
  | fdTagvar sg p => cases (exec_encInstr_outside ⟨sg, .tagvar, p⟩ hm).symm.trans h
  | fdTag32 sg p => cases (exec_encInstr_outside ⟨sg, .tag32, p⟩ hm).symm.trans h
  | fdTag16 sg p => cases (exec_encInstr_outside ⟨sg, .tag16, p⟩ hm).symm.trans h
  | fdNull sg p => cases (exec_encInstr_outside ⟨sg, .null, p⟩ hm).symm.trans h
  | fdZero sg e => cases (exec_predInstr_outside ⟨sg, e, .zero⟩ hm).symm.trans h
  | fdPrevious sg e => cases (exec_predInstr_outside ⟨sg, e, .previous⟩ hm).symm.trans h
  | fdStraightline sg e => cases (exec_predInstr_outside ⟨sg, e, .straightline⟩ hm).symm.trans h
  | fdAverage2 sg e => cases (exec_predInstr_outside ⟨sg, e, .average2⟩ hm).symm.trans h
  | fdMinthrottle sg e => cases (exec_predInstr_outside ⟨sg, e, .minthrottle⟩ hm).symm.trans h
  | fdMotor0 sg e => cases (exec_predInstr_outside ⟨sg, e, .motor0⟩ hm).symm.trans h
  | fdIncrement sg e => cases (exec_predInstr_outside ⟨sg, e, .increment⟩ hm).symm.trans h
  | fdHomelat sg e => cases (exec_predInstr_outside ⟨sg, e, .homelat⟩ hm).symm.trans h
  | fdFifteenhundred sg e => cases (exec_predInstr_outside ⟨sg, e, .fifteenhundred⟩ hm).symm.trans h
  | fdVbatref sg e => cases (exec_predInstr_outside ⟨sg, e, .vbatref⟩ hm).symm.trans h
  | fdLastmainframetime sg e => cases (exec_predInstr_outside ⟨sg, e, .lastmainframetime⟩ hm).symm.trans h
  | fdMinmotor sg e => cases (exec_predInstr_outside ⟨sg, e, .minmotor⟩ hm).symm.trans h

end Sys2Proof.Machine
end

section
/-! PROOFS. What a FRAME command leaves under the invariant: the result of its reading (43 R173 to R179). -/

namespace Sys2Proof.Machine

/-- CF read from 0 on is the list of values it holds. -/
theorem CfHolds.take_eq {cf : Cells 32} {vals : List Word} (hc : CfHolds cf vals) : cf.take vals.length = vals := by
  refine List.ext_getElem (by simp [Cells.take]) fun i _ hi => ?_
  simp [Cells.take, hc.2 i hi]

/-- A cursor within the range of BP is what BP reads as. -/
theorem toNat_bitAddr {bp : Nat} (hb : bp < 2 ^ 35) : (BitVec.ofNat 35 bp).toNat = bp := by
  rw [BitVec.toNat_ofNat]
  exact Nat.mod_eq_of_lt hb

section
variable {k : Kind} {s : State} {stubs : List Pred} {bp fi : Nat} {cf : Cells 32} {vals : List Word}

theorem plausible_midFrame (hb : bp < 2 ^ 35) (hc : CfHolds cf vals) (hl : vals.length = (s.cfg.nf.get k).toNat) :
    plausible (midFrame k s stubs bp cf fi [] 0) = plausibleReading s k vals bp := by
  have hcursor := toNat_bitAddr hb
  have hvals : cf.take (s.cfg.nf.get k).toNat = vals := hl ▸ hc.take_eq
  unfold plausible plausibleReading
  rw [midFrame_params]
  cases s.params.plausible with
  | alwaysTrue => rfl
  | custom =>
    show Config.plausible k (cf.take (State.frameNf (midFrame k s stubs bp cf fi [] 0))) _ _ _ = _
    rw [State.frameNf, midFrame_frame, midFrame_cfg, midFrame_buf, midFrame_bp, hcursor, hvals]

/-- The commit stores the values of the reading (43 R178). -/
theorem commit_midFrame (hst : StorageOk s) (hm : s.run.mode = .between) (hb : bp < 2 ^ 35) (hc : CfHolds cf vals)
    (hl : vals.length = (s.cfg.nf.get k).toNat) :
    commit (midFrame k s stubs bp cf fi [] 0) =
      { goodFrame k vals bp stubs s with run.cf := cf, frame := FrameState.idle } := by
  have hnf : s.cfg.nf.get k = BitVec.ofNat 16 vals.length := by rw [hl, BitVec.ofNat_toNat, BitVec.setWidth_eq]
  simp only [commit, goodFrame, pushHistory, bytesConsumed, State.frameNf, midFrame_frame, midFrame_cfg, midFrame_cf,
    midFrame_hist, midFrame_skip, midFrame_bp, toNat_bitAddr hb, ← hl, copy_eq_storeFrom hc (hst.last_wf k)]
  simp [midFrame, copy_eq_storeFrom hc hst.evVal_wf, hm, hnf]

theorem finishFrame_midFrame (hst : StorageOk s) (hm : s.run.mode = .between) (hb : bp < 2 ^ 35) (hc : CfHolds cf vals)
    (hl : vals.length = (s.cfg.nf.get k).toNat) :
    finishFrame (midFrame k s stubs bp cf fi [] 0) =
      { (if plausibleReading s k vals bp then goodFrame k vals bp stubs s
          else badFrame k .malformedFrame bp (s.cfg.nf.get k).toNat stubs s) with
        run.cf := cf, frame := FrameState.idle } := by
  rw [finishFrame, plausible_midFrame hb hc hl]
  split
  next => exact commit_midFrame hst hm hb hc hl
  next =>
    rw [takeException_inside (midFrame_mode ..), midFrame_abandon, midFrame_bp, toNat_bitAddr hb, State.frameNf,
      midFrame_cfg]
    rfl

end

/-- A frame's result has the transient state of the state that FRAME was called in. -/
theorem frameResult_frame (k : Kind) (s : State) : (frameResult k s).frame = s.frame := by
  have htraces : ∀ stubs, (frameTraces stubs s).frame = s.frame := fun stubs => by rw [frameTraces_keeps]
  unfold frameResult
  split
  · split <;> exact htraces _
  · exact htraces _

/-- A reading that reaches the end has one value for each field and a cursor inside the buffer; FRAME leaves the
reading's result, with canonical leftovers in CF. -/
theorem exec_frame_reading {s : State} {k : Kind} (hinv : Inv s) (hm : s.run.mode = .between)
    (hn : s.cfg.nf.get k ≠ 0) :
    (∀ vals bp stubs, readFrame s k = .good vals bp stubs →
      vals.length = (s.cfg.nf.get k).toNat ∧ bp ≤ 8 * s.cfg.buflen.toNat) ∧
    ∃ cf, Memory.wf cf = true ∧ exec (.frame k) s = .next { frameResult k s with run.cf := cf } := by
  obtain ⟨hst, ⟨_, hidle⟩, _⟩ := id hinv
  obtain ⟨hlen, hdef⟩ := definition_at (s.cfg.fd.get k) (s.cfg.nf.get k).toNat (hinv.legal hm k)
  have hcf : CfHolds s.run.cf [] := ⟨hst.cf_wf, fun _ h => absurd h (Nat.not_lt_zero _)⟩
  have hspec := frameRuns_spec (k := k) (s := s) (s.cfg.nf.get k).toNat 0 s.run.bp.toNat (definitionOf s k) [] []
    s.run.cf hcf rfl (by rw [Nat.zero_add]; exact hlen) hdef (le_of_eq hlen) hinv.cursor
  have hexec : exec (.frame k) s =
      frameRuns (s.cfg.nf.get k).toNat (midFrame k s [] s.run.bp.toNat s.run.cf 0 [] 0) := by
    show execFrame k s = _
    rw [execFrame, whenBetween_admitted hm, if_neg hn, enterFrame_eq_midFrame]
  have hleaves : ∀ cf, frameRuns (s.cfg.nf.get k).toNat (midFrame k s [] s.run.bp.toNat s.run.cf 0 [] 0) =
        .next { frameResult k s with run.cf := cf, frame := FrameState.idle } →
      exec (.frame k) s = .next { frameResult k s with run.cf := cf } := by
    intro cf h
    rw [hexec, h, ← hidle, ← frameResult_frame k s]
  have hbuf := s.cfg.buflen.isLt
  rw [← readFrame] at hspec
  cases hr : readFrame s k with
  | good vals bp stubs =>
    rw [hr] at hspec
    obtain ⟨cf, hc, hl, _, hle, he⟩ := hspec
    refine ⟨fun _ _ _ h => by cases h; exact ⟨hl, hle⟩, cf, hc.1, hleaves cf ?_⟩
    rw [he, closeFrame, if_pos (midFrame_mode ..), finishFrame_midFrame hst hm (by omega) hc hl, frameResult, hr]
  | bad x pos i stubs =>
    rw [hr] at hspec
    obtain ⟨cf, hc, he⟩ := hspec
    refine ⟨(fun _ _ _ h => by cases h), cf, hc, hleaves cf ?_⟩
    rw [he, frameResult, hr]

end Sys2Proof.Machine
end

section
/-! PROOFS. The invariant: kept by every command, every register write and every reset. -/

namespace Sys2Proof.Machine

/-! ## What START has checked (43 R181) -/

theorem descriptorOk_of_firstIllegal_none {fd : Cells 8} {left i : Nat} (h : firstIllegal fd left i = none) :
    ∀ j < left, descriptorOk (fd.read (i + j)) = true := by
  induction left generalizing i with
  | zero => exact fun j hj => absurd hj (Nat.not_lt_zero j)
  | succ left ih =>
    rw [firstIllegal] at h
    split at h
    next hok =>
      intro j hj
      cases j with
      | zero => exact hok
      | succ j =>
        have hrec := ih h j (by omega)
        rwa [show i + 1 + j = i + (j + 1) by omega] at hrec
    next => cases h

theorem descriptorOk_of_findIllegal_none {c : Configuration} {ks : List Kind} (h : findIllegal c ks = none) :
    ∀ k ∈ ks, ∀ i < (c.nf.get k).toNat, descriptorOk ((c.fd.get k).read i) = true := by
  induction ks with
  | nil => exact fun k hk => absurd hk List.not_mem_nil
  | cons a ks ih =>
    rw [findIllegal] at h
    cases hf : firstIllegal (c.fd.get a) (c.nf.get a).toNat 0 with
    | some i => rw [hf] at h; cases h
    | none =>
      rw [hf] at h
      intro k hk
      rcases List.mem_cons.mp hk with rfl | hk
      · intro i hi
        have hok := descriptorOk_of_firstIllegal_none hf i hi
        rwa [Nat.zero_add] at hok
      · exact ih h k hk

/-! ## Words returned (10 R21) -/

/-- W after a command that returns words: the words, and 0 in the registers after them. -/
theorem afterRead_w_get (ws : List Word) (bp : Nat) (s : State) (j : Nat) :
    (afterRead ws bp s).run.w.get j = if j < 8 then ws.getD j 0 else 0 := by
  by_cases hj : j < 8
  · rw [if_pos hj]
    interval_cases j <;> rfl
  · obtain ⟨i, rfl⟩ : ∃ i, j = i + 8 := ⟨j - 8, by omega⟩
    rw [if_neg hj]
    rfl

theorem wordsOk_afterRead {ws : List Word} (hlen : ws.length ≤ 8) (bp : Nat) (s : State) :
    WordsOk (afterRead ws bp s) := by
  have hcnt : (afterRead ws bp s).run.wcnt.toNat = ws.length := by
    simp only [afterRead, BitVec.toNat_ofNat]
    omega
  refine ⟨by omega, fun j hj => ?_⟩
  rw [afterRead_w_get]
  split
  · exact List.getD_eq_default _ _ (by omega)
  · rfl

/-! ## Commands -/

section
variable {s : State}

theorem inv_afterIllegal (h : Inv s) : Inv (afterIllegal s) := h

theorem inv_complete (h : Inv s) : Inv (complete s) := h

/-- After START, END or an exception that is fatal the mode is neither INFRAME nor CONFIG; entering it asks for legal
descriptors. -/
theorem inv_mode {m : Mode} (h : Inv s) (hframe : m ≠ .inframe) (hconfig : m ≠ .config)
    (hlegal : ∀ k i, i < (s.cfg.nf.get k).toNat → descriptorOk ((s.cfg.fd.get k).read i) = true) :
    Inv { s with run.mode := m } := by
  obtain ⟨hstore, ⟨_, hidle⟩, ⟨hbp, _⟩, ⟨hnf, _⟩, hrest⟩ := h
  exact ⟨hstore, ⟨hframe, hidle⟩, ⟨hbp, fun hc => absurd hc hconfig⟩, ⟨hnf, fun _ => hlegal⟩, hrest⟩

theorem inv_started (h : Inv s) (hd : findIllegal s.cfg [.main, .slow, .gps, .gpshome] = none) :
    Inv { s with run.mode := .between } :=
  inv_mode h (by simp) (by simp) fun k => descriptorOk_of_findIllegal_none hd k (by cases k <;> simp)

theorem inv_resetMachine (h : Memory.wf s.buf = true) : Inv (resetMachine s) := by
  have hnil : ∀ (w : Nat), Memory.wf ([] : Cells w) = true := fun _ => Memory.wf_nil
  refine ⟨⟨h, fun k => ?_, hnil 32, fun k => ?_, fun k => ?_, hnil 32⟩, ⟨by simp [RunState.reset], rfl⟩,
    ⟨Nat.zero_le _, fun _ => rfl⟩, ⟨fun k => ?_, fun hm => absurd rfl hm⟩, fun k hk => ?_, rfl,
    Nat.zero_le _, fun j _ => ?_⟩
  · cases k <;> exact hnil 8
  · cases k <;> exact hnil 32
  · cases k <;> exact hnil 32
  · cases k <;> exact Nat.zero_le _
  · cases k <;> cases hk
  · show WRegs.get RunState.reset.w j = 0
    unfold WRegs.get RunState.reset
    split <;> rfl

/-- The cursor moved within the buffer, after START. -/
theorem inv_setBp {bp : Nat} (h : Inv s) (hm : s.run.mode ≠ .config) (hbp : bp ≤ 8 * s.cfg.buflen.toNat) :
    Inv (setBp bp s) := by
  obtain ⟨hstore, hidle, _, hrest⟩ := h
  have hlt := s.cfg.buflen.isLt
  refine ⟨hstore, hidle, ⟨?_, fun hc => absurd hc hm⟩, hrest⟩
  simp only [setBp, BitVec.toNat_ofNat]
  omega

theorem inv_afterRead {ws : List Word} {bp : Nat} (h : Inv s) (hm : s.run.mode ≠ .config) (hlen : ws.length ≤ 8)
    (hbp : bp ≤ 8 * s.cfg.buflen.toNat) : Inv (afterRead ws bp s) := by
  obtain ⟨hstore, hidle, hcursor, hdefs, hhist, hcount, _⟩ := inv_setBp h hm hbp
  exact ⟨hstore, hidle, hcursor, hdefs, hhist, hcount, wordsOk_afterRead hlen bp s⟩

theorem inv_afterPred (h : Inv s) (p : Pred) (v : Word) : Inv (afterPred v (diagnose p s)) := by
  unfold diagnose
  split <;> exact h

theorem inv_afterFatal (h : Inv s) (hm : s.run.mode = .between) : Inv (afterFatal s) :=
  inv_mode (m := .fatal) h (by simp) (by simp) (h.legal hm)

/-! ## FRAME -/

/-- One frame more in the count of its kind is one event more (60 R221). -/
theorem sum_nframes_set (n : PerKind Word) (k : Kind) :
    n.get .main + n.get .slow + n.get .gps + n.get .gpshome + 1 =
      (n.set k (n.get k + 1)).get .main + (n.set k (n.get k + 1)).get .slow + (n.set k (n.get k + 1)).get .gps +
        (n.set k (n.get k + 1)).get .gpshome := by
  cases k <;> simp only [PerKind.get, PerKind.set] <;> ac_rfl

theorem inv_goodFrame {k : Kind} {vals : List Word} {bp : Nat} {stubs : List Pred} {cf : Cells 32} (h : Inv s)
    (hm : s.run.mode = .between) (hbp : bp ≤ 8 * s.cfg.buflen.toNat) (hcf : Memory.wf cf = true) :
    Inv { goodFrame k vals bp stubs s with run.cf := cf } := by
  obtain ⟨⟨hbuf, hfd, _, hl, hll, hev⟩, ⟨_, hidle⟩, ⟨hcur, _⟩, hdefs, hhist, hcount, hwords⟩ :=
    inv_setBp h (by simp [hm]) hbp
  unfold goodFrame
  rw [frameTraces_keeps]
  refine ⟨⟨hbuf, hfd, hcf, fun k' => ?_, fun k' => ?_, storeFrom_wf _ _ hev⟩, ⟨by simp [hm], hidle⟩,
    ⟨hcur, fun hc => by simp [hm] at hc⟩, hdefs, fun k' => ?_, ?_, hwords⟩
  · show Memory.wf ((s.run.hist.set k _).get k').l = true
    rw [PerKind.get_set]
    split
    · exact storeFrom_wf _ _ (hl k)
    · exact hl k'
  · show Memory.wf ((s.run.hist.set k _).get k').ll = true
    rw [PerKind.get_set]
    split
    · exact Memory.wf_copy _ _ (hll k)
    · exact hll k'
  · show ((s.run.hist.set k _).get k').vll = true → ((s.run.hist.set k _).get k').vl = true
    rw [PerKind.get_set]
    split
    · exact fun _ => rfl
    · exact hhist k'
  · show s.run.ev.seq + 1 = _
    have hseq : s.run.ev.seq = _ := hcount
    rw [hseq]
    exact sum_nframes_set s.run.stats.nframes k

theorem inv_badFrame {k : Kind} {x : Exc} {pos i : Nat} {stubs : List Pred} {cf : Cells 32} (h : Inv s)
    (hm : s.run.mode = .between) (hcf : Memory.wf cf = true) :
    Inv { badFrame k x pos i stubs s with run.cf := cf } := by
  have hmode : Inv { s with run.mode := if x = .invalidHeaderReference then .fatal else .between } :=
    inv_mode h (by split <;> simp) (by split <;> simp) (h.legal hm)
  obtain ⟨⟨hbuf, hfd, _, hhistories⟩, hrest⟩ := hmode
  unfold badFrame
  rw [frameTraces_keeps]
  exact ⟨⟨hbuf, hfd, hcf, hhistories⟩, hrest⟩

theorem inv_frame {k : Kind} {t : State} (h : Inv s) (hm : s.run.mode = .between) (hn : s.cfg.nf.get k ≠ 0)
    (ht : exec (.frame k) s = .next t) : Inv t := by
  obtain ⟨hgood, cf, hcf, he⟩ := exec_frame_reading h hm hn
  rw [he, Host.Outcome.next.injEq] at ht
  subst ht
  unfold frameResult
  cases hr : readFrame s k with
  | good vals bp stubs =>
    obtain ⟨_, hbp⟩ := hgood vals bp stubs hr
    by_cases hp : plausibleReading s k vals bp = true
    · simp only [hp, if_true]
      exact inv_goodFrame h hm hbp hcf
    · simp only [hp]
      exact inv_badFrame h hm hcf
  | bad x pos i stubs => exact inv_badFrame h hm hcf

/-- Every command keeps the invariant. -/
theorem inv_exec {i : Instr} {t : State} (h : Inv s) (ht : exec i s = .next t) : Inv t := by
  cases exec_outcome h.outside ht with
  | refused => exact inv_afterIllegal h
  | illegalDefinition k j hm => exact h
  | started hm hd => exact inv_complete (inv_started h hd)
  | ended hm => exact inv_complete (inv_mode h (by simp) (by simp) (h.legal hm))
  | reset => exact inv_resetMachine h.storage.buf_wf
  | aligned hm => exact inv_complete (inv_setBp h (by simp [hm]) (alignUp_le h.cursor))
  | completedRead _ ws bp hm hlen hle => exact inv_afterRead h (by simp [hm]) hlen (hle h.cursor)
  | raised => exact h
  | predicted _ p v hm => exact inv_afterPred h p v
  | headerAbsent _ hm => exact inv_afterFatal h hm
  | frame k _ hm hn hr => exact inv_frame h hm hn ht

end

/-! ## Register writes (10 R46) -/

section
variable {s : State} {v : Word}

/-- A configuration write in CONFIG keeps the invariant: BP is 0 there, NF is bounded, FD is written in canonical
form. -/
theorem inv_writeConfig {reg : Reg} {c : Configuration} (h : Inv s) (hm : s.run.mode = .config)
    (hw : writeConfig s.params.nfmax s.cfg v reg = some c) : Inv { s with cfg := c } := by
  obtain ⟨⟨hbuf, hfd, hfiles⟩, hidle, ⟨hbp, hzero⟩, ⟨hnf, _⟩, hrest⟩ := id h
  cases reg with
  | buflen =>
    rw [writeConfig, Option.some.injEq] at hw
    subst hw
    have hbp0 : s.run.bp.toNat = 0 := by rw [hzero hm]; rfl
    exact ⟨⟨hbuf, hfd, hfiles⟩, hidle, ⟨by rw [hbp0]; exact Nat.zero_le _, hzero⟩, ⟨hnf, fun hc => absurd hm hc⟩, hrest⟩
  | hdrValid | hdrMinthrottle | hdrVbatref | hdrMotorLo | hdrMotorHi | m0idx k =>
    rw [writeConfig, Option.some.injEq] at hw
    subst hw
    exact h
  | hdrFwvariant =>
    obtain ⟨_, ⟨⟩⟩ := Option.ite_none_right_eq_some.mp hw
    exact h
  | nf k =>
    obtain ⟨hle, ⟨⟩⟩ := Option.ite_none_right_eq_some.mp hw
    refine ⟨⟨hbuf, hfd, hfiles⟩, hidle, ⟨hbp, hzero⟩, ⟨fun k' => ?_, fun hc => absurd hm hc⟩, hrest⟩
    show ((s.cfg.nf.set k _).get k').toNat ≤ _
    rw [PerKind.get_set]
    split
    · refine le_trans ?_ hle
      rw [BitVec.extractLsb'_toNat, Nat.shiftRight_zero]
      exact Nat.mod_le _ _
    · exact hnf k'
  | fd k i =>
    obtain ⟨_, ⟨⟩⟩ := Option.ite_none_right_eq_some.mp hw
    refine ⟨⟨hbuf, fun k' => ?_, hfiles⟩, hidle, ⟨hbp, hzero⟩, ⟨hnf, fun hc => absurd hm hc⟩, hrest⟩
    show Memory.wf ((s.cfg.fd.set k _).get k') = true
    rw [PerKind.get_set]
    split
    · exact Memory.wf_write _ _ (hfd k)
    · exact hfd k'
  | _ => cases hw

theorem inv_portWrite (h : Inv s) (r : RegNo) : Inv (portWrite s r v) := by
  rcases portWrite_cases s r v with ⟨reg, s', _, hw, he⟩ | ⟨_, he⟩
  · rw [he]
    rcases writeReg_cases hw with ⟨hm, c, hc, rfl⟩ | ⟨_, r', hr, rfl⟩
    · exact inv_complete (inv_writeConfig h hm hc)
    · rw [writeOperand_keeps hr]
      exact h
  · rw [he]
    exact inv_afterIllegal h

end

/-- Settles O58: by the host action, and for a command by its outcome. -/
theorem stepKeepsTheInvariant : Obligations.StepKeepsTheInvariant := by
  intro s t h ht
  have hport : ∀ rest, Inv { s with port := rest } := fun _ => h
  rcases step_host h.outside with ⟨_, he⟩ | ⟨rest, _, he⟩ | ⟨r, rest, _, he⟩ | ⟨v, rest, i, _, _, he⟩ |
    ⟨v, rest, e, _, _, he⟩ | ⟨r, v, rest, _, _, he⟩ <;> rw [he] at ht
  · exact Host.Outcome.next.inj ht ▸ h
  · exact Host.Outcome.next.inj ht ▸ inv_resetMachine (hport rest).storage.buf_wf
  · exact Host.Outcome.next.inj ht ▸ hport rest
  · exact inv_exec (hport rest) ht
  · exact Host.Outcome.next.inj ht ▸ inv_afterIllegal (hport rest)
  · exact Host.Outcome.next.inj ht ▸ inv_portWrite (hport rest) r

end Sys2Proof.Machine
end

section
/-! PROOFS. FRAME from two states that agree on the past (10 R34): it reads history under a valid bit and below NF only,
and CF only where the frame itself has written it. -/

namespace Sys2Proof.Machine

/-- Other leftovers in CF, and another history. -/
abbrev withPast (cf : Cells 32) (h : PerKind History) (s : State) : State := { s with run.cf := cf, run.hist := h }

/-! ## The reading of a frame -/

section
variable {s : State} {k : Kind} {cf : Cells 32} {h : PerKind History}

/-- An operand under its valid bit is the same where the valid bits agree, and the values wherever it is set. -/
theorem optional_congr {b b' : Bool} {v v' : Word} (hb : b' = b) (hv : b = true → v' = v) :
    optional b' v' = optional b v := by
  subst hb
  cases b' with
  | true => rw [hv rfl]
  | false => rfl

theorem readingOperands_withPast (hp : SamePast s.cfg.nf s.run.hist h) (d : Descriptor) (vals : List Word) (raw : Word)
    (hl : vals.length < (s.cfg.nf.get k).toNat) :
    readingOperands (withPast cf h s) k d vals raw = readingOperands s k d vals raw := by
  obtain ⟨hvl, hvll, hlast, hllast⟩ := hp k
  simp only [readingOperands, optional_congr hvl fun hv => hlast hv _ hl, optional_congr hvll fun hv => hllast hv _ hl]

theorem readFields_withPast (hp : SamePast s.cfg.nf s.run.hist h) (bp : Nat) (ds : List Descriptor) :
    ∀ (raws vals : List Word) (stubs : List Pred), vals.length + ds.length ≤ (s.cfg.nf.get k).toNat →
      readFields (withPast cf h s) k bp ds raws vals stubs = readFields s k bp ds raws vals stubs := by
  induction ds with
  | nil => exact fun raws vals stubs _ => by simp only [readFields]
  | cons d ds ih =>
    intro raws vals stubs hl
    rw [List.length_cons] at hl
    cases raws with
    | nil => simp only [readFields]
    | cons raw raws =>
      have hops : readingOperands (withPast cf h s) k d vals raw = readingOperands s k d vals raw :=
        readingOperands_withPast hp d vals raw (by omega)
      simp only [readFields, hops]
      cases predict d.pred s.cfg.hdr (readingOperands s k d vals raw) with
      | some v =>
        have hlen : (vals ++ [v]).length = vals.length + 1 := List.length_append
        exact ih raws (vals ++ [v]) (stubs ++ stubOf d.pred) (by omega)
      | none => rfl

/-- The field steps of a run add at most one value for each descriptor. -/
theorem readFields_good_length {bp : Nat} (ds : List Descriptor) :
    ∀ {raws vals vals' : List Word} {stubs stubs' : List Pred} {bp' : Nat},
      readFields s k bp ds raws vals stubs = .good vals' bp' stubs' → vals'.length ≤ vals.length + ds.length := by
  induction ds with
  | nil =>
    intro raws vals vals' stubs stubs' bp' hr
    simp only [readFields, FrameReading.good.injEq] at hr
    rw [← hr.1]
    exact Nat.le_add_right _ _
  | cons d ds ih =>
    intro raws vals vals' stubs stubs' bp' hr
    cases raws with
    | nil =>
      simp only [readFields, FrameReading.good.injEq] at hr
      rw [← hr.1]
      exact Nat.le_add_right _ _
    | cons raw raws =>
      rw [readFields] at hr
      cases hv : predict d.pred s.cfg.hdr (readingOperands s k d vals raw) with
      | some v =>
        rw [hv] at hr
        have hle := ih hr
        have hlen : (vals ++ [v]).length = vals.length + 1 := List.length_append
        rw [List.length_cons]
        omega
      | none => rw [hv] at hr; cases hr

theorem readRuns_withPast (hp : SamePast s.cfg.nf s.run.hist h) (fuel : Nat) :
    ∀ (bp : Nat) (ds : List Descriptor) (vals : List Word) (stubs : List Pred),
      vals.length + ds.length ≤ (s.cfg.nf.get k).toNat →
      readRuns (withPast cf h s) k fuel bp ds vals stubs = readRuns s k fuel bp ds vals stubs := by
  induction fuel with
  | zero => exact fun _ _ _ _ _ => by simp only [readRuns]
  | succ fuel ih =>
    intro bp ds vals stubs hl
    cases ds with
    | nil => simp only [readRuns]
    | cons d ds =>
      obtain ⟨_, _, hrun⟩ := headRun_bounds d ds
      have hstream : (withPast cf h s).stream = s.stream := rfl
      simp only [readRuns, hstream]
      cases decoderOf d.enc s.stream bp (headRun d ds) with
      | raised x pos => rfl
      | ok raws bp' =>
        have htake : ((d :: ds).take (headRun d ds)).length = headRun d ds := List.length_take_of_le hrun
        have hfields := readFields_withPast (k := k) (cf := cf) hp bp' ((d :: ds).take (headRun d ds)) raws
          vals stubs (by omega)
        simp only [hfields]
        cases hr : readFields s k bp' ((d :: ds).take (headRun d ds)) raws vals stubs with
        | bad x pos i stubs' => rfl
        | good vals' bp'' stubs' =>
          have hgrow := readFields_good_length _ hr
          exact ih bp' ((d :: ds).drop (headRun d ds)) vals' stubs' (by rw [List.length_drop]; omega)

theorem definitionOf_length_le (s : State) (k : Kind) : (definitionOf s k).length ≤ (s.cfg.nf.get k).toNat := by
  refine le_trans (List.length_filterMap_le _ _) ?_
  simp [Cells.take]

theorem readFrame_withPast (hp : SamePast s.cfg.nf s.run.hist h) : readFrame (withPast cf h s) k = readFrame s k :=
  readRuns_withPast hp _ _ (definitionOf s k) [] [] (by simpa using definitionOf_length_le s k)

end

/-! ## The result of a frame -/

/-- The history of a kind after a frame of these values: one generation down (43 R178). -/
def History.push (vals : List Word) (h : History) : History :=
  { l := storeFrom 0 vals h.l, vl := true, ll := Cells.copy h.l vals.length h.ll, vll := h.vl }

theorem goodFrame_hist (k : Kind) (vals : List Word) (bp : Nat) (stubs : List Pred) (s : State) :
    (goodFrame k vals bp stubs s).run.hist = s.run.hist.set k ((s.run.hist.get k).push vals) := rfl

section
variable {s : State} {k : Kind} {cf : Cells 32} {h : PerKind History}

theorem frameTraces_withPast (stubs : List Pred) :
    frameTraces stubs (withPast cf h s) = withPast cf h (frameTraces stubs s) := by
  induction stubs using List.reverseRecOn with
  | nil => rfl
  | append_singleton stubs p ih => rw [frameTraces_snoc, frameTraces_snoc, ih]; rfl

theorem goodFrame_withPast (vals : List Word) (bp : Nat) (stubs : List Pred) :
    goodFrame k vals bp stubs (withPast cf h s) =
      withPast cf (h.set k ((h.get k).push vals)) (goodFrame k vals bp stubs s) := by
  simp only [goodFrame, frameTraces_withPast]
  rfl

theorem badFrame_withPast (x : Exc) (pos i : Nat) (stubs : List Pred) :
    badFrame k x pos i stubs (withPast cf h s) = withPast cf h (badFrame k x pos i stubs s) := by
  simp only [badFrame, frameTraces_withPast]

theorem badFrame_hist (x : Exc) (pos i : Nat) (stubs : List Pred) :
    (badFrame k x pos i stubs s).run.hist = s.run.hist := frameTraces_hist stubs s

/-- A frame of one value for each field leaves pasts that agree where it found pasts that agree. -/
theorem samePast_push {nf : PerKind (BitVec 16)} {p p' : PerKind History} {vals : List Word} (hp : SamePast nf p p')
    (hl : ∀ k, Memory.wf (p.get k).l = true ∧ Memory.wf (p'.get k).l = true)
    (hll : ∀ k, Memory.wf (p.get k).ll = true ∧ Memory.wf (p'.get k).ll = true)
    (hlen : vals.length = (nf.get k).toNat) :
    SamePast nf (p.set k ((p.get k).push vals)) (p'.set k ((p'.get k).push vals)) := by
  intro k'
  simp only [PerKind.get_set]
  split
  next hk =>
    subst hk
    obtain ⟨hvl, _, hlast, _⟩ := hp k'
    refine ⟨rfl, hvl, fun _ i hi => ?_, fun hv i hi => ?_⟩
    · have hin : 0 ≤ i ∧ i < 0 + vals.length := by omega
      simp only [History.push, storeFrom_read _ _ _ (hl k').1, storeFrom_read _ _ _ (hl k').2, dif_pos hin]
    · simp only [History.push, Cells.read_copy (hll k').1, Cells.read_copy (hll k').2, hlen, if_pos hi]
      exact hlast hv i hi
  next => exact hp k'

theorem frameResult_cfg : (frameResult k s).cfg = s.cfg := by
  unfold frameResult
  split
  · split <;> exact frameTraces_cfg _ s
  · exact frameTraces_cfg _ s

/-- The result of a frame under another past: another past that agrees with its own, nothing else. -/
theorem frameResult_withPast (hst : StorageOk s) (hst' : StorageOk (withPast cf h s))
    (hp : SamePast s.cfg.nf s.run.hist h)
    (hlen : ∀ vals bp stubs, readFrame s k = .good vals bp stubs → vals.length = (s.cfg.nf.get k).toNat) :
    ∃ h', frameResult k (withPast cf h s) = withPast cf h' (frameResult k s) ∧
      SamePast s.cfg.nf (frameResult k s).run.hist h' := by
  have hl : ∀ k, Memory.wf (s.run.hist.get k).l = true ∧ Memory.wf (h.get k).l = true :=
    fun k => ⟨hst.last_wf k, hst'.last_wf k⟩
  have hll : ∀ k, Memory.wf (s.run.hist.get k).ll = true ∧ Memory.wf (h.get k).ll = true :=
    fun k => ⟨hst.llast_wf k, hst'.llast_wf k⟩
  have hplaus : ∀ vals bp, plausibleReading (withPast cf h s) k vals bp = plausibleReading s k vals bp := fun _ _ => rfl
  simp only [frameResult, readFrame_withPast hp, hplaus]
  cases hr : readFrame s k with
  | good vals bp stubs =>
    simp only
    split
    · refine ⟨_, goodFrame_withPast vals bp stubs, ?_⟩
      rw [goodFrame_hist]
      exact samePast_push hp hl hll (hlen vals bp stubs hr)
    · exact ⟨h, badFrame_withPast .., by rw [badFrame_hist]; exact hp⟩
  | bad x pos i stubs => exact ⟨h, badFrame_withPast .., by rw [badFrame_hist]; exact hp⟩

/-- The invariant reads of the past its canonical form and its valid bits only. -/
theorem inv_withPast (hinv : Inv s) (hst : StorageOk (withPast cf h s)) (hp : SamePast s.cfg.nf s.run.hist h) :
    Inv (withPast cf h s) := by
  obtain ⟨_, hidle, hcursor, hdefs, hhist, hrest⟩ := hinv
  refine ⟨hst, hidle, hcursor, hdefs, fun k hk => ?_, hrest⟩
  obtain ⟨hvl, hvll, _⟩ := hp k
  exact hvl.trans (hhist k (hvll.symm.trans hk))

end

/-- FRAME of a kind that is not defined is refused (43 R173). -/
theorem exec_frame_undefined {s : State} {k : Kind} (hm : s.run.mode = .between) (hn : s.cfg.nf.get k = 0) :
    exec (.frame k) s = .next (afterIllegal s) := by
  show execFrame k s = _
  rw [execFrame, whenBetween_admitted hm, if_pos hn, illegalCommand_eq]

/-- Settles O47: FRAME leaves what its reading gives, and the reading is the same under the other past. -/
theorem frameNeverReadsLeftovers : Obligations.FrameNeverReadsLeftovers := by
  intro s t k cf h hinv hm hst' hp ht
  by_cases hn : s.cfg.nf.get k = 0
  · rw [exec_frame_undefined hm hn, Host.Outcome.next.injEq] at ht
    subst ht
    exact ⟨cf, h, exec_frame_undefined (s := withPast cf h s) hm hn, hp⟩
  · obtain ⟨hgood, c, _, he⟩ := exec_frame_reading hinv hm hn
    obtain ⟨_, c', _, he'⟩ := exec_frame_reading (inv_withPast hinv hst' hp) hm hn
    obtain ⟨h', hres, hsame⟩ := 
      frameResult_withPast (k := k) hinv.storage hst' hp fun vals bp stubs hr => (hgood vals bp stubs hr).1
    rw [he, Host.Outcome.next.injEq] at ht
    subst ht
    refine ⟨c', h', by rw [he', hres], ?_⟩
    show SamePast (frameResult k s).cfg.nf _ h'
    rw [frameResult_cfg]
    exact hsame

end Sys2Proof.Machine
end

section
/-! PROOFS. STATUS as a number and by its bits (10 R26, 60 R200). -/

namespace Sys2Proof.Machine

/-! ## Bit patterns set side by side -/

theorem toNat_append_eq_add {m n : Nat} (x : BitVec m) (y : BitVec n) :
    (x ++ y).toNat = x.toNat * 2 ^ n + y.toNat := by
  rw [BitVec.toNat_append, ← Nat.shiftLeft_add_eq_or_of_lt y.isLt, Nat.shiftLeft_eq]

theorem toNat_zext {n : Nat} (x : BitVec n) (h : n ≤ 32) : (zext x).toNat = x.toNat := by
  rw [zext, BitVec.toNat_setWidth]
  exact Nat.mod_eq_of_lt (lt_of_lt_of_le x.isLt (Nat.pow_le_pow_right (by decide) h))

/-- The low bits of a value as a register reads them. -/
theorem zext_low (v : Word) (n : Nat) (h : n ≤ 32) : (zext (v.extractLsb' 0 n)).toNat = v.toNat % 2 ^ n := by
  rw [toNat_zext _ h, BitVec.extractLsb'_toNat, Nat.shiftRight_zero]

/-! ## STATUS -/

/-- STATUS.ALIGNED: BP is a multiple of 8 (10 R26). -/
theorem aligned_eq (bp : BitAddr) : aligned bp = decide (bp.toNat % 8 = 0) := by
  rw [aligned, Bool.eq_iff_iff, beq_iff_eq, decide_eq_true_iff, ← BitVec.toNat_inj, BitVec.extractLsb'_toNat,
    Nat.shiftRight_zero]
  exact Iff.rfl

theorem toNat_errCode (e : ErrCode) : e.code.toNat = errNumber e := by cases e <;> rfl

theorem statusWord_eq (r : RunState) : statusWord r = BitVec.ofNat 32 (statusNumber r) := by
  apply BitVec.eq_of_toNat_eq
  simp only [statusWord, statusNumber, BitVec.toNat_setWidth, BitVec.toNat_ofNat, toNat_append_eq_add,
    BitVec.toNat_ofBool, aligned_eq, toNat_errCode]
  congr 1
  ring

theorem statusWord_getLsbD (r : RunState) (i : Nat) :
    (statusWord r).getLsbD i =
      if i < 4 then r.status.err.code.getLsbD i
      else if i = 4 then r.status.anyframe
      else if i = 5 then r.status.unsup
      else if i = 6 then decide (r.bp.toNat % 8 = 0)
      else decide (i = 7) && r.status.evvalid := by
  rcases Nat.lt_or_ge i 8 with hi | hi
  · simp only [statusWord, aligned_eq, BitVec.getLsbD_setWidth, BitVec.getLsbD_append, BitVec.getLsbD_ofBool]
    interval_cases i <;> rfl
  · have hout : ¬ i < 4 ∧ i ≠ 4 ∧ i ≠ 5 ∧ i ≠ 6 ∧ i ≠ 7 := by omega
    rw [statusWord, BitVec.getLsbD_setWidth, BitVec.getLsbD_of_ge _ _ hi]
    simp [hout]

/-- The low bits of STATUS are the code of ERR (60 R200). -/
theorem statusWord_err (r : RunState) : (statusWord r).extractLsb' 0 4 = r.status.err.code := by
  refine BitVec.eq_of_getLsbD_eq fun i hi => ?_
  simp [statusWord_getLsbD, hi]

theorem statusWord_high (r : RunState) : (statusWord r).extractLsb' 8 24 = 0 := by
  refine BitVec.eq_of_getLsbD_eq fun i hi => ?_
  have hout : ¬ 8 + i < 4 ∧ 8 + i ≠ 4 ∧ 8 + i ≠ 5 ∧ 8 + i ≠ 6 ∧ 8 + i ≠ 7 := by omega
  simp [statusWord_getLsbD, hout]

/-- Settles O60: the bits of the word that STATUS reads as, and the code in its low bits after each way to end. -/
theorem statusReadsItsBits : Obligations.StatusReadsItsBits := by
  refine ⟨rfl, fun s => ?_⟩
  have herr : ∀ s : State, (portRead s 0x0001).extractLsb' 0 4 = s.run.status.err.code := fun s => statusWord_err s.run
  have hbit : ∀ i, (portRead s 0x0001).getLsbD i = _ := statusWord_getLsbD s.run
  exact ⟨herr s, hbit 4, hbit 5, hbit 6, hbit 7, statusWord_high s.run, herr (afterIllegal s),
    fun pos => ⟨herr (afterRaise .endOfData pos s), herr (afterRaise .malformedFrame pos s)⟩, herr (afterFatal s)⟩

end Sys2Proof.Machine
end

section
/-! PROOFS. What a step runs, by the next host action and, inside FRAME, by the phase of the run (10 R46, 43 R175). -/

namespace Sys2Proof.Machine

section
variable {s : State} {rest : List HostAction}

theorem step_read {r : RegNo} (hm : s.run.mode ≠ .inframe) (hp : s.port = .read r :: rest) :
    step s = .next { s with port := rest, rdata := portRead s r } := by
  rw [step, fetch, if_neg hm, fetchHost, hp]
  rfl

theorem step_write {r : RegNo} {v : Word} (hm : s.run.mode ≠ .inframe) (hp : s.port = .write r v :: rest)
    (hr : r ≠ cmdReg) : step s = .next (portWrite { s with port := rest } r v) := by
  simp only [step, fetch, if_neg hm, fetchHost, hp, hostAction, if_neg hr]

theorem step_command {v : Word} {i : Instr} (hm : s.run.mode ≠ .inframe) (hp : s.port = .write cmdReg v :: rest)
    (hd : decode .command v = .ok i) : step s = exec i { s with port := rest } := by
  simp only [step, fetch, if_neg hm, fetchHost, hp, hostAction, if_true, hd]

/-- Inside FRAME, before its end, a step runs the half of the descriptor that the phase of the run asks for. -/
theorem step_inside {i : Instr} (hm : s.run.mode = .inframe) (hmore : ¬ (s.frame.raw = [] ∧ s.frameNf ≤ s.frame.fi))
    (hd : decode (frameSlot s) (zext (s.frameFd.read (slotIndex s))) = .ok i) : step s = exec i s := by
  simp only [step, fetch, if_pos hm, fetchFrame, if_neg hmore, hd]

end

/-- Settles O7: one step equation for a command, one for each phase of a run. -/
theorem stepRunsTheDecodedInstruction : Obligations.StepRunsTheDecodedInstruction := by
  intro s i
  refine ⟨fun v rest hm hp hd => step_command hm hp hd, fun hm hraw hfi hd => ?_, fun hm hraw hd => ?_⟩
  · refine step_inside hm (fun hend => Nat.not_lt.mpr hend.2 hfi) ?_
    rw [frameSlot, slotIndex, if_pos hraw, if_pos hraw]
    exact hd
  · refine step_inside hm (fun hend => hraw hend.1) ?_
    rw [frameSlot, slotIndex, if_neg hraw, if_neg hraw]
    exact hd

end Sys2Proof.Machine
end

section
/-! PROOFS. The register map (10 R45): from a number to its register and back, and what a read of the port answers. -/

namespace Sys2Proof.Machine

/-! ## From a number to its register -/

section
variable {m n : Nat}

theorem regOf_low (h : n < 0x10) : regOf m n = lowReg n := if_pos h

theorem regOf_kind (h : 0x10 ≤ n) (h' : n < 0x20) : regOf m n = some (kindReg n) := by
  rw [regOf, if_neg (by omega), if_pos h']

theorem regOf_w (h : 0x30 ≤ n) (h' : n < 0x38) : regOf m n = some (.w (n - 0x30)) := by
  rw [regOf, if_neg (by omega), if_neg (by omega), if_pos ⟨h, h'⟩]

theorem regOf_high (h : 0x20 ≤ n) (hw : ¬ (0x30 ≤ n ∧ n < 0x38)) (h' : n < 0x1000) : regOf m n = highReg n := by
  rw [regOf, if_neg (by omega), if_neg (by omega), if_neg hw, if_pos (by unfold fdBase; omega)]

/-- The windows above the single registers, at NFMAX = 256 (10 R45). -/
theorem regOf_window (h : 0x1000 ≤ n) :
    regOf 256 n =
      if n < 0x1400 then some (.fd (kindOfNat ((n - 0x1000) / 256)) ((n - 0x1000) % 256))
      else if 0x2000 ≤ n ∧ n < 0x2100 then some (.evVal (n - 0x2000)) else none := by
  have hstride : fdStride 256 = 256 := rfl
  have hfdBase : fdBase = 0x1000 := rfl
  have hevBase : evValBase = 0x2000 := rfl
  rw [regOf, if_neg (by omega), if_neg (by omega), if_neg (by omega), if_neg (by omega), hstride]
  by_cases hfd : n < 0x1400
  · rw [if_pos hfd, if_pos (by omega), if_pos (Nat.mod_lt _ (by decide)), hfdBase]
  · rw [if_neg hfd, if_neg (by omega)]
    by_cases hev : 0x2000 ≤ n ∧ n < 0x2100
    · rw [if_pos hev, if_pos (by omega), hevBase]
    · rw [if_neg hev, if_neg (by omega)]

/-- Every number with a register lies in one of the ranges of 10 R45. -/
theorem regOf_cases {reg : Reg} (h : regOf m n = some reg) :
    (n < 0x10 ∧ lowReg n = some reg) ∨ (0x10 ≤ n ∧ n < 0x20 ∧ kindReg n = reg) ∨
      (0x30 ≤ n ∧ n < 0x38 ∧ Reg.w (n - 0x30) = reg) ∨ (0x20 ≤ n ∧ n < 0x1000 ∧ highReg n = some reg) ∨
      (0x1000 ≤ n ∧ ((∃ k i, reg = .fd k i) ∨ ∃ i, reg = .evVal i)) := by
  rcases Nat.lt_or_ge n 0x10 with h1 | h1
  · exact .inl ⟨h1, regOf_low h1 ▸ h⟩
  rcases Nat.lt_or_ge n 0x20 with h2 | h2
  · exact .inr (.inl ⟨h1, h2, Option.some.inj (regOf_kind h1 h2 ▸ h)⟩)
  by_cases hw : 0x30 ≤ n ∧ n < 0x38
  · exact .inr (.inr (.inl ⟨hw.1, hw.2, Option.some.inj (regOf_w hw.1 hw.2 ▸ h)⟩))
  rcases Nat.lt_or_ge n 0x1000 with h3 | h3
  · exact .inr (.inr (.inr (.inl ⟨h2, h3, regOf_high h2 hw h3 ▸ h⟩)))
  rw [regOf, if_neg (by omega), if_neg (by omega), if_neg hw, if_neg (by unfold fdBase; omega)] at h
  refine .inr (.inr (.inr (.inr ⟨h3, ?_⟩)))
  split at h
  · exact .inl ⟨_, _, (Option.some.inj (Option.ite_none_right_eq_some.mp h).2).symm⟩
  · exact .inr ⟨_, (Option.some.inj (Option.ite_none_right_eq_some.mp h).2).symm⟩

/-- No single register stands between EV_NF and the FD windows but CMD. -/
theorem highReg_above {reg : Reg} (h : highReg n = some reg) : n < 0x43 ∨ reg = .cmd := by
  unfold highReg at h
  split at h <;> cases h <;> decide

end

theorem code_lt (k : Kind) : k.code.toNat < 4 := k.code.isLt

theorem kindOfNat_code (k : Kind) : kindOfNat k.code.toNat = k := by cases k <;> rfl

/-! ## From a register to its number -/

/-- The number of a register in 10 R45, at NFMAX = 256. -/
def Reg.number : Reg → Nat
  | .mode => 0x00
  | .status => 0x01
  | .bpByte => 0x02
  | .bpBit => 0x03
  | .buflen => 0x04
  | .errFi => 0x05
  | .errBpByte => 0x06
  | .errBpBit => 0x07
  | .hdrValid => 0x08
  | .hdrMinthrottle => 0x09
  | .hdrVbatref => 0x0A
  | .hdrMotorLo => 0x0B
  | .hdrMotorHi => 0x0C
  | .hdrFwvariant => 0x0D
  | .nf k => 0x10 + k.code.toNat
  | .m0idx k => 0x14 + k.code.toNat
  | .skip k => 0x18 + k.code.toNat
  | .nframes k => 0x1C + k.code.toNat
  | .ncorrupt => 0x20
  | .bytesConsumed => 0x21
  | .lastStart => 0x22
  | .lastEnd => 0x23
  | .diagCnt => 0x24
  | .diagLast => 0x25
  | .wcnt => 0x28
  | .w j => 0x30 + j
  | .paRaw => 0x38
  | .paLast => 0x39
  | .paLlast => 0x3A
  | .paM0 => 0x3B
  | .paValid => 0x3C
  | .paSkip => 0x3D
  | .pval => 0x3E
  | .evKind => 0x40
  | .evSeq => 0x41
  | .evNf => 0x42
  | .cmd => 0x50
  | .fd k i => 0x1000 + 0x100 * k.code.toNat + i
  | .evVal i => 0x2000 + i

/-- The index of a register file's entry is one that has a number. -/
def Reg.InMap : Reg → Prop
  | .w j => j < 8
  | .fd _ i => i < 256
  | .evVal i => i < 256
  | _ => True

theorem regOf_number {reg : Reg} (h : reg.InMap) : regOf 256 reg.number = some reg := by
  cases reg with
  | nf k | m0idx k | skip k | nframes k => cases k <;> rfl
  | w j =>
    have hj : j < 8 := h
    rw [Reg.number, regOf_w (by omega) (by omega), Nat.add_sub_cancel_left]
  | fd k i =>
    have hi : i < 256 := h
    have hk := code_lt k
    have hdiv : (0x1000 + 0x100 * k.code.toNat + i - 0x1000) / 256 = k.code.toNat := by omega
    have hmod : (0x1000 + 0x100 * k.code.toNat + i - 0x1000) % 256 = i := by omega
    rw [Reg.number, regOf_window (by omega), if_pos (by omega), hdiv, hmod, kindOfNat_code]
  | evVal i =>
    have hi : i < 256 := h
    rw [Reg.number, regOf_window (by omega), if_neg (by omega), if_pos (by omega), Nat.add_sub_cancel_left]
  | _ => rfl

theorem number_of_regOf {n : Nat} {reg : Reg} (h : regOf 256 n = some reg) : reg.number = n := by
  rcases regOf_cases h with ⟨_, h⟩ | ⟨h1, h2, rfl⟩ | ⟨h1, _, rfl⟩ | ⟨_, _, h⟩ | ⟨h1, _⟩
  · unfold lowReg at h
    split at h <;> cases h <;> rfl
  · interval_cases n <;> rfl
  · rw [Reg.number]
    omega
  · unfold highReg at h
    split at h <;> cases h <;> rfl
  · rw [regOf_window h1] at h
    split at h
    next hfd =>
      have hcode : ∀ q < 4, (kindOfNat q).code.toNat = q := by decide
      cases h
      rw [Reg.number, hcode _ (by omega)]
      omega
    next =>
      obtain ⟨hev, ⟨⟩⟩ := Option.ite_none_right_eq_some.mp h
      rw [Reg.number]
      omega

/-! ## What a read answers (10 R46) -/

section
variable {s : State} {r : RegNo}

theorem portRead_of_regOf {reg : Reg} (h : regOf s.params.nfmax r.toNat = some reg) : portRead s r = readReg s reg := by
  rw [portRead, h]

theorem portRead_of_none (h : regOf s.params.nfmax r.toNat = none) : portRead s r = 0 := by
  rw [portRead, h]

/-- A read at a register's number, at NFMAX = 256. -/
theorem portRead_number (hn : s.params.nfmax = 256) {reg : Reg} (hreg : reg.InMap) (hr : reg.number < 2 ^ 16) :
    portRead s (BitVec.ofNat 16 reg.number) = readReg s reg := by
  refine portRead_of_regOf ?_
  rw [hn, BitVec.toNat_ofNat, Nat.mod_eq_of_lt hr, regOf_number hreg]

end

theorem bpByte_eq (bp : BitAddr) : bp.extractLsb' 3 32 = BitVec.ofNat 32 (bp.toNat / 8) := by
  apply BitVec.eq_of_toNat_eq
  rw [BitVec.extractLsb'_toNat, Nat.shiftRight_eq_div_pow, BitVec.toNat_ofNat]

theorem bpBit_eq (bp : BitAddr) : zext (bp.extractLsb' 0 3) = BitVec.ofNat 32 (bp.toNat % 8) := by
  apply BitVec.eq_of_toNat_eq
  rw [toNat_zext _ (by decide), BitVec.extractLsb'_toNat, Nat.shiftRight_zero, BitVec.toNat_ofNat]
  omega

theorem m0idxWord_eq (x : M0Idx) :
    m0idxWord x = BitVec.ofNat 32 (2 ^ 31 * x.valid.toNat + x.index.toNat) := by
  apply BitVec.eq_of_toNat_eq
  have hv := Bool.toNat_lt x.valid
  have hi := x.index.isLt
  have hzero : (0 : BitVec 15).toNat = 0 := rfl
  simp only [m0idxWord, toNat_append_eq_add, BitVec.toNat_ofBool, BitVec.toNat_ofNat, hzero]
  omega

/-- Every register with one number reads as the field of its row. -/
theorem portRead_fixedRegisters (s : State) : ∀ p ∈ fixedRegisters s, portRead s p.1 = p.2 := by
  simp only [fixedRegisters, List.forall_mem_append, List.forall_mem_cons]
  refine ⟨⟨⟨rfl, statusWord_eq s.run, bpByte_eq s.run.bp, bpBit_eq s.run.bp, rfl, rfl, bpByte_eq s.run.errBp,
    bpBit_eq s.run.errBp, rfl, rfl, rfl, rfl, rfl, rfl, ?_⟩, ?_⟩, ?_⟩
  · exact List.forall_mem_nil _
  · exact ⟨rfl, rfl, rfl, rfl, rfl, rfl, rfl, rfl, rfl, rfl, rfl, rfl, rfl, rfl, rfl, List.forall_mem_nil _⟩
  · exact ⟨rfl, rfl, rfl, rfl, rfl, rfl, rfl, rfl, rfl, rfl, rfl, List.forall_mem_nil _⟩

theorem portRead_kindRegisters {s : State} (hn : s.params.nfmax = 256) (k : Kind) :
    ∀ p ∈ kindRegisters s k, portRead s (BitVec.ofNat 16 (p.1 + k.code.toNat)) = p.2 := by
  have hk := code_lt k
  simp only [kindRegisters, List.forall_mem_cons]
  refine ⟨portRead_number (reg := .nf k) hn trivial ?_,
    (portRead_number (reg := .m0idx k) hn trivial ?_).trans (m0idxWord_eq _),
    portRead_number (reg := .skip k) hn trivial ?_, portRead_number (reg := .nframes k) hn trivial ?_,
    List.forall_mem_nil _⟩ <;> (rw [Reg.number]; omega)

/-- Numbers with no register, CMD, and FD outside CONFIG read 0. -/
theorem portRead_zero {s : State} {r : RegNo} (hn : s.params.nfmax = 256)
    (h : r.toNat = 0x0E ∨ r.toNat = 0x0F ∨ r.toNat = 0x26 ∨ r.toNat = 0x27 ∨ (0x29 ≤ r.toNat ∧ r.toNat < 0x30) ∨
      r.toNat = 0x3F ∨ (0x43 ≤ r.toNat ∧ r.toNat < 0x1000) ∨ (0x1400 ≤ r.toNat ∧ r.toNat < 0x2000) ∨
      0x2100 ≤ r.toNat ∨ (s.run.mode ≠ .config ∧ 0x1000 ≤ r.toNat ∧ r.toNat < 0x1400)) :
    portRead s r = 0 := by
  have hnone : ∀ n, r.toNat = n → regOf 256 n = none → portRead s r = 0 := fun n hr he =>
    portRead_of_none (by rw [hn, hr, he])
  rcases h with h | h | h | h | ⟨h1, h2⟩ | h | ⟨h1, h2⟩ | ⟨h1, h2⟩ | h | ⟨hm, h1, h2⟩
  · exact hnone _ h rfl
  · exact hnone _ h rfl
  · exact hnone _ h rfl
  · exact hnone _ h rfl
  · refine hnone _ rfl ?_
    interval_cases r.toNat <;> rfl
  · exact hnone _ h rfl
  · have hhigh : regOf s.params.nfmax r.toNat = highReg r.toNat := regOf_high (by omega) (by omega) h2
    cases he : highReg r.toNat with
    | none => exact portRead_of_none (hhigh.trans he)
    | some reg =>
      obtain rfl : reg = .cmd := (highReg_above he).resolve_left (by omega)
      exact portRead_of_regOf (hhigh.trans he)
  · refine hnone _ rfl ?_
    rw [regOf_window (by omega), if_neg (by omega), if_neg (by omega)]
  · refine hnone _ rfl ?_
    rw [regOf_window (by omega), if_neg (by omega), if_neg (by omega)]
  · have hfd := regOf_window (n := r.toNat) h1
    rw [if_pos h2] at hfd
    rw [portRead_of_regOf (hn ▸ hfd)]
    exact if_neg hm

/-- Settles O48: a read of the port is the read of its register, and the map gives each number its own. -/
theorem registerReadsChangeNothing : Obligations.RegisterReadsChangeNothing := by
  intro s r
  refine ⟨fun rest hm hp => step_read hm hp, fun hn h => portRead_zero hn h, fun hn => ⟨portRead_fixedRegisters s,
    fun k => ⟨portRead_kindRegisters hn k, fun i hi => ?_⟩⟩⟩
  have hk := code_lt k
  refine ⟨fun hm => ?_, portRead_number (reg := .evVal i) hn hi (by rw [Reg.number]; omega)⟩
  exact (portRead_number (reg := .fd k i) hn hi (by rw [Reg.number]; omega)).trans (if_pos hm)

end Sys2Proof.Machine
end

section
/-! PROOFS. Register writes (10 R46): which are accepted, the field that each sets, and what the port reads
afterwards. -/

namespace Sys2Proof.Machine

/-! ## Numbers and registers, one to one -/

theorem inMap_of_regOf {n : Nat} {reg : Reg} (h : regOf 256 n = some reg) : reg.InMap := by
  rcases regOf_cases h with ⟨_, h⟩ | ⟨h1, h2, rfl⟩ | ⟨h1, h2, rfl⟩ | ⟨_, _, h⟩ | ⟨h1, _⟩
  · unfold lowReg at h
    split at h <;> cases h <;> trivial
  · interval_cases n <;> trivial
  · show n - 0x30 < 8
    omega
  · unfold highReg at h
    split at h <;> cases h <;> trivial
  · rw [regOf_window h1] at h
    split at h
    next => cases h; exact Nat.mod_lt _ (by decide)
    next =>
      obtain ⟨hev, ⟨⟩⟩ := Option.ite_none_right_eq_some.mp h
      show n - 0x2000 < 256
      omega

theorem eq_number_iff {n : Nat} {reg reg' : Reg} (h : regOf 256 n = some reg) (h' : reg'.InMap) :
    n = reg'.number ↔ reg = reg' := by
  constructor
  · rintro rfl
    exact Option.some.inj (h.symm.trans (regOf_number h'))
  · rintro rfl
    exact (number_of_regOf h).symm

theorem regNo_eq_iff {r r' : RegNo} {reg reg' : Reg} (h : regOf 256 r.toNat = some reg)
    (h' : regOf 256 r'.toNat = some reg') : r = r' ↔ reg = reg' := by
  rw [← BitVec.toNat_inj, ← number_of_regOf h']
  exact eq_number_iff h (inMap_of_regOf h')

/-! ## Which writes are accepted -/

section
variable {s : State} {v : Word} {reg : Reg}

theorem writeReg_config {c : Configuration} (hm : s.run.mode = .config)
    (hc : writeConfig s.params.nfmax s.cfg v reg = some c) : writeReg s v reg = some { s with cfg := c } := by
  simp only [writeReg, hm, hc]

theorem writeReg_operand {r : RunState} (hm : s.run.mode = .config ∨ s.run.mode = .between)
    (hc : writeConfig s.params.nfmax s.cfg v reg = none) (hr : writeOperand s.run v reg = some r) :
    writeReg s v reg = some { s with run := r } := by
  rcases hm with hm | hm <;> simp only [writeReg, hm, hc, hr, Option.map_some]

/-- The registers of `ConfigWrite` take the value in CONFIG. -/
theorem writeConfig_of_configWrite {n : Nat} (h : ConfigWrite n v.toNat) :
    ∃ reg, regOf 256 n = some reg ∧ ∀ c, ∃ c', writeConfig 256 c v reg = some c' := by
  rcases h with rfl | ⟨h1, h2⟩ | ⟨rfl, hv⟩ | ⟨h1, h2, hv⟩ | ⟨h1, h2⟩ | ⟨h1, h2, hv⟩
  · exact ⟨.buflen, rfl, fun _ => ⟨_, rfl⟩⟩
  · interval_cases n <;> exact ⟨_, rfl, fun _ => ⟨_, rfl⟩⟩
  · exact ⟨.hdrFwvariant, rfl, fun _ => ⟨_, if_pos hv⟩⟩
  · interval_cases n <;> exact ⟨.nf _, rfl, fun _ => ⟨_, if_pos hv⟩⟩
  · interval_cases n <;> exact ⟨.m0idx _, rfl, fun _ => ⟨_, rfl⟩⟩
  · exact ⟨.fd _ _, (regOf_window h1).trans (if_pos h2), fun _ => ⟨_, if_pos hv⟩⟩

/-- The registers of `OperandWrite` take every value, and are not configuration. -/
theorem writeOperand_of_operandWrite {n : Nat} (v : Word) (h : OperandWrite n) :
    ∃ reg, regOf 256 n = some reg ∧ (∀ m c, writeConfig m c v reg = none) ∧
      ∀ r, ∃ r', writeOperand r v reg = some r' := by
  rcases h with ⟨h1, h2⟩ | ⟨h1, h2⟩
  · interval_cases n <;> exact ⟨.skip _, rfl, fun _ _ => rfl, fun _ => ⟨_, rfl⟩⟩
  · interval_cases n <;> exact ⟨_, rfl, fun _ _ => rfl, fun _ => ⟨_, rfl⟩⟩

theorem writeReg_of_accepted {r : RegNo} (hn : s.params.nfmax = 256) (h : WriteAccepted r v s) :
    ∃ reg t, regOf 256 r.toNat = some reg ∧ writeReg s v reg = some t := by
  have operand : (s.run.mode = .config ∨ s.run.mode = .between) → OperandWrite r.toNat →
      ∃ reg t, regOf 256 r.toNat = some reg ∧ writeReg s v reg = some t := fun hm ho => by
    obtain ⟨reg, hreg, hc, hw⟩ := writeOperand_of_operandWrite v ho
    obtain ⟨r', hr'⟩ := hw s.run
    exact ⟨reg, _, hreg, writeReg_operand hm (hc _ _) hr'⟩
  rcases h with ⟨hm, hc | ho⟩ | ⟨hm, ho⟩
  · obtain ⟨reg, hreg, hw⟩ := writeConfig_of_configWrite hc
    obtain ⟨c', hc'⟩ := hw s.cfg
    exact ⟨reg, _, hreg, writeReg_config hm (by rw [hn]; exact hc')⟩
  · exact operand (.inl hm) ho
  · exact operand (.inr hm) ho

/-- CMD is no register that a write sets. -/
theorem not_accepted_cmd {s : State} {v : Word} : ¬ WriteAccepted cmdReg v s := by
  unfold WriteAccepted ConfigWrite OperandWrite
  simp [cmdReg]

end

/-! ## What an accepted write sets -/

theorem writeReg_sets {s t : State} {r : RegNo} {v : Word} {reg : Reg} (hst : StorageOk s)
    (hr : regOf 256 r.toNat = some reg) (hw : writeReg s v reg = some t) : WriteSets r v s t := by
  have hfd := hst.fd_wf
  have hone : ∀ (r' : RegNo) (reg' : Reg), regOf 256 r'.toNat = some reg' → (r = r' ↔ reg = reg') :=
    fun _ _ => regNo_eq_iff hr
  have hnf : ∀ k : Kind, r.toNat = 0x10 + k.code.toNat ↔ reg = .nf k :=
    fun k => eq_number_iff hr (reg' := .nf k) trivial
  have hm0 : ∀ k : Kind, r.toNat = 0x14 + k.code.toNat ↔ reg = .m0idx k :=
    fun k => eq_number_iff hr (reg' := .m0idx k) trivial
  have hskip : ∀ k : Kind, r.toNat = 0x18 + k.code.toNat ↔ reg = .skip k :=
    fun k => eq_number_iff hr (reg' := .skip k) trivial
  have hfdi : ∀ (k : Kind) (i : Nat), (r.toNat = 0x1000 + 0x100 * k.code.toNat + i ∧ i < 256) ↔ reg = .fd k i := by
    refine fun k i => ⟨fun h => (eq_number_iff hr (reg' := .fd k i) h.2).mp h.1, fun h => ?_⟩
    have hin : i < 256 := by subst h; exact inMap_of_regOf hr
    exact ⟨(eq_number_iff hr (reg' := .fd k i) hin).mpr h, hin⟩
  unfold WriteSets
  simp only [hone 0x0004 .buflen rfl, hone 0x0008 .hdrValid rfl, hone 0x0009 .hdrMinthrottle rfl,
    hone 0x000A .hdrVbatref rfl, hone 0x000B .hdrMotorLo rfl, hone 0x000C .hdrMotorHi rfl,
    hone 0x000D .hdrFwvariant rfl, hnf, hm0, hskip, hfdi, hone 0x0038 .paRaw rfl, hone 0x0039 .paLast rfl,
    hone 0x003A .paLlast rfl, hone 0x003B .paM0 rfl, hone 0x003C .paValid rfl, hone 0x003D .paSkip rfl]
  have hwid : ∀ n ≤ 32, v.extractLsb' 0 n = v.setWidth n := fun _ h => (BitVec.setWidth_eq_extractLsb' h).symm
  rcases writeReg_cases hw with ⟨_, c, hc, rfl⟩ | ⟨_, r', hr', rfl⟩
  · cases reg with
    | buflen | hdrValid | hdrMinthrottle | hdrVbatref | hdrMotorLo | hdrMotorHi =>
      cases hc
      simp [hwid]
    | m0idx k =>
      cases hc
      simp [hwid, PerKind.get_set, eq_comm]
    | hdrFwvariant =>
      obtain ⟨_, ⟨⟩⟩ := Option.ite_none_right_eq_some.mp hc
      simp [hwid]
    | nf k =>
      obtain ⟨_, ⟨⟩⟩ := Option.ite_none_right_eq_some.mp hc
      simp [hwid, PerKind.get_set, eq_comm]
    | fd k i =>
      obtain ⟨_, ⟨⟩⟩ := Option.ite_none_right_eq_some.mp hc
      simp only [hwid 8 (by decide), reduceCtorEq, if_false, Reg.fd.injEq, true_and, and_true, PerKind.get_set]
      intro k' j
      by_cases hk : k' = k
      · subst hk
        simp [Cells.read_write (hfd k'), eq_comm]
      · simp [hk, Ne.symm hk]
    | _ => cases hc
  · cases reg with
    | skip k =>
      cases hr'
      simp [PerKind.get_set, eq_comm]
    | paRaw | paLast | paLlast | paM0 | paValid | paSkip =>
      cases hr'
      simp [hwid]
    | _ => cases hr'

/-! ## What the port reads after a write -/

section
variable {s t : State} {r r' : RegNo} {v : Word} {reg : Reg}

/-- Every register but the written one and STATUS reads as before. -/
theorem readReg_other (hsets : WriteSets r v s t)
    (hrun : t.run = { s.run with status.err := .none, skip := t.run.skip, pa := t.run.pa })
    (hne : r.toNat ≠ reg.number) (hst : reg ≠ .status) (hmap : reg.InMap) : readReg t reg = readReg s reg := by
  obtain ⟨hbuflen, hvalid, hminthrottle, hvbatref, hlo, hhi, hfw, hkinds, hraw, hlast, hllast, hm0, hpav, hskip⟩ :=
    hsets
  have hno : ∀ {n : RegNo}, n.toNat = reg.number → ¬ r = n := fun hn h => hne (h ▸ hn)
  cases reg with
  | status => exact absurd rfl hst
  | buflen => exact hbuflen.trans (if_neg (hno rfl))
  | hdrValid => exact congrArg zext (hvalid.trans (if_neg (hno rfl)))
  | hdrMinthrottle => exact hminthrottle.trans (if_neg (hno rfl))
  | hdrVbatref => exact hvbatref.trans (if_neg (hno rfl))
  | hdrMotorLo => exact hlo.trans (if_neg (hno rfl))
  | hdrMotorHi => exact hhi.trans (if_neg (hno rfl))
  | hdrFwvariant => exact congrArg zext (hfw.trans (if_neg (hno rfl)))
  | nf k =>
    obtain ⟨hnf, _⟩ := hkinds k
    exact congrArg zext (hnf.trans (if_neg hne))
  | m0idx k =>
    obtain ⟨_, hidx, _⟩ := hkinds k
    exact congrArg m0idxWord (hidx.trans (if_neg hne))
  | skip k =>
    obtain ⟨_, _, hskipk, _⟩ := hkinds k
    exact hskipk.trans (if_neg hne)
  | fd k i =>
    have hmode : t.run.mode = s.run.mode := by rw [hrun]
    obtain ⟨_, _, _, hfd⟩ := hkinds k
    have hread : (t.cfg.fd.get k).read i = (s.cfg.fd.get k).read i := (hfd i).trans (if_neg fun h => hne h.1)
    simp only [readReg, hmode, hread]
  | paRaw => exact hraw.trans (if_neg (hno rfl))
  | paLast => exact hlast.trans (if_neg (hno rfl))
  | paLlast => exact hllast.trans (if_neg (hno rfl))
  | paM0 => exact hm0.trans (if_neg (hno rfl))
  | paValid => exact congrArg zext (hpav.trans (if_neg (hno rfl)))
  | paSkip => exact hskip.trans (if_neg (hno rfl))
  | cmd => rfl
  | _ =>
    simp only [readReg]
    rw [hrun]

theorem zext_low_eq_self {n : Nat} (hn : n ≤ 32) (hv : v.toNat < 2 ^ n) : zext (v.extractLsb' 0 n) = v :=
  BitVec.eq_of_toNat_eq ((zext_low v n hn).trans (Nat.mod_eq_of_lt hv))

/-- HDR_VALID and PA_VALID hold three bits (10 R29, R40). -/
theorem zext_low_three (v : Word) : zext (v.extractLsb' 0 3) = v &&& 0x7 := by
  apply BitVec.eq_of_toNat_eq
  rw [zext_low v 3 (by decide), BitVec.toNat_and]
  exact (Nat.and_two_pow_sub_one_eq_mod v.toNat 3).symm

/-- M0IDX holds bit 31 and bits 15:0 (10 R31). -/
theorem m0idxWord_stored (v : Word) :
    m0idxWord { valid := v.getLsbD 31, index := v.extractLsb' 0 16 } = v &&& 0x8000FFFF := by
  have hmask : ∀ i < 32, (0x8000FFFF : Word).getLsbD i = decide (i < 16 ∨ i = 31) := by decide
  refine BitVec.eq_of_getLsbD_eq fun i hi => ?_
  rw [BitVec.getLsbD_and, hmask i hi, m0idxWord, BitVec.getLsbD_append, BitVec.getLsbD_append]
  by_cases hlow : i < 16
  · simp [hlow]
  · by_cases htop : i = 31
    · subst htop
      simp
    · have hmid : i - 16 < 15 := by omega
      simp [hlow, htop, hmid]

theorem storedValue_whole {n : Nat} (h : n ≠ 0x8 ∧ n ≠ 0x3C ∧ ¬ (0x14 ≤ n ∧ n < 0x18)) : storedValue n v = v := by
  rw [storedValue, if_neg (by omega), if_neg h.2.2]

/-- The written register reads back what it holds of the value. -/
theorem readReg_written (hstore : StorageOk s) (hn : s.params.nfmax = 256) (hmap : reg.InMap)
    (hw : writeReg s v reg = some t) : readReg (complete t) reg = storedValue reg.number v := by
  rcases writeReg_cases hw with ⟨hm, c, hc, rfl⟩ | ⟨_, r', hr', rfl⟩
  · cases reg with
    | buflen | hdrMinthrottle | hdrVbatref | hdrMotorLo | hdrMotorHi =>
      cases hc
      exact (storedValue_whole (by decide)).symm
    | hdrValid =>
      cases hc
      exact zext_low_three v
    | hdrFwvariant =>
      obtain ⟨hv, ⟨⟩⟩ := Option.ite_none_right_eq_some.mp hc
      exact (zext_low_eq_self (by decide) hv).trans (storedValue_whole (by decide)).symm
    | nf k =>
      obtain ⟨hv, ⟨⟩⟩ := Option.ite_none_right_eq_some.mp hc
      have hk := code_lt k
      rw [storedValue_whole (by rw [Reg.number]; omega)]
      simp only [readReg, complete_cfg, PerKind.get_set_same]
      exact zext_low_eq_self (by decide) (by omega)
    | m0idx k =>
      cases hc
      have hk := code_lt k
      rw [storedValue, if_neg (by rw [Reg.number]; omega), if_pos (by rw [Reg.number]; omega)]
      simp only [readReg, complete_cfg, PerKind.get_set_same]
      exact m0idxWord_stored v
    | fd k i =>
      obtain ⟨hv, ⟨⟩⟩ := Option.ite_none_right_eq_some.mp hc
      rw [storedValue_whole (by rw [Reg.number]; omega)]
      simp only [readReg, complete_cfg, complete_run_mode, hm, if_true, PerKind.get_set_same,
        Cells.read_write_same (hstore.fd_wf k)]
      exact zext_low_eq_self (by decide) hv
    | _ => cases hc
  · cases reg with
    | skip k =>
      cases hr'
      have hk := code_lt k
      rw [storedValue_whole (by rw [Reg.number]; omega)]
      simp only [readReg, complete_run_skip, PerKind.get_set_same]
    | paRaw | paLast | paLlast | paM0 | paSkip =>
      cases hr'
      exact (storedValue_whole (by decide)).symm
    | paValid =>
      cases hr'
      exact zext_low_three v
    | _ => cases hr'

/-- A register write changes the configuration, or SKIP and the PA registers. -/
theorem writeReg_keeps (hw : writeReg s v reg = some t) :
    t = { s with cfg := t.cfg, run.skip := t.run.skip, run.pa := t.run.pa } := by
  rcases writeReg_cases hw with ⟨_, c, _, rfl⟩ | ⟨_, r', hr', rfl⟩
  · rfl
  · rw [writeOperand_keeps hr']

end

/-- Settles O49: the write sets one field, and the register map carries that to the numbers of the port. -/
theorem acceptedWritesReadBack : Obligations.AcceptedWritesReadBack := by
  intro s r v rest hn hstore hp hacc
  have hcmd : r ≠ cmdReg := fun h => not_accepted_cmd (h ▸ hacc)
  have hm : s.run.mode ≠ .inframe := by rcases hacc with ⟨h, _⟩ | ⟨h, _⟩ <;> simp [h]
  obtain ⟨reg, t, hreg, hw⟩ := writeReg_of_accepted (s := { s with port := rest }) hn hacc
  have hstep : step s = .next (complete t) := by
    rw [step_write hm hp hcmd, portWrite, hn, hreg, Option.bind_some, hw]
  have hkeeps := writeReg_keeps hw
  have hsets : WriteSets r v { s with port := rest } t := writeReg_sets (s := { s with port := rest }) hstore hreg hw
  have hrun : (complete t).run =
      { s.run with status.err := .none, skip := (complete t).run.skip, pa := (complete t).run.pa } := by
    rw [hkeeps]; rfl
  have hparams : (complete t).params = s.params := by rw [hkeeps]; rfl
  have hmap := inMap_of_regOf hreg
  refine ⟨complete t, hstep, rfl, hsets, hrun, ?_, ?_, fun r' hne hstatus => ?_, ?_, ?_, ?_, ?_, ?_, ?_, hparams⟩
  · rw [hkeeps]; rfl
  · rw [portRead_of_regOf (by rw [hparams, hn, hreg]), ← number_of_regOf hreg]
    exact readReg_written (s := { s with port := rest }) hstore hn hmap hw
  · cases hreg' : regOf 256 r'.toNat with
    | none => rw [portRead_of_none (by rw [hparams, hn, hreg']), portRead_of_none (by rw [hn, hreg'])]
    | some reg' =>
      rw [portRead_of_regOf (by rw [hparams, hn, hreg']), portRead_of_regOf (by rw [hn, hreg'])]
      have hnum := number_of_regOf hreg'
      refine readReg_other hsets hrun (fun h => hne ?_) (fun h => hstatus ?_) (inMap_of_regOf hreg')
      · exact BitVec.eq_of_toNat_eq (hnum ▸ h).symm
      · subst h
        exact BitVec.eq_of_toNat_eq hnum.symm
  all_goals rw [hkeeps]; rfl

end Sys2Proof.Machine
end

section
/-! PROOFS. What every step leaves: MODE (10 R25), and the state that only FRAME writes (10 R33 to R38, R44). -/

namespace Sys2Proof.Machine

/-! ## What the field loop keeps -/

theorem andThen_eq_next {o : Out} {f : State → Out} {t : State} (h : andThen o f = .next t) :
    ∃ s, o = .next s ∧ f s = .next t := by
  cases o with
  | next s => exact ⟨s, rfl, h⟩
  | fault _ | refused _ => cases h

section
variable {P Q : State → Prop}

/-- What both halves of every descriptor keep, the field steps of a run keep. -/
theorem predictRun_keeps (hfield : ∀ p sg e s t, P s → fieldStep p sg e s = .next t → P t) (n : Nat) :
    ∀ s t, P s → predictRun n s = .next t → P t := by
  induction n with
  | zero => exact fun s t hs h => Host.Outcome.next.inj h ▸ hs
  | succ n ih =>
    intro s t hs h
    rw [predictRun] at h
    split at h
    · obtain ⟨s', hstep, hrest⟩ := andThen_eq_next h
      refine ih s' t ?_ hrest
      unfold predictStep at hstep
      split at hstep
      next d _ => exact hfield d.pred d.sg d.enc s s' hs (execPredHalf_eq d s ▸ hstep)
      next => cases hstep
    · exact Host.Outcome.next.inj h ▸ hs

theorem runStep_keeps (hdecode : ∀ e s t, P s → decodeRun e (decoderOf e) s = .next t → P t)
    (hfield : ∀ p sg e s t, P s → fieldStep p sg e s = .next t → P t) {s t : State} (hs : P s)
    (h : runStep s = .next t) : P t := by
  obtain ⟨s', hstep, hrest⟩ := andThen_eq_next h
  refine predictRun_keeps hfield _ s' t ?_ hrest
  unfold decodeStep at hstep
  split at hstep
  next d _ => exact hdecode d.enc s s' hs (execEncHalf_eq d s ▸ hstep)
  next => cases hstep

/-- The induction over a frame: what holds at its beginning and is kept by every half of a descriptor holds where the
field loop ends, in the state that the end of the frame or an exception leaves. -/
theorem frameRuns_keeps (hdecode : ∀ e s t, P s → decodeRun e (decoderOf e) s = .next t → P t)
    (hfield : ∀ p sg e s t, P s → fieldStep p sg e s = .next t → P t)
    (hfinish : ∀ s, P s → s.run.mode = .inframe → Q (finishFrame s))
    (habandoned : ∀ s, P s → s.run.mode ≠ .inframe → Q s)
    (n : Nat) : ∀ s t, P s → frameRuns n s = .next t → Q t := by
  have hclose : ∀ s t, P s → closeFrame s = .next t → Q t := by
    intro s t hs h
    unfold closeFrame at h
    split at h
    next hm => exact Host.Outcome.next.inj h ▸ hfinish s hs hm
    next hm => exact Host.Outcome.next.inj h ▸ habandoned s hs hm
  induction n with
  | zero => exact hclose
  | succ n ih =>
    intro s t hs h
    rw [frameRuns] at h
    split at h
    · obtain ⟨s', hrun, hrest⟩ := andThen_eq_next h
      exact ih s' t (runStep_keeps hdecode hfield hs hrun) hrest
    · exact hclose s t hs h

end

/-! ## The mode after a frame -/

/-- The frame is over: back in BETWEEN, or FATAL by an InvalidHeaderReference (10 R25). -/
def FrameEnded (s : State) : Prop :=
  s.run.mode = .between ∨ (s.run.mode = .fatal ∧ s.run.status.err = .invalidHeaderReference)

theorem frameEnded_takeException {s : State} (hm : s.run.mode = .inframe) (x : Exc) (pos i : Nat) :
    FrameEnded (takeException x pos i s) := by
  rw [takeException_inside hm]
  cases x with
  | endOfData | malformedFrame => exact .inl rfl
  | invalidHeaderReference => exact .inr ⟨rfl, rfl⟩

theorem decodeRun_mode {e : Enc} {dec : Stream → Nat → Nat → Rd (List Word)} {s t : State}
    (h : decodeRun e dec s = .next t) : t.run.mode = .inframe ∨ FrameEnded t := by
  unfold decodeRun at h
  split at h
  next hin =>
    split at h
    · exact .inl (Host.Outcome.next.inj h ▸ hin.1)
    · exact .inr (Host.Outcome.next.inj h ▸ frameEnded_takeException hin.1 _ _ _)
  next => cases h

theorem fieldStep_mode {p : Pred} {sg : Bool} {e : Enc} {s t : State} (h : fieldStep p sg e s = .next t) :
    t.run.mode = .inframe ∨ FrameEnded t := by
  unfold fieldStep at h
  split at h
  next hm =>
    split at h
    · split at h
      · refine .inl (Host.Outcome.next.inj h ▸ ?_)
        exact (diagnose_run_mode p s).trans hm
      · exact .inr (Host.Outcome.next.inj h ▸ frameEnded_takeException hm _ _ _)
    · cases h
  next => cases h

theorem frameEnded_finishFrame {s : State} (hm : s.run.mode = .inframe) : FrameEnded (finishFrame s) := by
  unfold finishFrame
  split
  · exact .inl rfl
  · exact frameEnded_takeException hm _ _ _

/-- No FRAME leaves the machine INFRAME. -/
theorem frameRuns_ended {n : Nat} {s t : State} (hm : s.run.mode = .inframe) (h : frameRuns n s = .next t) :
    FrameEnded t :=
  frameRuns_keeps (P := fun s => s.run.mode = .inframe ∨ FrameEnded s) (fun _ _ _ _ => decodeRun_mode)
    (fun _ _ _ _ _ _ => fieldStep_mode) (fun _ _ => frameEnded_finishFrame) (fun _ hs hout => hs.resolve_left hout)
    n s t (.inl hm) h

/-! ## MODE -/

theorem portWrite_mode (s : State) (r : RegNo) (v : Word) : (portWrite s r v).run.mode = s.run.mode := by
  rcases portWrite_cases s r v with ⟨reg, t, _, hw, he⟩ | ⟨_, he⟩
  · rw [he, complete_run_mode, writeReg_keeps hw]
  · rw [he]
    rfl

/-- Settles O51: by the host action, and for a command by its outcome. -/
theorem modeTransitions : Obligations.ModeTransitions := by
  refine ⟨rfl, fun s t hm ht => ?_⟩
  rcases step_host hm with ⟨_, he⟩ | ⟨rest, hp, he⟩ | ⟨r, rest, hp, he⟩ | ⟨v, rest, i, hp, hd, he⟩ |
    ⟨v, rest, e, hp, _, he⟩ | ⟨r, v, rest, hp, _, he⟩ <;> rw [he] at ht
  · exact .inl (Host.Outcome.next.inj ht ▸ rfl)
  · exact .inr (.inr (.inr (.inr (Host.Outcome.next.inj ht ▸ ⟨rfl, rest, .inl hp⟩))))
  · exact .inl (Host.Outcome.next.inj ht ▸ rfl)
  · cases exec_outcome (s := { s with port := rest }) hm ht with
    | refused | illegalDefinition _ _ hc | aligned hb | completedRead _ ws bp hb => exact .inl rfl
    | raised _ x pos hb => exact .inl rfl
    | predicted _ p w hb => exact .inl (diagnose_run_mode p { s with port := rest })
    | started hc => exact .inr (.inl ⟨hc, rfl, v, rest, hp, hd⟩)
    | ended hb => exact .inr (.inr (.inl ⟨hb, rfl, v, rest, hp, hd⟩))
    | headerAbsent _ hb => exact .inr (.inr (.inr (.inl ⟨hb, rfl, rfl⟩)))
    | reset => exact .inr (.inr (.inr (.inr ⟨rfl, rest, .inr ⟨v, hp, hd⟩⟩)))
    | frame k _ hb _ hr =>
      rcases frameRuns_ended (enterFrame_run_mode k _) hr with hend | ⟨hfatal, herr⟩
      · exact .inl (hend.trans hb.symm)
      · exact .inr (.inr (.inr (.inl ⟨hb, hfatal, herr⟩)))
  · exact .inl (Host.Outcome.next.inj ht ▸ rfl)
  · exact .inl (Host.Outcome.next.inj ht ▸ portWrite_mode { s with port := rest } r v)

/-! ## What only a frame writes -/

/-- History, CF, the statistics, the events and their bits of STATUS are the same. -/
def FrameDataKept (s t : State) : Prop :=
  t.run.hist = s.run.hist ∧ t.run.cf = s.run.cf ∧ t.run.stats = s.run.stats ∧ t.run.ev = s.run.ev ∧
    t.run.status.anyframe = s.run.status.anyframe ∧ t.run.status.evvalid = s.run.status.evvalid

/-- Every command but FRAME and RESET keeps them, and SKIP. -/
theorem exec_keeps_frameData {s t : State} {i : Instr} (hm : s.run.mode ≠ .inframe) (h : exec i s = .next t)
    (hframe : ∀ k, i ≠ .frame k) (hreset : i ≠ .reset) : FrameDataKept s t ∧ t.run.skip = s.run.skip := by
  cases exec_outcome hm h with
  | refused | illegalDefinition | started | ended | aligned | completedRead | raised | headerAbsent =>
    exact ⟨⟨rfl, rfl, rfl, rfl, rfl, rfl⟩, rfl⟩
  | predicted _ p v =>
    exact ⟨⟨diagnose_run_hist p s, diagnose_run_cf p s, diagnose_run_stats p s, diagnose_run_ev p s,
      diagnose_run_status_anyframe p s, diagnose_run_status_evvalid p s⟩, diagnose_run_skip p s⟩
  | reset => exact absurd rfl hreset
  | frame k => exact absurd rfl (hframe k)

/-- The numbers of SKIP, at every NFMAX. -/
theorem regOf_skip {m n : Nat} {k : Kind} (h : regOf m n = some (.skip k)) : 0x18 ≤ n ∧ n < 0x1C := by
  rcases regOf_cases h with ⟨_, h⟩ | ⟨h1, h2, h⟩ | ⟨_, _, h⟩ | ⟨_, _, h⟩ | ⟨_, ⟨_, _, h⟩ | ⟨_, h⟩⟩
  · unfold lowReg at h
    split at h <;> cases h
  · unfold kindReg at h
    split at h <;> cases h
    omega
  · cases h
  · unfold highReg at h
    split at h <;> cases h
  · cases h
  · cases h

theorem writeReg_skip {s t : State} {v : Word} {reg : Reg} (hw : writeReg s v reg = some t)
    (hreg : ∀ k, reg ≠ .skip k) : t.run.skip = s.run.skip := by
  rcases writeReg_cases hw with ⟨_, c, _, rfl⟩ | ⟨_, r', hr', rfl⟩
  · rfl
  · cases reg with
    | skip k => exact absurd rfl (hreg k)
    | paRaw | paLast | paLlast | paM0 | paValid | paSkip => cases hr'; rfl
    | _ => cases hr'

theorem portWrite_keeps_frameData (s : State) (r : RegNo) (v : Word) :
    FrameDataKept s (portWrite s r v) ∧
      (¬ (0x18 ≤ r.toNat ∧ r.toNat < 0x1C) → (portWrite s r v).run.skip = s.run.skip) := by
  rcases portWrite_cases s r v with ⟨reg, t, hreg, hw, he⟩ | ⟨_, he⟩
  · rw [he]
    refine ⟨?_, fun hr => ?_⟩
    · rw [writeReg_keeps hw]
      exact ⟨rfl, rfl, rfl, rfl, rfl, rfl⟩
    · exact writeReg_skip (t := t) hw fun k hk => hr (regOf_skip (k := k) (hk ▸ hreg))
  · rw [he]
    exact ⟨⟨rfl, rfl, rfl, rfl, rfl, rfl⟩, fun _ => rfl⟩

/-- Settles O55: by the host action, with the frames and resets excluded. -/
theorem onlyFramesTouchHistoryAndStatistics : Obligations.OnlyFramesTouchHistoryAndStatistics := by
  intro s t hm ht hreset hframe
  suffices hkept : FrameDataKept s t ∧
      ((∀ r v rest, s.port = .write r v :: rest → ¬ (0x18 ≤ r.toNat ∧ r.toNat < 0x1C)) → t.run.skip = s.run.skip) by
    obtain ⟨⟨hhist, hcf, hstats, hev, hany, hevvalid⟩, hskip⟩ := hkept
    exact ⟨hhist, hcf, hstats, hev, hany, hevvalid, hskip⟩
  have hsame : FrameDataKept s s := ⟨rfl, rfl, rfl, rfl, rfl, rfl⟩
  rcases step_host hm with ⟨_, he⟩ | ⟨rest, hp, _⟩ | ⟨r, rest, _, he⟩ | ⟨v, rest, i, hp, hd, he⟩ |
    ⟨v, rest, e, _, _, he⟩ | ⟨r, v, rest, hp, _, he⟩
  · exact Host.Outcome.next.inj (he.symm.trans ht) ▸ ⟨hsame, fun _ => rfl⟩
  · exact absurd ⟨rest, .inl hp⟩ hreset
  · exact Host.Outcome.next.inj (he.symm.trans ht) ▸ ⟨hsame, fun _ => rfl⟩
  · obtain ⟨hdata, hskip⟩ := exec_keeps_frameData (s := { s with port := rest }) hm (he.symm.trans ht)
      (fun k hk => hframe v rest k hp (hk ▸ hd)) (fun hi => hreset ⟨rest, .inr ⟨v, hp, hi ▸ hd⟩⟩)
    exact ⟨hdata, fun _ => hskip⟩
  · exact Host.Outcome.next.inj (he.symm.trans ht) ▸ ⟨hsame, fun _ => rfl⟩
  · obtain ⟨hdata, hskip⟩ := portWrite_keeps_frameData { s with port := rest } r v
    exact Host.Outcome.next.inj (he.symm.trans ht) ▸ ⟨hdata, fun hr => hskip (hr r v rest hp)⟩

end Sys2Proof.Machine
end

section
/-! PROOFS. What no step writes: BUF (20 R51) and the OPEN parameters (00 R5). -/

namespace Sys2Proof.Machine

/-- BUF and the OPEN parameters are the same. -/
def SourceKept (s t : State) : Prop := t.buf = s.buf ∧ t.params = s.params

theorem SourceKept.trans {s t u : State} (h : SourceKept s t) (h' : SourceKept t u) : SourceKept s u :=
  ⟨h'.1.trans h.1, h'.2.trans h.2⟩

section
variable {s t : State}

theorem sourceKept_takeException (x : Exc) (pos i : Nat) (s : State) : SourceKept s (takeException x pos i s) := by
  unfold takeException
  split
  · cases x <;> exact ⟨rfl, rfl⟩
  · exact ⟨rfl, rfl⟩

theorem decodeRun_keeps_source {e : Enc} {dec : Stream → Nat → Nat → Rd (List Word)}
    (h : decodeRun e dec s = .next t) : SourceKept s t := by
  unfold decodeRun at h
  split at h
  next =>
    split at h
    · exact Host.Outcome.next.inj h ▸ ⟨rfl, rfl⟩
    · exact Host.Outcome.next.inj h ▸ sourceKept_takeException ..
  next => cases h

theorem fieldStep_keeps_source {p : Pred} {sg : Bool} {e : Enc} (h : fieldStep p sg e s = .next t) :
    SourceKept s t := by
  unfold fieldStep at h
  split at h
  next =>
    split at h
    · split at h
      · exact Host.Outcome.next.inj h ▸ ⟨diagnose_buf p s, diagnose_params p s⟩
      · exact Host.Outcome.next.inj h ▸ sourceKept_takeException ..
    · cases h
  next => cases h

theorem sourceKept_finishFrame (s : State) : SourceKept s (finishFrame s) := by
  unfold finishFrame
  split
  · exact ⟨commit_buf s, commit_params s⟩
  · exact sourceKept_takeException ..

theorem frameRuns_keeps_source {n : Nat} (h : frameRuns n s = .next t) : SourceKept s t :=
  frameRuns_keeps (P := SourceKept s) (fun _ _ _ hu hv => hu.trans (decodeRun_keeps_source hv))
    (fun _ _ _ _ _ hu hv => hu.trans (fieldStep_keeps_source hv))
    (fun u hu _ => hu.trans (sourceKept_finishFrame u)) (fun _ hu _ => hu) n s t ⟨rfl, rfl⟩ h

/-- Every command keeps them, a reset too (70 R230; logs 11 to 14). -/
theorem exec_keeps_source {i : Instr} (hm : s.run.mode ≠ .inframe) (h : exec i s = .next t) : SourceKept s t := by
  cases exec_outcome hm h with
  | refused | illegalDefinition | started | ended | reset | aligned | completedRead | raised | headerAbsent =>
    exact ⟨rfl, rfl⟩
  | predicted _ p v => exact ⟨diagnose_buf p s, diagnose_params p s⟩
  | frame k _ _ _ hr => exact SourceKept.trans (t := enterFrame k s) ⟨rfl, rfl⟩ (frameRuns_keeps_source hr)

theorem sourceKept_portWrite (s : State) (r : RegNo) (v : Word) : SourceKept s (portWrite s r v) := by
  rcases portWrite_cases s r v with ⟨reg, t, _, hw, he⟩ | ⟨_, he⟩
  · rw [he]
    rcases writeReg_cases hw with ⟨_, c, _, rfl⟩ | ⟨_, r', _, rfl⟩ <;> exact ⟨rfl, rfl⟩
  · rw [he]
    exact ⟨rfl, rfl⟩

/-! ## A step inside FRAME -/

theorem exists_of_map_eq_ok {ε α β : Type} {r : Except ε α} {f : α → β} {b : β} (h : r.map f = .ok b) :
    ∃ a, b = f a := by
  cases r with
  | ok a => exact ⟨a, (Except.ok.inj h).symm⟩
  | error _ => cases h

/-- The slots of the sequencer hold the halves of descriptors only (30 R84). -/
theorem descriptor_of_decode_frameSlot {v : Word} {i : Instr} (h : decode (frameSlot s) v = .ok i) :
    ∃ d : Descriptor, i = d.encInstr ∨ i = d.predInstr := by
  cases hslot : frameSlot s with
  | command =>
    unfold frameSlot at hslot
    split at hslot <;> cases hslot
  | encHalf =>
    rw [hslot, decode] at h
    split at h
    · obtain ⟨d, hd⟩ := exists_of_map_eq_ok h
      exact ⟨d, .inl hd⟩
    · cases h
  | predHalf =>
    rw [hslot, decode] at h
    split at h
    · obtain ⟨d, hd⟩ := exists_of_map_eq_ok h
      exact ⟨d, .inr hd⟩
    · cases h

/-- All that a step can run inside FRAME: the decode of a run, a field step, or the end of the frame (43 R175). -/
theorem step_inside_cases (hm : s.run.mode = .inframe) (h : step s = .next t) :
    (∃ e, decodeRun e (decoderOf e) s = .next t) ∨ (∃ p sg e, fieldStep p sg e s = .next t) ∨
      closeFrame s = .next t := by
  rw [step, fetch, if_pos hm, fetchFrame] at h
  by_cases hend : s.frame.raw = [] ∧ s.frameNf ≤ s.frame.fi
  · rw [if_pos hend] at h
    exact .inr (.inr h)
  · rw [if_neg hend] at h
    cases hd : decode (frameSlot s) (zext (s.frameFd.read (slotIndex s))) with
    | error _ => rw [hd] at h; cases h
    | ok i =>
      rw [hd] at h
      obtain ⟨d, rfl | rfl⟩ := descriptor_of_decode_frameSlot hd
      · exact .inl ⟨d.enc, (exec_encInstr d s).symm.trans h⟩
      · exact .inr (.inl ⟨d.pred, d.sg, d.enc, (exec_predInstr d s).symm.trans h⟩)

end

/-- Settles O52: inside FRAME by the half of the descriptor that runs, outside it by the host action. -/
theorem bufferIsNeverWritten : Obligations.BufferIsNeverWritten := by
  intro s t ht
  show SourceKept s t
  by_cases hm : s.run.mode = .inframe
  · rcases step_inside_cases hm ht with ⟨e, h⟩ | ⟨p, sg, e, h⟩ | h
    · exact decodeRun_keeps_source h
    · exact fieldStep_keeps_source h
    · exact frameRuns_keeps_source (n := 0) h
  · rcases step_host hm with ⟨_, he⟩ | ⟨rest, _, he⟩ | ⟨r, rest, _, he⟩ | ⟨v, rest, i, _, _, he⟩ |
      ⟨v, rest, e, _, _, he⟩ | ⟨r, v, rest, _, _, he⟩ <;> rw [he] at ht
    · exact Host.Outcome.next.inj ht ▸ ⟨rfl, rfl⟩
    · exact Host.Outcome.next.inj ht ▸ ⟨rfl, rfl⟩
    · exact Host.Outcome.next.inj ht ▸ ⟨rfl, rfl⟩
    · exact exec_keeps_source (s := { s with port := rest }) hm ht
    · exact Host.Outcome.next.inj ht ▸ ⟨rfl, rfl⟩
    · exact Host.Outcome.next.inj ht ▸ sourceKept_portWrite { s with port := rest } r v

end Sys2Proof.Machine
end

section
/-! PROOFS. BP between resets (20 R65): forward where a command completes, left alone where it raises or is refused. -/

namespace Sys2Proof.Machine

/-- BP has not gone back, and is where it was when ERR is not 0. -/
def CursorAdvances (s t : State) : Prop :=
  s.run.bp.toNat ≤ t.run.bp.toNat ∧ (t.run.status.err ≠ .none → t.run.bp = s.run.bp)

theorem cursorAdvances_of_bp_eq {s t : State} (h : t.run.bp = s.run.bp) : CursorAdvances s t :=
  ⟨le_of_eq (congrArg BitVec.toNat h.symm), fun _ => h⟩

section
variable {s t : State}

/-- A command that completes with BP further on and within the buffer. -/
theorem cursorAdvances_of_completed {bp : Nat} (ht : t.run.bp = BitVec.ofNat 35 bp) (herr : t.run.status.err = .none)
    (hle : s.run.bp.toNat ≤ bp) (hin : bp ≤ 8 * s.cfg.buflen.toNat) : CursorAdvances s t := by
  have hlen := s.cfg.buflen.isLt
  refine ⟨?_, fun h => absurd herr h⟩
  rw [ht, toNat_bitAddr (by omega)]
  exact hle

/-! ## The operations of the commands -/

/-- A command refused for its mode leaves BP (30 R76 check 5). -/
theorem whenBetween_advances {o : Out} (ho : s.run.mode = .between → o = .next t → CursorAdvances s t)
    (h : whenBetween s o = .next t) : CursorAdvances s t := by
  rcases whenBetween_cases h with ⟨hm, h⟩ | rfl
  · exact ho hm h
  · exact cursorAdvances_of_bp_eq rfl

theorem finishRead_advances {r : Rd (List Word)} (hm : s.run.mode = .between)
    (hf : r.Forward s.cfg.buflen.toNat s.run.bp.toNat) (h : finishRead s r = .next t) : CursorAdvances s t := by
  cases r with
  | ok ws bp => exact Host.Outcome.next.inj h ▸ cursorAdvances_of_completed rfl rfl hf.1 hf.2
  | raised x pos =>
    rw [finishRead_raised (by simp [hm]) hf, Host.Outcome.next.injEq] at h
    exact h ▸ cursorAdvances_of_bp_eq rfl

theorem bitCommand_advances {r : Rd Word} (hf : r.Forward s.cfg.buflen.toNat s.run.bp.toNat)
    (h : bitCommand s r = .next t) : CursorAdvances s t :=
  whenBetween_advances (fun hm => finishRead_advances hm (oneWord_forward hf)) h

/-- RDBITS and RDABITS: a bit count out of range is refused (30 R72). -/
theorem countedRead_advances {n : BitVec 6} {r : Rd Word} (hf : r.Forward s.cfg.buflen.toNat s.run.bp.toNat)
    (h : (if n.toNat ≤ 32 then bitCommand s r else .next (illegalCommand s)) = .next t) : CursorAdvances s t := by
  split at h
  · exact bitCommand_advances hf h
  · exact Host.Outcome.next.inj h ▸ cursorAdvances_of_bp_eq rfl

theorem decCommand_advances {e : Enc} {want : BitVec 4} (hcur : s.run.bp.toNat ≤ 8 * s.cfg.buflen.toNat)
    (h : decCommand e want s (decoderOf e) = .next t) : CursorAdvances s t := by
  unfold decCommand at h
  split at h
  · exact whenBetween_advances (fun hm => finishRead_advances hm (decoderOf_forward e s.stream _ _ hcur)) h
  · exact Host.Outcome.next.inj h ▸ cursorAdvances_of_bp_eq rfl

theorem execAlign_advances (hcur : s.run.bp.toNat ≤ 8 * s.cfg.buflen.toNat) (h : execAlign s = .next t) :
    CursorAdvances s t := by
  refine whenBetween_advances (fun _ h' => ?_) h
  exact Host.Outcome.next.inj h' ▸ cursorAdvances_of_completed rfl rfl (alignUp_ge _) (alignUp_le hcur)

theorem execStart_advances (h : execStart s = .next t) : CursorAdvances s t := by
  unfold execStart at h
  split at h
  · split at h <;> exact Host.Outcome.next.inj h ▸ cursorAdvances_of_bp_eq rfl
  · exact Host.Outcome.next.inj h ▸ cursorAdvances_of_bp_eq rfl

theorem execEnd_advances (h : execEnd s = .next t) : CursorAdvances s t := by
  refine whenBetween_advances (fun _ h' => ?_) h
  exact Host.Outcome.next.inj h' ▸ cursorAdvances_of_bp_eq rfl

theorem predCommand_advances {p : Pred} {sg : Bool} (h : predCommand p sg s = .next t) : CursorAdvances s t := by
  refine whenBetween_advances (fun hm h' => ?_) h
  split at h'
  · exact Host.Outcome.next.inj h' ▸ cursorAdvances_of_bp_eq (diagnose_run_bp p s)
  · rw [takeException_fatal (by simp [hm]), Host.Outcome.next.injEq] at h'
    exact h' ▸ cursorAdvances_of_bp_eq rfl

/-! ## FRAME -/

/-- A reading that reaches the end has its cursor no further back than where it began. -/
theorem readRuns_good_le {k : Kind} {n bp bp' : Nat} {ds : List Descriptor} {vals vals' : List Word}
    {stubs stubs' : List Pred} (hb : bp ≤ 8 * s.cfg.buflen.toNat)
    (h : readRuns s k n bp ds vals stubs = .good vals' bp' stubs') : bp ≤ bp' := by
  induction n generalizing bp ds vals stubs with
  | zero =>
    cases h
    exact le_refl _
  | succ n ih =>
    cases ds with
    | nil =>
      cases h
      exact le_refl _
    | cons d ds =>
      have hf := decoderOf_forward d.enc s.stream bp (headRun d ds) hb
      rw [readRuns] at h
      split at h
      next => cases h
      next raws bp₁ hdec =>
        rw [hdec] at hf
        obtain ⟨hle, hin⟩ := hf
        split at h
        · exact le_trans hle (ih hin h)
        · cases h

theorem badFrame_bp (k : Kind) (x : Exc) (pos i : Nat) (stubs : List Pred) (s : State) :
    (badFrame k x pos i stubs s).run.bp = s.run.bp := frameTraces_bp stubs s

/-- FRAME moves BP past the frame where it commits, and leaves it where the frame is abandoned (43 R178, R179). -/
theorem execFrame_advances {k : Kind} (hinv : Inv s) (h : execFrame k s = .next t) : CursorAdvances s t := by
  refine whenBetween_advances (fun hm h' => ?_) h
  split at h'
  next => exact Host.Outcome.next.inj h' ▸ cursorAdvances_of_bp_eq rfl
  next hn =>
    obtain ⟨hgood, cf, _, he⟩ := exec_frame_reading hinv hm hn
    have ht : t = { frameResult k s with run.cf := cf } := Host.Outcome.next.inj (h.symm.trans he)
    subst ht
    unfold frameResult
    cases hr : readFrame s k with
    | good vals bp stubs =>
      obtain ⟨_, hin⟩ := hgood vals bp stubs hr
      have hle := readRuns_good_le hinv.cursor hr
      by_cases hp : plausibleReading s k vals bp = true
      · simp only [hp, if_true]
        exact cursorAdvances_of_completed rfl rfl hle hin
      · simp only [hp]
        exact cursorAdvances_of_bp_eq (badFrame_bp k .malformedFrame bp (s.cfg.nf.get k).toNat stubs s)
    | bad x pos i stubs => exact cursorAdvances_of_bp_eq (badFrame_bp k x pos i stubs s)

/-! ## Every command -/

theorem decodeRun_outside {e : Enc} {dec : Stream → Nat → Nat → Rd (List Word)} (hm : s.run.mode ≠ .inframe) :
    decodeRun e dec s ≠ .next t := by
  rw [decodeRun, if_neg fun h => hm h.1]
  exact nofun

theorem fieldStep_outside {p : Pred} {sg : Bool} {e : Enc} (hm : s.run.mode ≠ .inframe) :
    fieldStep p sg e s ≠ .next t := by
  rw [fieldStep, if_neg hm]
  exact nofun

theorem exec_advances {i : Instr} (hinv : Inv s) (hreset : i ≠ .reset) (h : exec i s = .next t) :
    CursorAdvances s t := by
  cases i with
  | start => exact execStart_advances h
  | endStream => exact execEnd_advances h
  | reset => exact absurd rfl hreset
  | rdbits n => exact countedRead_advances (rdbits_forward s.stream _ n.toNat) h
  | rdabits n => exact countedRead_advances (rdabits_forward s.stream _ n.toNat) h
  | rduvar => exact bitCommand_advances (rduvar_forward s.stream _) h
  | rdsvar => exact bitCommand_advances (rdsvar_forward s.stream _) h
  | align => exact execAlign_advances hinv.cursor h
  | decSvar => exact decCommand_advances (e := .svar) hinv.cursor h
  | decUvar => exact decCommand_advances (e := .uvar) hinv.cursor h
  | decNeg14 => exact decCommand_advances (e := .neg14) hinv.cursor h
  | decTagvar => exact decCommand_advances (e := .tagvar) hinv.cursor h
  | decTag32 => exact decCommand_advances (e := .tag32) hinv.cursor h
  | decTag16 => exact decCommand_advances (e := .tag16) hinv.cursor h
  | decNull => exact decCommand_advances (e := .null) hinv.cursor h
  | predZero | predPrevious | predStraightline | predAverage2 | predMinthrottle | predMotor0 | predIncrement
  | predHomelat | predFifteenhundred | predVbatref | predLastmainframetime | predMinmotor =>
    rw [exec] at h
    exact predCommand_advances h
  | frame k => exact execFrame_advances hinv h
  | fdSvar | fdUvar | fdNeg14 | fdTagvar | fdTag32 | fdTag16 | fdNull =>
    rw [exec] at h
    exact absurd h (decodeRun_outside hinv.outside)
  | fdZero | fdPrevious | fdStraightline | fdAverage2 | fdMinthrottle | fdMotor0 | fdIncrement | fdHomelat
  | fdFifteenhundred | fdVbatref | fdLastmainframetime | fdMinmotor =>
    rw [exec] at h
    exact absurd h (fieldStep_outside hinv.outside)

end

theorem portWrite_bp (s : State) (r : RegNo) (v : Word) : (portWrite s r v).run.bp = s.run.bp := by
  rcases portWrite_cases s r v with ⟨reg, t, _, hw, he⟩ | ⟨_, he⟩
  · rw [he, complete_run_bp, writeReg_keeps hw]
  · rw [he]
    rfl

/-- Settles O53: by the host action, the resets excluded; only a command moves BP. -/
theorem cursorNeverGoesBack : Obligations.CursorNeverGoesBack := by
  intro s t hinv ht hreset
  show CursorAdvances s t
  rcases step_host hinv.outside with ⟨_, he⟩ | ⟨rest, hp, _⟩ | ⟨r, rest, _, he⟩ | ⟨v, rest, i, hp, hd, he⟩ |
    ⟨v, rest, e, _, _, he⟩ | ⟨r, v, rest, _, _, he⟩
  · exact Host.Outcome.next.inj (he.symm.trans ht) ▸ cursorAdvances_of_bp_eq rfl
  · exact absurd ⟨rest, .inl hp⟩ hreset
  · exact Host.Outcome.next.inj (he.symm.trans ht) ▸ cursorAdvances_of_bp_eq rfl
  · exact exec_advances (s := { s with port := rest }) hinv (fun hi => hreset ⟨rest, .inr ⟨v, hp, hi ▸ hd⟩⟩)
      (he.symm.trans ht)
  · exact Host.Outcome.next.inj (he.symm.trans ht) ▸ cursorAdvances_of_bp_eq rfl
  · exact Host.Outcome.next.inj (he.symm.trans ht) ▸ cursorAdvances_of_bp_eq (portWrite_bp { s with port := rest } r v)

end Sys2Proof.Machine
end

section
/-! PROOFS. Bit fields of a word: where the bits above a field are 0, the word is the field widened (30 R70, R76). -/

namespace Sys2Proof.Machine

theorem toNat_field {w : Nat} (x : BitVec w) (i n : Nat) : (x.extractLsb' i n).toNat = x.toNat / 2 ^ i % 2 ^ n := by
  rw [BitVec.extractLsb'_toNat, Nat.shiftRight_eq_div_pow]

theorem extractLsb'_setWidth {w n : Nat} (h : n ≤ w) (y : BitVec n) : (y.setWidth w).extractLsb' 0 n = y := by
  apply BitVec.eq_of_toNat_eq
  rw [toNat_field, BitVec.toNat_setWidth_of_le h, Nat.pow_zero, Nat.div_one, Nat.mod_eq_of_lt y.isLt]

theorem high_setWidth {w n m : Nat} (h : n ≤ w) (y : BitVec n) : (y.setWidth w).extractLsb' n m = 0 := by
  apply BitVec.eq_of_toNat_eq
  rw [toNat_field, BitVec.toNat_setWidth_of_le h, Nat.div_eq_of_lt y.isLt]
  rfl

theorem high_eq_zero_iff {w n m : Nat} (hw : n + m = w) (x : BitVec w) :
    x.extractLsb' n m = 0 ↔ x = (x.extractLsb' 0 n).setWidth w := by
  refine ⟨fun h => ?_, fun h => h ▸ high_setWidth (by omega) _⟩
  have hhigh : x.toNat / 2 ^ n % 2 ^ m = 0 := by rw [← toNat_field, h]; rfl
  have hlt : x.toNat / 2 ^ n < 2 ^ m := Nat.div_lt_of_lt_mul (by rw [← Nat.pow_add, hw]; exact x.isLt)
  apply BitVec.eq_of_toNat_eq
  rw [BitVec.toNat_setWidth_of_le (by omega), toNat_field, Nat.pow_zero, Nat.div_one, Nat.mod_eq_of_lt]
  rw [Nat.mod_eq_of_lt hlt] at hhigh
  exact Nat.lt_of_div_eq_zero (Nat.two_pow_pos n) hhigh

/-- A word is 0 above its low field, which meets a condition: it is such a field widened. -/
theorem high_zero_and_iff {w n m : Nat} (hw : n + m = w) (x : BitVec w) (P : BitVec n → Prop) :
    x.extractLsb' n m = 0 ∧ P (x.extractLsb' 0 n) ↔ ∃ y, P y ∧ x = y.setWidth w := by
  constructor
  · rintro ⟨hz, hP⟩
    exact ⟨_, hP, (high_eq_zero_iff hw x).mp hz⟩
  · rintro ⟨y, hP, rfl⟩
    rw [extractLsb'_setWidth (by omega)]
    exact ⟨high_setWidth (by omega) y, hP⟩

end Sys2Proof.Machine
end

section
/-! PROOFS. The codes of kinds, encodings and predictors (30 R81, R82, 43 R172) and the fields of a descriptor (30 R80,
R83, R84). -/

namespace Sys2Proof.Machine

/-! ## Codes -/

theorem kindOfCode_eq_iff (c : BitVec 2) (k : Kind) : kindOfCode c = k ↔ c = k.code := by
  revert c
  cases k <;> decide

theorem encOfCode_eq_some_iff (c : BitVec 3) (e : Enc) : encOfCode c = some e ↔ c = e.code := by
  revert c
  cases e <;> decide

theorem predOfCode_eq_some_iff (c : BitVec 4) (p : Pred) : predOfCode c = some p ↔ c = p.code := by
  revert c
  cases p <;> decide

theorem predOfCode_reserved : ∀ c : BitVec 4, 12 ≤ c.toNat → predOfCode c = none := by decide

theorem predOfCode_assigned : ∀ c : BitVec 4, c.toNat < 12 → ∃ p, predOfCode c = some p := by
  simp only [← Option.isSome_iff_exists]
  decide

theorem exists_predCode {op : Nat} (h : op < 12) : ∃ p : Pred, op = p.code.toNat := by
  have hop : (BitVec.ofNat 4 op).toNat = op := Nat.mod_eq_of_lt (by omega)
  obtain ⟨p, hp⟩ := predOfCode_assigned (BitVec.ofNat 4 op) (by omega)
  exact ⟨p, by rw [← (predOfCode_eq_some_iff _ p).mp hp, hop]⟩

/-- Settles O6: the tables row by row; a code names one encoding or predictor, and the reserved codes none. -/
theorem codesOfEncodingsAndPredictors : Obligations.CodesOfEncodingsAndPredictors :=
  ⟨rfl, rfl, fun e => (encOfCode_eq_some_iff e.code e).mpr rfl, rfl, fun p => (predOfCode_eq_some_iff p.code p).mpr rfl,
    predOfCode_reserved, rfl, rfl⟩

/-! ## Descriptor bytes -/

/-- The byte as a number (30 R80). -/
theorem toNat_encodeDescriptor (d : Descriptor) :
    (encodeDescriptor d).toNat = 0x80 * d.sg.toNat + 0x10 * d.enc.code.toNat + d.pred.code.toNat := by
  rw [encodeDescriptor, toNat_append_eq_add, toNat_append_eq_add, BitVec.toNat_ofBool]
  omega

theorem toNat_getLsbD_seven (b : Byte) : (b.getLsbD 7).toNat = b.toNat / 128 := by
  have hb := b.isLt
  rw [← BitVec.testBit_toNat, Nat.toNat_testBit]
  omega

/-- A byte is its three fields side by side. -/
theorem append_fields (b : Byte) : BitVec.ofBool (b.getLsbD 7) ++ b.extractLsb' 4 3 ++ b.extractLsb' 0 4 = b := by
  apply BitVec.eq_of_toNat_eq
  have hb := b.isLt
  rw [toNat_append_eq_add, toNat_append_eq_add, BitVec.toNat_ofBool, toNat_field, toNat_field, toNat_getLsbD_seven]
  omega

section
variable (d : Descriptor)

theorem encodeDescriptor_sg : (encodeDescriptor d).getLsbD 7 = d.sg := by
  rw [encodeDescriptor, BitVec.getLsbD_append, BitVec.getLsbD_append]
  exact BitVec.getLsbD_ofBool d.sg 0

theorem encodeDescriptor_enc : (encodeDescriptor d).extractLsb' 4 3 = d.enc.code := by
  apply BitVec.eq_of_toNat_eq
  have henc := d.enc.code.isLt
  have hpred := d.pred.code.isLt
  rw [toNat_field, toNat_encodeDescriptor]
  omega

theorem encodeDescriptor_pred : (encodeDescriptor d).extractLsb' 0 4 = d.pred.code := by
  apply BitVec.eq_of_toNat_eq
  have hpred := d.pred.code.isLt
  rw [toNat_field, toNat_encodeDescriptor]
  omega

end

/-- The decoder of a descriptor byte and its encoder are one relation. -/
theorem decodeDescriptor_eq_ok_iff (b : Byte) (d : Descriptor) :
    decodeDescriptor b = .ok d ↔ b = encodeDescriptor d := by
  constructor
  · intro h
    unfold decodeDescriptor at h
    split at h
    next e p he hp =>
      obtain rfl := Except.ok.inj h
      rw [encodeDescriptor, ← (encOfCode_eq_some_iff _ e).mp he, ← (predOfCode_eq_some_iff _ p).mp hp, append_fields]
    all_goals cases h
  · rintro rfl
    have henc := (encOfCode_eq_some_iff _ _).mpr (encodeDescriptor_enc d)
    have hpred := (predOfCode_eq_some_iff _ _).mpr (encodeDescriptor_pred d)
    simp only [decodeDescriptor, henc, hpred, encodeDescriptor_sg]

/-! ## The two halves of a descriptor -/

/-- A value in either slot of the sequencer is a descriptor byte with zeros above it. -/
theorem decodeHalf_eq_ok_iff (f : Descriptor → Instr) (v : Word) (i : Instr) :
    (if v.extractLsb' 8 24 = 0 then (decodeDescriptor (v.extractLsb' 0 8)).map f else .error .highBits) = .ok i ↔
      ∃ d, v = (encodeDescriptor d).setWidth 32 ∧ i = f d := by
  constructor
  · intro h
    split at h
    next hz =>
      cases hd : decodeDescriptor (v.extractLsb' 0 8) with
      | error e => rw [hd] at h; cases h
      | ok d =>
        rw [hd] at h
        refine ⟨d, ?_, (Except.ok.inj h).symm⟩
        rw [← (decodeDescriptor_eq_ok_iff _ d).mp hd]
        exact (high_eq_zero_iff (by decide) v).mp hz
    next => cases h
  · rintro ⟨d, rfl, rfl⟩
    rw [if_pos (high_setWidth (by decide) _), extractLsb'_setWidth (by decide),
      (decodeDescriptor_eq_ok_iff _ d).mpr rfl]
    rfl

theorem decode_encHalf_iff (v : Word) (i : Instr) :
    decode .encHalf v = .ok i ↔ ∃ d, v = (encodeDescriptor d).setWidth 32 ∧ i = d.encInstr :=
  decodeHalf_eq_ok_iff Descriptor.encInstr v i

theorem decode_predHalf_iff (v : Word) (i : Instr) :
    decode .predHalf v = .ok i ↔ ∃ d, v = (encodeDescriptor d).setWidth 32 ∧ i = d.predInstr :=
  decodeHalf_eq_ok_iff Descriptor.predInstr v i

/-- The word of either half is the descriptor's byte (30 R84). -/
theorem encInstr_word (d : Descriptor) :
    d.encInstr.slot = .encHalf ∧ d.encInstr.wf = true ∧ encode d.encInstr = (encodeDescriptor d).setWidth 32 := by
  obtain ⟨sg, e, p⟩ := d
  cases e <;> exact ⟨rfl, rfl, rfl⟩

theorem predInstr_word (d : Descriptor) :
    d.predInstr.slot = .predHalf ∧ d.predInstr.wf = true ∧ encode d.predInstr = (encodeDescriptor d).setWidth 32 := by
  obtain ⟨sg, e, p⟩ := d
  cases p <;> exact ⟨rfl, rfl, rfl⟩

/-- Settles O5: a legal byte decodes to a descriptor whose encoding it is; a byte that decodes in a slot is legal. -/
theorem descriptorsDecodeToTheirFields : Obligations.DescriptorsDecodeToTheirFields := by
  refine fun b => ⟨fun hlegal => ?_, fun hillegal sl i hsl hd => hillegal ?_⟩
  · obtain ⟨d, hd⟩ := descriptorOk_decodes ((legalDescriptor_iff b).mpr hlegal)
    obtain rfl := (decodeDescriptor_eq_ok_iff b d).mp hd
    exact ⟨d, toNat_encodeDescriptor d, (decode_encHalf_iff _ _).mpr ⟨d, rfl, rfl⟩,
      (decode_predHalf_iff _ _).mpr ⟨d, rfl, rfl⟩⟩
  · have hword : ∃ d, b.setWidth 32 = (encodeDescriptor d).setWidth 32 := by
      cases sl with
      | command => exact absurd rfl hsl
      | encHalf => exact ((decode_encHalf_iff _ i).mp hd).imp fun _ h => h.1
      | predHalf => exact ((decode_predHalf_iff _ i).mp hd).imp fun _ h => h.1
    obtain ⟨d, hbd⟩ := hword
    have hb : b = encodeDescriptor d := by
      rw [← extractLsb'_setWidth (w := 32) (by decide) b, hbd, extractLsb'_setWidth (by decide)]
    refine (legalDescriptor_iff b).mp ?_
    rw [descriptorOk, (decodeDescriptor_eq_ok_iff b d).mpr hb]

end Sys2Proof.Machine
end

section
/-! PROOFS. Command words (30 R70 to R76): the tables of 30 R71 to R75 as a relation between CLASS, OP, ARG and the
instruction, which the decoder and the encoder both are. -/

namespace Sys2Proof.Machine

/-- The PRED command of a predictor (30 R74). -/
def predCommandInstr : Pred → Bool → Instr
  | .zero => .predZero
  | .previous => .predPrevious
  | .straightline => .predStraightline
  | .average2 => .predAverage2
  | .minthrottle => .predMinthrottle
  | .motor0 => .predMotor0
  | .increment => .predIncrement
  | .homelat => .predHomelat
  | .fifteenhundred => .predFifteenhundred
  | .vbatref => .predVbatref
  | .lastmainframetime => .predLastmainframetime
  | .minmotor => .predMinmotor

/-- The rows of the tables: CLASS, OP, ARG and the instruction that they stand for. -/
inductive CommandRow : (cls op : Nat) → Byte → Instr → Prop
  | start : CommandRow 0 0 0 .start
  | endStream : CommandRow 0 1 0 .endStream
  | reset : CommandRow 0 2 0 .reset
  | rdbits (n : BitVec 6) (h : countOk n) : CommandRow 1 0 (n.setWidth 8) (.rdbits n)
  | rdabits (n : BitVec 6) (h : countOk n) : CommandRow 1 1 (n.setWidth 8) (.rdabits n)
  | rduvar : CommandRow 1 2 0 .rduvar
  | rdsvar : CommandRow 1 3 0 .rdsvar
  | align : CommandRow 1 4 0 .align
  | dec (e : Enc) (want : BitVec 4) (h : wantOk e.maxChunk want) :
      CommandRow 2 e.code.toNat (want.setWidth 8) (decInstr e want)
  | pred (p : Pred) (sg : Bool) : CommandRow 3 p.code.toNat (signedByte sg) (predCommandInstr p sg)
  | frame (k : Kind) : CommandRow 4 0 (k.code.setWidth 8) (.frame k)

/-! ## The operand of a command -/

theorem ite_eq_ok_iff {α ε : Type} {c : Prop} [Decidable c] {a b : α} {e : ε} :
    (if c then Except.ok a else .error e) = .ok b ↔ c ∧ a = b := by
  split <;> simp_all

section
variable (arg : Byte) (i : Instr)

theorem noArg_eq_ok_iff (j : Instr) : noArg arg j = .ok i ↔ arg = 0 ∧ i = j := by
  rw [noArg, ite_eq_ok_iff, eq_comm (a := j)]

theorem countArg_eq_ok_iff (f : BitVec 6 → Instr) :
    countArg arg f = .ok i ↔ ∃ n, (countOk n ∧ i = f n) ∧ arg = n.setWidth 8 := by
  rw [countArg, ite_eq_ok_iff, ← high_zero_and_iff (m := 2) (by decide) arg fun n => countOk n ∧ i = f n, and_assoc,
    eq_comm (b := i)]

theorem wantArg_eq_ok_iff (e : Enc) (f : BitVec 4 → Instr) :
    wantArg e arg f = .ok i ↔ ∃ want, (wantOk e.maxChunk want ∧ i = f want) ∧ arg = want.setWidth 8 := by
  rw [wantArg, ite_eq_ok_iff,
    ← high_zero_and_iff (m := 4) (by decide) arg fun want => wantOk e.maxChunk want ∧ i = f want, and_assoc,
    eq_comm (b := i)]

theorem kindArg_eq_ok_iff (f : Kind → Instr) :
    kindArg arg f = .ok i ↔ ∃ k : Kind, i = f k ∧ arg = k.code.setWidth 8 := by
  rw [kindArg, ite_eq_ok_iff, eq_comm (b := i), high_zero_and_iff (by decide) arg fun c => i = f (kindOfCode c)]
  constructor
  · rintro ⟨c, rfl, rfl⟩
    exact ⟨kindOfCode c, rfl, by rw [← (kindOfCode_eq_iff c _).mp rfl]⟩
  · rintro ⟨k, rfl, rfl⟩
    exact ⟨k.code, by rw [(kindOfCode_eq_iff _ k).mpr rfl], rfl⟩

theorem toNat_signedByte (sg : Bool) : (signedByte sg).toNat = 128 * sg.toNat := by cases sg <;> rfl

theorem signedArg_eq_ok_iff (f : Bool → Instr) : signedArg arg f = .ok i ↔ ∃ sg, i = f sg ∧ arg = signedByte sg := by
  rw [signedArg, ite_eq_ok_iff, eq_comm (b := i)]
  constructor
  · rintro ⟨hz, rfl⟩
    refine ⟨arg.getLsbD 7, rfl, BitVec.eq_of_toNat_eq ?_⟩
    have hlow : arg.toNat / 2 ^ 0 % 2 ^ 7 = 0 := by rw [← toNat_field, hz]; rfl
    rw [toNat_signedByte, toNat_getLsbD_seven]
    omega
  · rintro ⟨sg, rfl, rfl⟩
    cases sg <;> exact ⟨rfl, rfl⟩

end

/-! ## The decoder and the tables -/

theorem decodeDec_code (e : Enc) (arg : Byte) : decodeDec e.code.toNat arg = wantArg e arg (decInstr e) := by
  cases e <;> rfl

theorem decodePred_code (p : Pred) (arg : Byte) : decodePred p.code.toNat arg = signedArg arg (predCommandInstr p) := by
  cases p <;> rfl

section
variable {op : Nat} {arg : Byte} {i : Instr}

theorem decodeSys_row (h : decodeSys op arg = .ok i) : CommandRow 0 op arg i := by
  unfold decodeSys at h
  split at h
  · obtain ⟨rfl, rfl⟩ := (noArg_eq_ok_iff _ _ _).mp h
    exact .start
  · obtain ⟨rfl, rfl⟩ := (noArg_eq_ok_iff _ _ _).mp h
    exact .endStream
  · obtain ⟨rfl, rfl⟩ := (noArg_eq_ok_iff _ _ _).mp h
    exact .reset
  · cases h

theorem decodeBr_row (h : decodeBr op arg = .ok i) : CommandRow 1 op arg i := by
  unfold decodeBr at h
  split at h
  · obtain ⟨n, ⟨hn, rfl⟩, rfl⟩ := (countArg_eq_ok_iff _ _ _).mp h
    exact .rdbits n hn
  · obtain ⟨n, ⟨hn, rfl⟩, rfl⟩ := (countArg_eq_ok_iff _ _ _).mp h
    exact .rdabits n hn
  · obtain ⟨rfl, rfl⟩ := (noArg_eq_ok_iff _ _ _).mp h
    exact .rduvar
  · obtain ⟨rfl, rfl⟩ := (noArg_eq_ok_iff _ _ _).mp h
    exact .rdsvar
  · obtain ⟨rfl, rfl⟩ := (noArg_eq_ok_iff _ _ _).mp h
    exact .align
  · cases h

/-- OP of a DEC command is the code of its encoding (30 R73). -/
theorem decodeDec_op (h : decodeDec op arg = .ok i) : ∃ e : Enc, op = e.code.toNat := by
  unfold decodeDec at h
  split at h
  · exact ⟨.svar, rfl⟩
  · exact ⟨.uvar, rfl⟩
  · exact ⟨.neg14, rfl⟩
  · exact ⟨.tagvar, rfl⟩
  · exact ⟨.tag32, rfl⟩
  · exact ⟨.tag16, rfl⟩
  · exact ⟨.null, rfl⟩
  · cases h

theorem decodeDec_row (h : decodeDec op arg = .ok i) : CommandRow 2 op arg i := by
  obtain ⟨e, rfl⟩ := decodeDec_op h
  rw [decodeDec_code] at h
  obtain ⟨want, ⟨hw, rfl⟩, rfl⟩ := (wantArg_eq_ok_iff _ _ _ _).mp h
  exact .dec e want hw

/-- OP of a PRED command is the code of its predictor (30 R74). -/
theorem decodePred_op (h : decodePred op arg = .ok i) : ∃ p : Pred, op = p.code.toNat := by
  unfold decodePred at h
  split at h
  · exact ⟨.zero, rfl⟩
  · exact ⟨.previous, rfl⟩
  · exact ⟨.straightline, rfl⟩
  · exact ⟨.average2, rfl⟩
  · exact ⟨.minthrottle, rfl⟩
  · exact ⟨.motor0, rfl⟩
  · exact ⟨.increment, rfl⟩
  · exact ⟨.homelat, rfl⟩
  · exact ⟨.fifteenhundred, rfl⟩
  · exact ⟨.vbatref, rfl⟩
  · exact ⟨.lastmainframetime, rfl⟩
  · exact ⟨.minmotor, rfl⟩
  · cases h

theorem decodePred_row (h : decodePred op arg = .ok i) : CommandRow 3 op arg i := by
  obtain ⟨p, rfl⟩ := decodePred_op h
  rw [decodePred_code] at h
  obtain ⟨sg, rfl, rfl⟩ := (signedArg_eq_ok_iff _ _ _).mp h
  exact .pred p sg

theorem decodeFrm_row (h : decodeFrm op arg = .ok i) : CommandRow 4 op arg i := by
  unfold decodeFrm at h
  split at h
  · obtain ⟨k, rfl, rfl⟩ := (kindArg_eq_ok_iff _ _ _).mp h
    exact .frame k
  · cases h

theorem decodeWord_eq_ok_iff (c : BitVec 16) :
    decodeWord c = .ok i ↔
      CommandRow (c.extractLsb' 12 4).toNat (c.extractLsb' 8 4).toNat (c.extractLsb' 0 8) i := by
  unfold decodeWord
  generalize (c.extractLsb' 12 4).toNat = cls
  generalize (c.extractLsb' 8 4).toNat = op
  generalize c.extractLsb' 0 8 = arg
  constructor
  · intro h
    dsimp only at h
    split at h
    · exact decodeSys_row h
    · exact decodeBr_row h
    · exact decodeDec_row h
    · exact decodePred_row h
    · exact decodeFrm_row h
    · cases h
  · intro h
    cases h with
    | start | endStream | reset | rduvar | rdsvar | align => rfl
    | rdbits n hn | rdabits n hn => exact (countArg_eq_ok_iff _ _ _).mpr ⟨n, ⟨hn, rfl⟩, rfl⟩
    | dec e want hw =>
      exact (decodeDec_code e _).trans ((wantArg_eq_ok_iff _ _ _ _).mpr ⟨want, ⟨hw, rfl⟩, rfl⟩)
    | pred p sg => exact (decodePred_code p _).trans ((signedArg_eq_ok_iff _ _ _).mpr ⟨sg, rfl, rfl⟩)
    | frame k => exact (kindArg_eq_ok_iff _ _ _).mpr ⟨k, rfl, rfl⟩

theorem CommandRow.cls_lt {cls : Nat} (h : CommandRow cls op arg i) : cls < 5 := by
  cases h <;> decide

theorem CommandRow.op_lt {cls : Nat} (h : CommandRow cls op arg i) : op < 16 := by
  cases h with
  | dec e => exact lt_trans e.code.isLt (by decide)
  | pred p => exact p.code.isLt
  | _ => decide

/-- The decoder of CMD is the tables, on the CLASS, OP and ARG of the whole value: a bit above them would make CLASS
too large. -/
theorem decode_command_iff (v : Word) :
    decode .command v = .ok i ↔ CommandRow (v.toNat / 4096) (v.toNat / 256 % 16) (v.extractLsb' 0 8) i := by
  have hv := v.isLt
  have hhigh : (v.extractLsb' 16 16).toNat = v.toNat / 65536 := by rw [toNat_field]; omega
  rw [decode, decodeCommand]
  by_cases hz : v.extractLsb' 16 16 = 0
  · have hsmall : v.toNat / 65536 = 0 := by rw [← hhigh, hz]; rfl
    have hlow : (v.extractLsb' 0 16).toNat = v.toNat := by rw [toNat_field]; omega
    have hcls : ((v.extractLsb' 0 16).extractLsb' 12 4).toNat = v.toNat / 4096 := by rw [toNat_field, hlow]; omega
    have hop : ((v.extractLsb' 0 16).extractLsb' 8 4).toNat = v.toNat / 256 % 16 := by rw [toNat_field, hlow]; rfl
    have harg : (v.extractLsb' 0 16).extractLsb' 0 8 = v.extractLsb' 0 8 :=
      BitVec.eq_of_toNat_eq (by rw [toNat_field, hlow, toNat_field])
    rw [if_pos hz, decodeWord_eq_ok_iff, hcls, hop, harg]
  · have hlarge : v.toNat / 65536 ≠ 0 := fun h => hz (BitVec.eq_of_toNat_eq (hhigh.trans h))
    rw [if_neg hz]
    refine ⟨nofun, fun h => ?_⟩
    have := h.cls_lt
    omega

end

/-! ## The encoder and the tables -/

theorem toNat_commandWord (cls op : BitVec 4) (arg : Byte) :
    (commandWord cls op arg).toNat = 4096 * cls.toNat + 256 * op.toNat + arg.toNat := by
  rw [commandWord, BitVec.toNat_setWidth_of_le (by decide), toNat_append_eq_add, toNat_append_eq_add]
  omega

theorem encode_dec (e : Enc) (want : BitVec 4) :
    encode (decInstr e want) = commandWord 2 (BitVec.ofNat 4 e.code.toNat) (want.setWidth 8) := by
  cases e <;> rfl

theorem encode_pred (p : Pred) (sg : Bool) :
    encode (predCommandInstr p sg) = commandWord 3 (BitVec.ofNat 4 p.code.toNat) (signedByte sg) := by
  cases p <;> rfl

section
variable {cls op : Nat} {arg : Byte} {i : Instr}

theorem CommandRow.encode_eq (h : CommandRow cls op arg i) :
    encode i = commandWord (BitVec.ofNat 4 cls) (BitVec.ofNat 4 op) arg := by
  cases h with
  | dec e want => exact encode_dec e want
  | pred p sg => exact encode_pred p sg
  | _ => rfl

theorem CommandRow.toNat_encode (h : CommandRow cls op arg i) :
    (encode i).toNat = 4096 * cls + 256 * op + arg.toNat := by
  have hcls := h.cls_lt
  have hop := h.op_lt
  rw [h.encode_eq, toNat_commandWord, BitVec.toNat_ofNat, BitVec.toNat_ofNat, Nat.mod_eq_of_lt (by omega),
    Nat.mod_eq_of_lt hop]

theorem CommandRow.slot_eq (h : CommandRow cls op arg i) : i.slot = .command := by
  cases h with
  | dec e => cases e <;> rfl
  | pred p => cases p <;> rfl
  | _ => rfl

theorem CommandRow.wf_eq (h : CommandRow cls op arg i) : i.wf = true := by
  cases h with
  | rdbits n hn | rdabits n hn => exact decide_eq_true hn
  | dec e want hw => cases e <;> exact decide_eq_true hw
  | pred p => cases p <;> rfl
  | _ => rfl

/-- Every well-formed command has its row. -/
theorem exists_commandRow (hslot : i.slot = .command) (hwf : i.wf = true) : ∃ cls op arg, CommandRow cls op arg i := by
  cases i with
  | start => exact ⟨_, _, _, .start⟩
  | endStream => exact ⟨_, _, _, .endStream⟩
  | reset => exact ⟨_, _, _, .reset⟩
  | rdbits n => exact ⟨_, _, _, .rdbits n (of_decide_eq_true hwf)⟩
  | rdabits n => exact ⟨_, _, _, .rdabits n (of_decide_eq_true hwf)⟩
  | rduvar => exact ⟨_, _, _, .rduvar⟩
  | rdsvar => exact ⟨_, _, _, .rdsvar⟩
  | align => exact ⟨_, _, _, .align⟩
  | decSvar want => exact ⟨_, _, _, .dec .svar want (of_decide_eq_true hwf)⟩
  | decUvar want => exact ⟨_, _, _, .dec .uvar want (of_decide_eq_true hwf)⟩
  | decNeg14 want => exact ⟨_, _, _, .dec .neg14 want (of_decide_eq_true hwf)⟩
  | decTagvar want => exact ⟨_, _, _, .dec .tagvar want (of_decide_eq_true hwf)⟩
  | decTag32 want => exact ⟨_, _, _, .dec .tag32 want (of_decide_eq_true hwf)⟩
  | decTag16 want => exact ⟨_, _, _, .dec .tag16 want (of_decide_eq_true hwf)⟩
  | decNull want => exact ⟨_, _, _, .dec .null want (of_decide_eq_true hwf)⟩
  | predZero sg => exact ⟨_, _, _, .pred .zero sg⟩
  | predPrevious sg => exact ⟨_, _, _, .pred .previous sg⟩
  | predStraightline sg => exact ⟨_, _, _, .pred .straightline sg⟩
  | predAverage2 sg => exact ⟨_, _, _, .pred .average2 sg⟩
  | predMinthrottle sg => exact ⟨_, _, _, .pred .minthrottle sg⟩
  | predMotor0 sg => exact ⟨_, _, _, .pred .motor0 sg⟩
  | predIncrement sg => exact ⟨_, _, _, .pred .increment sg⟩
  | predHomelat sg => exact ⟨_, _, _, .pred .homelat sg⟩
  | predFifteenhundred sg => exact ⟨_, _, _, .pred .fifteenhundred sg⟩
  | predVbatref sg => exact ⟨_, _, _, .pred .vbatref sg⟩
  | predLastmainframetime sg => exact ⟨_, _, _, .pred .lastmainframetime sg⟩
  | predMinmotor sg => exact ⟨_, _, _, .pred .minmotor sg⟩
  | frame k => exact ⟨_, _, _, .frame k⟩
  | _ => cases hslot

/-- The encoder's word of a row has the row's CLASS, OP and ARG. -/
theorem CommandRow.decode_encode (h : CommandRow cls op arg i) : decode .command (encode i) = .ok i := by
  have hop := h.op_lt
  have harg := arg.isLt
  have hword := h.toNat_encode
  have hcls' : (encode i).toNat / 4096 = cls := by omega
  have hop' : (encode i).toNat / 256 % 16 = op := by omega
  have harg' : (encode i).extractLsb' 0 8 = arg := BitVec.eq_of_toNat_eq (by rw [toNat_field]; omega)
  rw [decode_command_iff, hcls', hop', harg']
  exact h

/-- A word is what the encoder makes of its CLASS, OP and ARG. -/
theorem encode_of_decode_command {v : Word} (h : decode .command v = .ok i) : encode i = v := by
  apply BitVec.eq_of_toNat_eq
  rw [((decode_command_iff v).mp h).toNat_encode, toNat_field]
  omega

end

/-! ## The round trip, for commands and for both halves of a descriptor -/

theorem eq_encInstr_of_slot {i : Instr} (h : i.slot = .encHalf) : ∃ d : Descriptor, i = d.encInstr := by
  cases i with
  | fdSvar sg p => exact ⟨⟨sg, .svar, p⟩, rfl⟩
  | fdUvar sg p => exact ⟨⟨sg, .uvar, p⟩, rfl⟩
  | fdNeg14 sg p => exact ⟨⟨sg, .neg14, p⟩, rfl⟩
  | fdTagvar sg p => exact ⟨⟨sg, .tagvar, p⟩, rfl⟩
  | fdTag32 sg p => exact ⟨⟨sg, .tag32, p⟩, rfl⟩
  | fdTag16 sg p => exact ⟨⟨sg, .tag16, p⟩, rfl⟩
  | fdNull sg p => exact ⟨⟨sg, .null, p⟩, rfl⟩
  | _ => cases h

theorem eq_predInstr_of_slot {i : Instr} (h : i.slot = .predHalf) : ∃ d : Descriptor, i = d.predInstr := by
  cases i with
  | fdZero sg e => exact ⟨⟨sg, e, .zero⟩, rfl⟩
  | fdPrevious sg e => exact ⟨⟨sg, e, .previous⟩, rfl⟩
  | fdStraightline sg e => exact ⟨⟨sg, e, .straightline⟩, rfl⟩
  | fdAverage2 sg e => exact ⟨⟨sg, e, .average2⟩, rfl⟩
  | fdMinthrottle sg e => exact ⟨⟨sg, e, .minthrottle⟩, rfl⟩
  | fdMotor0 sg e => exact ⟨⟨sg, e, .motor0⟩, rfl⟩
  | fdIncrement sg e => exact ⟨⟨sg, e, .increment⟩, rfl⟩
  | fdHomelat sg e => exact ⟨⟨sg, e, .homelat⟩, rfl⟩
  | fdFifteenhundred sg e => exact ⟨⟨sg, e, .fifteenhundred⟩, rfl⟩
  | fdVbatref sg e => exact ⟨⟨sg, e, .vbatref⟩, rfl⟩
  | fdLastmainframetime sg e => exact ⟨⟨sg, e, .lastmainframetime⟩, rfl⟩
  | fdMinmotor sg e => exact ⟨⟨sg, e, .minmotor⟩, rfl⟩
  | _ => cases h

/-- Settles O1: a command by its row of the tables, a half of a descriptor by the descriptor's byte. -/
theorem decodeOfEncodeIsTheInstruction : Obligations.DecodeOfEncodeIsTheInstruction := by
  intro i hwf
  cases hslot : i.slot with
  | command =>
    obtain ⟨_, _, _, hrow⟩ := exists_commandRow hslot hwf
    exact hrow.decode_encode
  | encHalf =>
    obtain ⟨d, rfl⟩ := eq_encInstr_of_slot hslot
    obtain ⟨_, _, hword⟩ := encInstr_word d
    exact (decode_encHalf_iff _ _).mpr ⟨d, hword, rfl⟩
  | predHalf =>
    obtain ⟨d, rfl⟩ := eq_predInstr_of_slot hslot
    obtain ⟨_, _, hword⟩ := predInstr_word d
    exact (decode_predHalf_iff _ _).mpr ⟨d, hword, rfl⟩

/-- Settles O2: what decodes is a row of the tables or a half of a descriptor, and their words are the encoder's. -/
theorem everyDecodedWordIsItsEncoding : Obligations.EveryDecodedWordIsItsEncoding := by
  intro sl v i h
  cases sl with
  | command =>
    have hrow := (decode_command_iff v).mp h
    exact ⟨hrow.slot_eq, hrow.wf_eq, encode_of_decode_command h⟩
  | encHalf =>
    obtain ⟨d, rfl, rfl⟩ := (decode_encHalf_iff v i).mp h
    exact encInstr_word d
  | predHalf =>
    obtain ⟨d, rfl, rfl⟩ := (decode_predHalf_iff v i).mp h
    exact predInstr_word d

/-- Settles O3: each word is the encoder's, so the round trip gives its instruction back. -/
theorem wordsOfTheSpecDecode : Obligations.WordsOfTheSpecDecode :=
  ⟨decodeOfEncodeIsTheInstruction .start rfl, decodeOfEncodeIsTheInstruction (.rdbits 8) rfl,
    decodeOfEncodeIsTheInstruction (.decTagvar 8) rfl, decodeOfEncodeIsTheInstruction (.predAverage2 true) rfl,
    decodeOfEncodeIsTheInstruction (.frame .gps) rfl, decodeOfEncodeIsTheInstruction (.fdSvar true .previous) rfl,
    decodeOfEncodeIsTheInstruction (.fdPrevious true .svar) rfl,
    decodeOfEncodeIsTheInstruction (.fdTag16 false .average2) rfl,
    decodeOfEncodeIsTheInstruction (.fdAverage2 false .tag16) rfl⟩

/-! ## Which words are commands -/

/-- MAXCHUNK by the code of the encoding (30 R81). -/
theorem maxChunk_by_code (e : Enc) :
    ((e.code.toNat < 3 ∨ e.code.toNat = 6) ∧ e.maxChunk = 1) ∨ (e.code.toNat = 3 ∧ e.maxChunk = 8) ∨
      (e.code.toNat = 4 ∧ e.maxChunk = 3) ∨ (e.code.toNat = 5 ∧ e.maxChunk = 4) := by
  cases e <;> decide

section
variable {arg : Byte}

/-- An ARG below 2^n is an n-bit operand widened. -/
theorem exists_operand {n : Nat} (hn : n ≤ 8) (h : arg.toNat < 2 ^ n) :
    ∃ y : BitVec n, y.toNat = arg.toNat ∧ arg = y.setWidth 8 := by
  have hy : (arg.setWidth n).toNat = arg.toNat := by rw [BitVec.toNat_setWidth, Nat.mod_eq_of_lt h]
  exact ⟨arg.setWidth n, hy, BitVec.eq_of_toNat_eq (by rw [BitVec.toNat_setWidth_of_le hn, hy])⟩

theorem exists_decRow (e : Enc) (hlow : 1 ≤ arg.toNat) (hmax : arg.toNat ≤ e.maxChunk) :
    ∃ i, CommandRow 2 e.code.toNat arg i := by
  have hchunk : e.maxChunk < 2 ^ 4 := by cases e <;> decide
  obtain ⟨want, hw, rfl⟩ := exists_operand (arg := arg) (n := 4) (by decide) (by omega)
  exact ⟨_, .dec e want ⟨hw.symm ▸ hlow, le_of_eq_of_le hw hmax⟩⟩

theorem exists_countRow {op : Nat} (hop : op < 2) (h : arg.toNat ≤ 32) : ∃ i, CommandRow 1 op arg i := by
  obtain ⟨n, hn, rfl⟩ := exists_operand (arg := arg) (n := 6) (by decide) (by omega)
  have hcount : countOk n := le_of_eq_of_le hn h
  interval_cases op
  · exact ⟨_, .rdbits n hcount⟩
  · exact ⟨_, .rdabits n hcount⟩

theorem exists_predRow {op : Nat} (hop : op < 12) (h : arg.toNat = 0 ∨ arg.toNat = 128) :
    ∃ i, CommandRow 3 op arg i := by
  obtain ⟨p, rfl⟩ := exists_predCode hop
  rcases h with h | h
  · obtain rfl : arg = signedByte false := BitVec.eq_of_toNat_eq h
    exact ⟨_, .pred p false⟩
  · obtain rfl : arg = signedByte true := BitVec.eq_of_toNat_eq h
    exact ⟨_, .pred p true⟩

theorem exists_frameRow (h : arg.toNat < 4) : ∃ i, CommandRow 4 0 arg i := by
  obtain ⟨c, _, rfl⟩ := exists_operand (arg := arg) (n := 2) (by decide) h
  have hc : c = (kindOfCode c).code := (kindOfCode_eq_iff c _).mp rfl
  rw [hc]
  exact ⟨_, .frame _⟩

end

/-- The CLASS, OP and ARG of the tables (30 R71 to R75). -/
theorem exists_commandRow_iff (cls op : Nat) (arg : Byte) :
    (∃ i, CommandRow cls op arg i) ↔
      (cls = 0 ∧ op < 3 ∧ arg.toNat = 0) ∨ (cls = 1 ∧ op < 2 ∧ arg.toNat ≤ 32) ∨
      (cls = 1 ∧ 2 ≤ op ∧ op < 5 ∧ arg.toNat = 0) ∨ (cls = 2 ∧ (op < 3 ∨ op = 6) ∧ arg.toNat = 1) ∨
      (cls = 2 ∧ op = 3 ∧ 1 ≤ arg.toNat ∧ arg.toNat ≤ 8) ∨ (cls = 2 ∧ op = 4 ∧ 1 ≤ arg.toNat ∧ arg.toNat ≤ 3) ∨
      (cls = 2 ∧ op = 5 ∧ 1 ≤ arg.toNat ∧ arg.toNat ≤ 4) ∨
      (cls = 3 ∧ op < 12 ∧ (arg.toNat = 0 ∨ arg.toNat = 128)) ∨ (cls = 4 ∧ op = 0 ∧ arg.toNat < 4) := by
  constructor
  · rintro ⟨i, h⟩
    cases h with
    | start | endStream | reset | rduvar | rdsvar | align => decide
    | rdbits n hn | rdabits n hn =>
      rw [BitVec.toNat_setWidth_of_le (by decide)]
      exact .inr (.inl ⟨rfl, by decide, hn⟩)
    | dec e want hw =>
      obtain ⟨hlow, hmax⟩ := hw
      rw [BitVec.toNat_setWidth_of_le (by decide)]
      rcases maxChunk_by_code e with ⟨hop, hchunk⟩ | ⟨hop, hchunk⟩ | ⟨hop, hchunk⟩ | ⟨hop, hchunk⟩ <;>
        rw [hchunk] at hmax
      · exact .inr (.inr (.inr (.inl ⟨rfl, hop, le_antisymm hmax hlow⟩)))
      · exact .inr (.inr (.inr (.inr (.inl ⟨rfl, hop, hlow, hmax⟩))))
      · exact .inr (.inr (.inr (.inr (.inr (.inl ⟨rfl, hop, hlow, hmax⟩)))))
      · exact .inr (.inr (.inr (.inr (.inr (.inr (.inl ⟨rfl, hop, hlow, hmax⟩))))))
    | pred p sg =>
      have hop : p.code.toNat < 12 := by cases p <;> decide
      have harg : (signedByte sg).toNat = 0 ∨ (signedByte sg).toNat = 128 := by cases sg <;> decide
      exact .inr (.inr (.inr (.inr (.inr (.inr (.inr (.inl ⟨rfl, hop, harg⟩)))))))
    | frame k =>
      rw [BitVec.toNat_setWidth_of_le (by decide)]
      exact .inr (.inr (.inr (.inr (.inr (.inr (.inr (.inr ⟨rfl, rfl, k.code.isLt⟩)))))))
  · rintro (⟨rfl, hop, h⟩ | ⟨rfl, hop, h⟩ | ⟨rfl, hop, hop', h⟩ | ⟨rfl, hop, h⟩ | ⟨rfl, rfl, h, h'⟩ |
      ⟨rfl, rfl, h, h'⟩ | ⟨rfl, rfl, h, h'⟩ | ⟨rfl, hop, h⟩ | ⟨rfl, rfl, h⟩)
    · obtain rfl : arg = 0 := BitVec.eq_of_toNat_eq h
      interval_cases op
      · exact ⟨_, .start⟩
      · exact ⟨_, .endStream⟩
      · exact ⟨_, .reset⟩
    · exact exists_countRow hop h
    · obtain rfl : arg = 0 := BitVec.eq_of_toNat_eq h
      interval_cases op
      · exact ⟨_, .rduvar⟩
      · exact ⟨_, .rdsvar⟩
      · exact ⟨_, .align⟩
    · rcases hop with hop | rfl
      · interval_cases op
        · exact exists_decRow .svar h.ge h.le
        · exact exists_decRow .uvar h.ge h.le
        · exact exists_decRow .neg14 h.ge h.le
      · exact exists_decRow .null h.ge h.le
    · exact exists_decRow .tagvar h h'
    · exact exists_decRow .tag32 h h'
    · exact exists_decRow .tag16 h h'
    · exact exists_predRow hop h
    · exact exists_frameRow h

/-- Settles O4: the decoder is the tables, and their CLASS, OP and ARG are the ones listed. -/
theorem commandWordsAcceptedExactly : Obligations.CommandWordsAcceptedExactly := by
  intro v
  have harg : (v.extractLsb' 0 8).toNat = v.toNat % 256 := by rw [toNat_field]; omega
  simp only [decode_command_iff, exists_commandRow_iff, harg]

end Sys2Proof.Machine
end

section
/-! PROOFS. Where instructions run: the halves of a descriptor only inside FRAME (30 R80), every command in every mode
(70 R251). -/

namespace Sys2Proof.Machine

/-- Settles O46: both halves ask for the mode before anything else. -/
theorem descriptorsRunOnlyInsideFrame : Obligations.DescriptorsRunOnlyInsideFrame :=
  fun _ d hm => ⟨exec_encInstr_outside d hm, exec_predInstr_outside d hm⟩

/-! ## The operations of the commands have a next state -/

section
variable {s : State}

theorem whenBetween_runs {o : Out} (h : s.run.mode = .between → ∃ t, o = .next t) : ∃ t, whenBetween s o = .next t := by
  by_cases hm : s.run.mode = .between
  · rw [whenBetween_admitted hm]
    exact h hm
  · exact ⟨_, whenBetween_refused hm o⟩

theorem finishRead_runs (s : State) (r : Rd (List Word)) : ∃ t, finishRead s r = .next t := by
  cases r with
  | ok ws bp => exact ⟨_, rfl⟩
  | raised x pos => exact ⟨_, rfl⟩

theorem bitCommand_runs (s : State) (r : Rd Word) : ∃ t, bitCommand s r = .next t :=
  whenBetween_runs fun _ => finishRead_runs s _

/-- A Bit Reader command with a bit count runs, the count in range or not. -/
theorem countedRead_runs (s : State) (n : BitVec 6) (r : Rd Word) :
    ∃ t, (if n.toNat ≤ 32 then bitCommand s r else .next (illegalCommand s)) = .next t := by
  split
  · exact bitCommand_runs s r
  · exact ⟨_, rfl⟩

theorem decCommand_runs (e : Enc) (want : BitVec 4) (s : State) (dec : Stream → Nat → Nat → Rd (List Word)) :
    ∃ t, decCommand e want s dec = .next t := by
  unfold decCommand
  split
  · exact whenBetween_runs fun _ => finishRead_runs s _
  · exact ⟨_, rfl⟩

theorem predCommand_runs (p : Pred) (sg : Bool) (s : State) : ∃ t, predCommand p sg s = .next t := by
  refine whenBetween_runs fun _ => ?_
  split
  · exact ⟨_, rfl⟩
  · exact ⟨_, rfl⟩

theorem execStart_runs (s : State) : ∃ t, execStart s = .next t := by
  unfold execStart
  split
  · split
    · exact ⟨_, rfl⟩
    · exact ⟨_, rfl⟩
  · exact ⟨_, rfl⟩

/-- FRAME runs to its end: its definition is legal and each run takes a field or more (43 R180). -/
theorem execFrame_runs (hinv : Inv s) (k : Kind) : ∃ t, execFrame k s = .next t := by
  by_cases hm : s.run.mode = .between
  · by_cases hn : s.cfg.nf.get k = 0
    · exact ⟨_, exec_frame_undefined hm hn⟩
    · obtain ⟨_, cf, _, he⟩ := exec_frame_reading hinv hm hn
      exact ⟨_, he⟩
  · exact ⟨_, whenBetween_refused hm _⟩

/-! ## Every command -/

theorem exec_decInstr (e : Enc) (want : BitVec 4) (s : State) :
    exec (decInstr e want) s = decCommand e want s (decoderOf e) := by
  cases e <;> rfl

theorem exec_predCommand (p : Pred) (sg : Bool) (s : State) : exec (predCommandInstr p sg) s = predCommand p sg s := by
  cases p <;> rfl

theorem exec_command_runs {cls op : Nat} {arg : Byte} {i : Instr} (hinv : Inv s) (h : CommandRow cls op arg i) :
    ∃ t, exec i s = .next t := by
  cases h with
  | start => exact execStart_runs s
  | endStream | align => exact whenBetween_runs fun _ => ⟨_, rfl⟩
  | reset => exact ⟨_, rfl⟩
  | rdbits n | rdabits n => exact countedRead_runs s n _
  | rduvar | rdsvar => exact bitCommand_runs s _
  | dec e want =>
    rw [exec_decInstr]
    exact decCommand_runs e want s _
  | pred p sg =>
    rw [exec_predCommand]
    exact predCommand_runs p sg s
  | frame k => exact execFrame_runs hinv k

end

/-- Settles O59: by the host action; a value written to CMD that decodes is a command of the tables. -/
theorem everyStepHasANextState : Obligations.EveryStepHasANextState := by
  intro s hinv
  rcases step_host hinv.outside with ⟨_, he⟩ | ⟨rest, _, he⟩ | ⟨r, rest, _, he⟩ | ⟨v, rest, i, _, hd, he⟩ |
    ⟨v, rest, e, _, _, he⟩ | ⟨r, v, rest, _, _, he⟩
  · exact ⟨_, he⟩
  · exact ⟨_, he⟩
  · exact ⟨_, he⟩
  · rw [he]
    exact exec_command_runs (s := { s with port := rest }) hinv ((decode_command_iff v).mp hd)
  · exact ⟨_, he⟩
  · exact ⟨_, he⟩

end Sys2Proof.Machine
end

section
/-! PROOFS. The Bit Reader commands with a bit count (40 R103, R106): both are one read of n bits at a bit address,
BP for RDBITS and BP rounded up for RDABITS. ALIGN rounds and reads nothing (40 R107). -/

namespace Sys2Proof.Machine

/-! ## Words -/

theorem encode_count (op : BitVec 4) (n : BitVec 6) :
    commandWord 1 op (n.setWidth 8) = BitVec.ofNat 32 (0x1000 + 0x100 * op.toNat) + n.setWidth 32 := by
  have hn := n.isLt
  have hop := op.isLt
  apply BitVec.eq_of_toNat_eq
  rw [toNat_commandWord, BitVec.toNat_setWidth_of_le (by decide), BitVec.toNat_add,
    BitVec.toNat_setWidth_of_le (by decide), BitVec.toNat_ofNat]
  have hone : (1 : BitVec 4).toNat = 1 := rfl
  omega

theorem decode_rdbits {n : BitVec 6} (h : n.toNat ≤ 32) :
    decode .command (0x1000 + n.setWidth 32) = .ok (.rdbits n) :=
  encode_count 0 n ▸ (CommandRow.rdbits n h).decode_encode

theorem decode_rdabits {n : BitVec 6} (h : n.toNat ≤ 32) :
    decode .command (0x1100 + n.setWidth 32) = .ok (.rdabits n) :=
  encode_count 1 n ▸ (CommandRow.rdabits n h).decode_encode

/-! ## The read of n bits at a bit address -/

theorem alignUp_eq (bp : Nat) : alignUp bp = 8 * ((bp + 7) / 8) := Nat.mul_comm _ _

theorem rdbits_ok {st : Stream} {p n : Nat} (h : p + n ≤ 8 * st.len) :
    rdbits st p n = .ok (zext (memRead st.buf p n)) (p + n) := by
  rw [rdbits, readField, if_neg (Nat.not_lt.mpr h), Rd.andThen_ok]

theorem rdbits_end {st : Stream} {p n : Nat} (h : 8 * st.len < p + n) : rdbits st p n = .raised .endOfData p := by
  rw [rdbits, readField, if_pos h, Rd.andThen_raised]

/-- The first bit read is bit n-1 of the word, and the bits above are 0 (20 R53). -/
theorem zext_memRead_getLsbD (buf : Cells 8) (p n : Nat) {j : Nat} (hj : j < 32) :
    (zext (memRead buf p n)).getLsbD j =
      (decide (j < n) && (buf.read ((p + (n - 1 - j)) / 8)).getLsbD (7 - (p + (n - 1 - j)) % 8)) := by
  rw [zext, BitVec.getLsbD_setWidth, memRead_getLsbD, decide_eq_true hj, Bool.true_and, streamBit]

/-- What RDBITS and RDABITS are: n bits read at the bit address p, a count above 32 refused. -/
def countedRead (s : State) (n : BitVec 6) (p : Nat) : Out :=
  if n.toNat ≤ 32 then bitCommand s (rdbits s.stream p n.toNat) else .next (illegalCommand s)

theorem exec_rdbits (n : BitVec 6) (s : State) : exec (.rdbits n) s = countedRead s n s.run.bp.toNat := rfl

theorem exec_rdabits (n : BitVec 6) (s : State) : exec (.rdabits n) s = countedRead s n (alignUp s.run.bp.toNat) := rfl

section
variable {s : State} {n : BitVec 6} {p : Nat}

theorem countedRead_of_le (hn : n.toNat ≤ 32) : countedRead s n p = bitCommand s (rdbits s.stream p n.toNat) :=
  if_pos hn

theorem countedRead_illegal (hn : 32 < n.toNat) : countedRead s n p = .next (afterIllegal s) :=
  if_neg (Nat.not_le.mpr hn)

theorem countedRead_ok (hm : s.run.mode = .between) (hn : n.toNat ≤ 32) (hfit : p + n.toNat ≤ 8 * s.cfg.buflen.toNat) :
    countedRead s n p = .next (afterRead [zext (memRead s.buf p n.toNat)] (p + n.toNat) s) := by
  rw [countedRead_of_le hn]
  exact bitCommand_ok hm (rdbits_ok hfit)

theorem countedRead_end (hm : s.run.mode = .between) (hn : n.toNat ≤ 32) (hend : 8 * s.cfg.buflen.toNat < p + n.toNat) :
    countedRead s n p = .next (afterRaise .endOfData p s) := by
  rw [countedRead_of_le hn]
  exact bitCommand_raised hm (rdbits_end hend) (.inl rfl)

end

/-- Settles O12: the counted read at BP. -/
theorem rdbitsReadsTheNextBits : Obligations.RdbitsReadsTheNextBits := by
  intro s n
  rw [exec_rdbits]
  exact ⟨decode_rdbits, fun hm hn hfit => ⟨_, countedRead_ok hm hn hfit, fun _ => zext_memRead_getLsbD _ _ _⟩,
    countedRead_end, countedRead_illegal⟩

/-- Settles O13: the counted read at BP rounded up, which is BP where BP is aligned. -/
theorem rdabitsRoundsTheCursorUp : Obligations.RdabitsRoundsTheCursorUp := by
  intro s n a
  have ha : alignUp s.run.bp.toNat = a := alignUp_eq _
  rw [exec_rdabits, exec_rdbits, ha]
  refine ⟨decode_rdabits, fun hm hn hfit => ⟨_, countedRead_ok hm hn hfit, fun _ => zext_memRead_getLsbD _ _ _⟩,
    countedRead_end, fun hmod => ?_, countedRead_illegal⟩
  rw [← ha, alignUp_of_mod hmod]

/-! ## ALIGN -/

theorem exec_align {s : State} (hm : s.run.mode = .between) :
    exec .align s = .next (complete (setBp (alignUp s.run.bp.toNat) s)) := whenBetween_admitted hm _

/-- A rounded address stays a multiple of 8 in the 35 bits of BP. -/
theorem bitAddr_alignUp_mod (bp : Nat) : (BitVec.ofNat 35 (alignUp bp)).toNat % 8 = 0 := by
  have hmod := alignUp_mod bp
  rw [BitVec.toNat_ofNat]
  omega

/-- Settles O14: BP is the one field that ALIGN sets beside ERR, to the value it has where it is aligned. -/
theorem alignMovesOnlyTheCursor : Obligations.AlignMovesOnlyTheCursor := by
  refine ⟨decodeOfEncodeIsTheInstruction .align rfl, fun s => ⟨fun hm => ⟨_, exec_align hm, ?_, ?_, fun hmod => ?_⟩,
    fun hm => whenBetween_refused hm _⟩⟩
  · rw [alignUp_eq]
    rfl
  · exact (statusWord_getLsbD _ 6).trans (decide_eq_true (bitAddr_alignUp_mod _))
  · rw [alignUp_of_mod hmod, setBp, BitVec.ofNat_toNat, BitVec.setWidth_eq]
    rfl

end Sys2Proof.Machine
end

section
/-! PROOFS. RDUVAR and RDSVAR (40 R108, R109) on what the bytes spell, and the writer's sequences (40 R105, R111) as
spellings of their values. -/

namespace Sys2Proof.Machine

/-! ## The commands on a spelling -/

section
variable {st : Stream} {bp pos bp' : Nat}

theorem rdsvar_ok {u : Word} (h : rduvar st bp = .ok u bp') : rdsvar st bp = .ok (zigzag u) bp' := by
  rw [rdsvar, h, Rd.andThen_ok]

theorem rdsvar_raised {x : Exc} (h : rduvar st bp = .raised x pos) : rdsvar st bp = .raised x pos := by
  rw [rdsvar, h, Rd.andThen_raised]

end

section
variable {s : State}

theorem exec_rduvar_spells (hm : s.run.mode = .between) {u bp' : Nat} (h : Spells s.stream s.run.bp.toNat u bp') :
    exec .rduvar s = .next (afterRead [BitVec.ofNat 32 u] bp' s) := bitCommand_ok hm (rduvar_spells h).1

theorem exec_rdsvar_spells (hm : s.run.mode = .between) {u bp' : Nat} (h : Spells s.stream s.run.bp.toNat u bp') :
    exec .rdsvar s = .next (afterRead [zigzag (BitVec.ofNat 32 u)] bp' s) :=
  bitCommand_ok hm (rdsvar_ok (rduvar_spells h).1)

end

/-- Settles O15: the three things that `rduvar` can do. -/
theorem rduvarReadsTheSpelledValue : Obligations.RduvarReadsTheSpelledValue :=
  ⟨decodeOfEncodeIsTheInstruction .rduvar rfl, fun _ hm =>
    ⟨fun _ _ h => ⟨exec_rduvar_spells hm h, (rduvar_spells h).2⟩,
      fun h => bitCommand_raised hm (rduvar_malformed h) (.inr rfl),
      fun _ h => bitCommand_raised hm (rduvar_truncated h) (.inl rfl)⟩⟩

/-- Settles O16: the unsigned value, unfolded, or the raise of RDUVAR. -/
theorem rdsvarUnfoldsTheZigzag : Obligations.RdsvarUnfoldsTheZigzag := by
  refine ⟨decodeOfEncodeIsTheInstruction .rdsvar rfl, fun s hm => ⟨fun u bp' h => ⟨_, exec_rdsvar_spells hm h, ?_⟩,
    fun h => bitCommand_raised hm (rdsvar_raised (rduvar_malformed h)) (.inr rfl),
    fun _ h => bitCommand_raised hm (rdsvar_raised (rduvar_truncated h)) (.inl rfl)⟩⟩
  have hu : u < 2 ^ 32 := (rduvar_spells h).2
  rw [toInt_zigzag, BitVec.toNat_ofNat, Nat.mod_eq_of_lt hu]

/-! ## The writer's sequences -/

/-- A sequence of bytes that spells u: bit 7 set on every byte but the last (30 R85). -/
structure SpellsGroups (u : Nat) (bs : List Byte) (last : Byte) : Prop where
  continues : ∀ b ∈ bs, b.getLsbD 7 = true
  ends : last.getLsbD 7 = false
  value : groupsValue (bs ++ [last]) = u

theorem getLsbD_seven (b : Byte) : b.getLsbD 7 = decide (128 ≤ b.toNat) := by
  cases h : b.getLsbD 7 with
  | true => exact (decide_eq_true (continuation_payload b h)).symm
  | false => exact (decide_eq_false (Nat.not_le.mpr (terminator_payload b h))).symm

theorem spellsGroups_single {u : Nat} (h : u < 128) : SpellsGroups u [] (BitVec.ofNat 8 u) where
  continues := nofun
  ends := by rw [getLsbD_seven, BitVec.toNat_ofNat]; exact decide_eq_false (by omega)
  value := by simp only [List.nil_append, groupsValue, BitVec.toNat_ofNat]; omega

theorem SpellsGroups.cons {u : Nat} {bs : List Byte} {last : Byte} (h : SpellsGroups (u / 128) bs last) :
    SpellsGroups u (BitVec.ofNat 8 (128 + u % 128) :: bs) last where
  continues := by
    refine List.forall_mem_cons.mpr ⟨?_, h.continues⟩
    rw [getLsbD_seven, BitVec.toNat_ofNat]
    exact decide_eq_true (by omega)
  ends := h.ends
  value := by
    simp only [List.cons_append, groupsValue, BitVec.toNat_ofNat, h.value]
    omega

/-- The last byte weighs 128 to the number of bytes before it. -/
theorem last_le_groupsValue (bs : List Byte) (last : Byte) :
    last.toNat % 128 * 128 ^ bs.length ≤ groupsValue (bs ++ [last]) := by
  induction bs with
  | nil => simp [groupsValue]
  | cons b bs ih =>
    simp only [List.cons_append, groupsValue, List.length_cons, Nat.pow_succ, ← Nat.mul_assoc]
    omega

/-- A fifth byte of a value below 2^32 is below 16 (30 R85). -/
theorem SpellsGroups.fifth_lt {u : Nat} {bs : List Byte} {last : Byte} (h : SpellsGroups u bs last) (hu : u < 2 ^ 32)
    (hlen : bs.length = 4) : last.toNat < 16 := by
  have hlast := terminator_payload last h.ends
  have hweight := last_le_groupsValue bs last
  rw [h.value, hlen] at hweight
  omega

theorem groupBytes_spells {fuel u : Nat} (h : u < 128 ^ (fuel + 1)) :
    ∃ bs last, groupBytes (fuel + 1) u = bs ++ [last] ∧ bs.length ≤ fuel ∧ SpellsGroups u bs last := by
  induction fuel generalizing u with
  | zero => exact ⟨[], _, if_pos (by omega), le_refl _, spellsGroups_single (by omega)⟩
  | succ fuel ih =>
    by_cases hu : u < 128
    · exact ⟨[], _, if_pos hu, Nat.zero_le _, spellsGroups_single hu⟩
    · have hrest : u / 128 < 128 ^ (fuel + 1) := Nat.div_lt_of_lt_mul (Nat.pow_succ' ▸ h)
      obtain ⟨bs, last, heq, hlen, hsp⟩ := ih hrest
      refine ⟨_ :: bs, last, ?_, Nat.succ_le_succ hlen, hsp.cons⟩
      rw [groupBytes, if_neg hu, heq, List.cons_append]

/-- The shortest sequence of u, at a byte boundary, spells u. -/
theorem spells_uvarBytes {st : Stream} {a : Nat} {u : Word} (h : BytesAt st a (uvarBytes u)) :
    Spells st (8 * a) u.toNat (8 * (a + (uvarBytes u).length)) := by
  have hu := u.isLt
  obtain ⟨bs, last, heq, hlen, hsp⟩ := groupBytes_spells (fuel := 4) (u := u.toNat) (by omega)
  have hbytes : uvarBytes u = bs ++ [last] := heq
  have ha : (8 * a + 7) / 8 = a := by omega
  rw [hbytes] at h ⊢
  refine ⟨bs, last, hlen, hsp.continues, hsp.ends, hsp.fifth_lt hu, ha.symm ▸ h, hsp.value.symm, ?_⟩
  rw [ha, List.length_append, List.length_singleton, Nat.add_assoc]

/-- A zero padded to two bytes (40 R111). -/
theorem spells_paddedZero {st : Stream} {a : Nat} (h : BytesAt st a [0x80, 0x00]) :
    Spells st (8 * a) 0 (8 * (a + 2)) := by
  have ha : (8 * a + 7) / 8 = a := by omega
  exact ⟨[0x80], 0x00, by decide, by decide, rfl, by decide, ha.symm ▸ h, rfl, by rw [ha]; rfl⟩

theorem length_groupBytes_succ (fuel u : Nat) :
    (groupBytes (fuel + 1) u).length = if u < 128 then 1 else (groupBytes fuel (u / 128)).length + 1 := by
  rw [groupBytes]
  split <;> rfl

theorem length_uvarBytes (u : Word) : (uvarBytes u).length =
    if u.toNat < 2 ^ 7 then 1 else if u.toNat < 2 ^ 14 then 2 else if u.toNat < 2 ^ 21 then 3
      else if u.toNat < 2 ^ 28 then 4 else 5 := by
  have hu := u.isLt
  simp only [uvarBytes, varMax, length_groupBytes_succ]
  split_ifs <;> omega

/-- Settles O18: the shortest sequence and the padded zero are spellings of their values. -/
theorem rduvarInvertsTheShortestForm : Obligations.RduvarInvertsTheShortestForm := by
  refine ⟨fun s a u hm hbp hat => ?_, length_uvarBytes,
    fun s a hm hbp hat => exec_rduvar_spells hm (hbp ▸ spells_paddedZero hat)⟩
  rw [exec_rduvar_spells hm (hbp ▸ spells_uvarBytes hat), BitVec.ofNat_toNat, BitVec.setWidth_eq]

/-- Settles O19: RDUVAR's inverse, then that of zig-zag. -/
theorem rdsvarInvertsTheEncoder : Obligations.RdsvarInvertsTheEncoder := by
  refine ⟨fun s a x hm hbp hat => ?_, by simp only [toInt_zigzag]; rfl⟩
  rw [exec_rdsvar_spells hm (hbp ▸ spells_uvarBytes hat), BitVec.ofNat_toNat, BitVec.setWidth_eq, zigzag_svarCode]

end Sys2Proof.Machine
end

section
/-! PROOFS. What the Bit Reader commands consume (40 R110): BP after each of them. -/

namespace Sys2Proof.Machine

/-- BP is within the buffer after a command: where it was if the command raised or was refused, at an address with P if
it completed. -/
def ConsumedTo (s t : State) (P : Nat → Prop) : Prop :=
  t.run.bp.toNat ≤ 8 * s.cfg.buflen.toNat ∧ (t.run.status.err ≠ .none → t.run.bp = s.run.bp) ∧
    (t.run.status.err = .none → P t.run.bp.toNat)

section
variable {s t : State} {P : Nat → Prop}

theorem consumedTo_of_completed {bp : Nat} (ht : t.run.bp = BitVec.ofNat 35 bp) (herr : t.run.status.err = .none)
    (hin : bp ≤ 8 * s.cfg.buflen.toNat) (hP : P bp) : ConsumedTo s t P := by
  have hlen := s.cfg.buflen.isLt
  have hbp : t.run.bp.toNat = bp := by rw [ht, toNat_bitAddr (by omega)]
  exact ⟨hbp ▸ hin, fun h => absurd herr h, fun _ => hbp ▸ hP⟩

theorem consumedTo_of_unmoved (hcur : s.run.bp.toNat ≤ 8 * s.cfg.buflen.toNat) (ht : t.run.bp = s.run.bp)
    (herr : t.run.status.err ≠ .none) : ConsumedTo s t P := ⟨ht ▸ hcur, fun _ => ht, fun h => absurd h herr⟩

/-! ## The commands -/

theorem bitCommand_consumedTo {r : Rd Word} (hm : s.run.mode = .between)
    (hcur : s.run.bp.toNat ≤ 8 * s.cfg.buflen.toNat) (hf : r.Forward s.cfg.buflen.toNat s.run.bp.toNat)
    (hP : ∀ v bp, r = .ok v bp → P bp) (h : bitCommand s r = .next t) : ConsumedTo s t P := by
  cases hr : r with
  | ok v bp =>
    rw [bitCommand_ok hm hr, Host.Outcome.next.injEq] at h
    rw [hr] at hf
    exact h ▸ consumedTo_of_completed rfl rfl hf.2 (hP v bp hr)
  | raised x pos =>
    rw [bitCommand_raised hm hr (hf.stream_of_raised hr), Host.Outcome.next.injEq] at h
    exact h ▸ consumedTo_of_unmoved hcur rfl (by cases x <;> exact nofun)

theorem countedRead_consumedTo {n : BitVec 6} {p : Nat} (hm : s.run.mode = .between)
    (hcur : s.run.bp.toNat ≤ 8 * s.cfg.buflen.toNat) (hp : s.run.bp.toNat ≤ p) (h : countedRead s n p = .next t) :
    ConsumedTo s t (· = p + n.toNat) := by
  by_cases hn : n.toNat ≤ 32
  · rw [countedRead_of_le hn] at h
    refine bitCommand_consumedTo hm hcur ((rdbits_forward s.stream p n.toNat).mono hp) (fun v bp hr => ?_) h
    obtain ⟨_, q, hfield, hq⟩ := Rd.andThen_eq_ok hr
    cases hq
    rcases readField_cases s.stream p n.toNat with ⟨_, he⟩ | ⟨_, he⟩
    · cases he.symm.trans hfield
      rfl
    · cases he.symm.trans hfield
  · rw [countedRead_illegal (Nat.not_le.mp hn), Host.Outcome.next.injEq] at h
    exact h ▸ consumedTo_of_unmoved hcur rfl nofun

theorem exec_align_consumedTo (hm : s.run.mode = .between) (hcur : s.run.bp.toNat ≤ 8 * s.cfg.buflen.toNat)
    (h : exec .align s = .next t) : ConsumedTo s t (· = alignUp s.run.bp.toNat) := by
  rw [exec_align hm, Host.Outcome.next.injEq] at h
  exact h ▸ consumedTo_of_completed rfl rfl (alignUp_le hcur) rfl

end

/-! ## Whole bytes -/

/-- bp' is 1 to `most` whole bytes after bp rounded up. -/
def BytesAfter (bp most bp' : Nat) : Prop := ∃ m, 1 ≤ m ∧ m ≤ most ∧ bp' = alignUp bp + 8 * m

section
variable {st : Stream} {bp bp' : Nat} {v : Word}

theorem rdbyte_ok_cursor {b : Byte} (h : rdbyte st bp = .ok b bp') : bp' = alignUp bp + 8 := by
  rcases rdbyte_cases st bp with ⟨_, he⟩ | ⟨_, he⟩
  · cases he.symm.trans h
    rfl
  · cases he.symm.trans h

theorem rduvarFrom_bytesAfter {entry left i : Nat} {r : Word} (h : rduvarFrom st entry left i bp r = .ok v bp') :
    BytesAfter bp left bp' := by
  induction left generalizing i bp r with
  | zero => cases h
  | succ left ih =>
    obtain ⟨b, p, hbyte, h⟩ := Rd.andThen_eq_ok h
    have hp := rdbyte_ok_cursor hbyte
    split at h
    · cases h
    · split at h
      · obtain ⟨m, hlow, hhigh, hbp'⟩ := ih h
        have hmod := alignUp_mod bp
        rw [alignUp_of_mod (by omega)] at hbp'
        exact ⟨m + 1, by omega, by omega, by omega⟩
      · cases h
        exact ⟨1, le_refl _, by omega, hp⟩

theorem rduvar_bytesAfter (h : rduvar st bp = .ok v bp') : BytesAfter bp 5 bp' := rduvarFrom_bytesAfter h

theorem rdsvar_bytesAfter (h : rdsvar st bp = .ok v bp') : BytesAfter bp 5 bp' := by
  obtain ⟨u, p, hu, hp⟩ := Rd.andThen_eq_ok h
  cases hp
  exact rduvar_bytesAfter hu

end

/-- Settles O20: by the command; each completes at the address that its read ends at. -/
theorem bitReaderConsumption : Obligations.BitReaderConsumption := by
  intro s t i hm hcur h hi
  rcases hi with ⟨n, rfl⟩ | ⟨n, rfl⟩ | rfl | rfl | rfl
  · obtain ⟨hin, hraise, hok⟩ := countedRead_consumedTo hm hcur (le_refl _) h
    exact ⟨hin, hraise, fun herr => ⟨fun _ hn => by cases hn; exact hok herr, nofun, nofun, nofun⟩⟩
  · obtain ⟨hin, hraise, hok⟩ := countedRead_consumedTo hm hcur (alignUp_ge _) h
    rw [alignUp_eq] at hok
    exact ⟨hin, hraise, fun herr => ⟨nofun, fun _ hn => by cases hn; exact hok herr, nofun, nofun⟩⟩
  · obtain ⟨hin, hraise, hok⟩ := exec_align_consumedTo hm hcur h
    rw [alignUp_eq] at hok
    exact ⟨hin, hraise, fun herr => ⟨nofun, nofun, fun _ => hok herr, nofun⟩⟩
  · obtain ⟨hin, hraise, hok⟩ :=
      bitCommand_consumedTo hm hcur (rduvar_forward s.stream _) (fun _ _ => rduvar_bytesAfter) h
    rw [BytesAfter, alignUp_eq] at hok
    exact ⟨hin, hraise, fun herr => ⟨nofun, nofun, nofun, fun _ => hok herr⟩⟩
  · obtain ⟨hin, hraise, hok⟩ :=
      bitCommand_consumedTo hm hcur (rdsvar_forward s.stream _) (fun _ _ => rdsvar_bytesAfter) h
    rw [BytesAfter, alignUp_eq] at hok
    exact ⟨hin, hraise, fun herr => ⟨nofun, nofun, nofun, fun _ => hok herr⟩⟩

end Sys2Proof.Machine
end

section
/-! PROOFS. The DEC commands as calls of the decoder of their encoding (41 R120, R121). -/

namespace Sys2Proof.Machine

/-- The word of a DEC command: CLASS 2, the code of its encoding, WANT (30 R73). -/
theorem decode_dec {e : Enc} {want : BitVec 4} (h : wantOk e.maxChunk want) :
    decode .command (BitVec.ofNat 32 (0x2000 + 0x100 * e.code.toNat) + want.setWidth 32) = .ok (decInstr e want) := by
  have hrow := CommandRow.dec e want h
  have hword : encode (decInstr e want) = BitVec.ofNat 32 (0x2000 + 0x100 * e.code.toNat) + want.setWidth 32 := by
    have hcode := e.code.isLt
    have hwant := want.isLt
    apply BitVec.eq_of_toNat_eq
    rw [hrow.toNat_encode, BitVec.toNat_add, BitVec.toNat_ofNat, BitVec.toNat_setWidth_of_le (by decide),
      BitVec.toNat_setWidth_of_le (by decide)]
    omega
  exact hword ▸ hrow.decode_encode

theorem one_le_maxChunk (e : Enc) : 1 ≤ e.maxChunk := by cases e <;> decide

theorem wantOk_one (e : Enc) : wantOk e.maxChunk 1 := ⟨le_refl 1, one_le_maxChunk e⟩

section
variable {s : State} {e : Enc} {want : BitVec 4}

theorem exec_dec_ok (hm : s.run.mode = .between) (hw : wantOk e.maxChunk want) {ws : List Word} {bp : Nat}
    (h : decoderOf e s.stream s.run.bp.toNat want.toNat = .ok ws bp) :
    exec (decInstr e want) s = .next (afterRead ws bp s) :=
  (exec_decInstr e want s).trans (decCommand_ok hm hw h)

theorem exec_dec_raised (hm : s.run.mode = .between) (hw : wantOk e.maxChunk want) {x : Exc} {pos : Nat}
    (h : decoderOf e s.stream s.run.bp.toNat want.toNat = .raised x pos) :
    exec (decInstr e want) s = .next (afterRaise x.err pos s) :=
  (exec_decInstr e want s).trans (decCommand_raised hm hw h (decoderOf_raised_stream h))

theorem exec_dec_illegal (s : State) (h : want.toNat = 0 ∨ e.maxChunk < want.toNat) :
    exec (decInstr e want) s = .next (afterIllegal s) :=
  (exec_decInstr e want s).trans (decCommand_illegal s _ h)

end

end Sys2Proof.Machine
end

section
/-! PROOFS. The encodings of one word (41 R122 to R124, R131): SVAR, UVAR and NEG14 are one function each of the word
that `rduvar` reads, and NULL reads nothing. -/

namespace Sys2Proof.Machine

/-! ## The word of a spelled value -/

/-- The decoder of `e` reads one unsigned variable-length integer and gives `f` of it. -/
def DecodesWord (e : Enc) (f : Word → Word) : Prop :=
  ∀ st bp want, decoderOf e st bp want = oneWord ((rduvar st bp).andThen fun u bp' => .ok (f u) bp')

theorem decodesWord_svar : DecodesWord .svar zigzag := fun _ _ _ => rfl

theorem decodesWord_uvar : DecodesWord .uvar id := by
  intro st bp want
  show oneWord (rduvar st bp) = _
  cases rduvar st bp with
  | ok u bp' => rfl
  | raised x pos => rfl

theorem decodesWord_neg14 : DecodesWord .neg14 neg14 := fun _ _ _ => rfl

section
variable {e : Enc} {f : Word → Word} {st : Stream} {bp : Nat}

theorem DecodesWord.spells (hf : DecodesWord e f) {u bp' : Nat} (h : Spells st bp u bp') (want : Nat) :
    decoderOf e st bp want = .ok [f (BitVec.ofNat 32 u)] bp' := by
  rw [hf, (rduvar_spells h).1]
  rfl

theorem DecodesWord.raises (hf : DecodesWord e f) {x : Exc} {pos : Nat} (h : rduvar st bp = .raised x pos)
    (want : Nat) : decoderOf e st bp want = .raised x pos := by
  rw [hf, h]
  rfl

end

section
variable {e : Enc} {f : Word → Word} {s : State}

theorem DecodesWord.exec_spells (hf : DecodesWord e f) (hm : s.run.mode = .between) {u bp' : Nat}
    (h : Spells s.stream s.run.bp.toNat u bp') :
    exec (decInstr e 1) s = .next (afterRead [f (BitVec.ofNat 32 u)] bp' s) :=
  exec_dec_ok hm (wantOk_one e) (hf.spells h _)

theorem DecodesWord.exec_malformed (hf : DecodesWord e f) (hm : s.run.mode = .between)
    (h : Malformed s.stream s.run.bp.toNat) :
    exec (decInstr e 1) s = .next (afterRaise .malformedFrame s.run.bp.toNat s) :=
  exec_dec_raised hm (wantOk_one e) (hf.raises (rduvar_malformed h) _)

theorem DecodesWord.exec_truncated (hf : DecodesWord e f) (hm : s.run.mode = .between) {pos : Nat}
    (h : Truncated s.stream s.run.bp.toNat pos) :
    exec (decInstr e 1) s = .next (afterRaise .endOfData pos s) :=
  exec_dec_raised hm (wantOk_one e) (hf.raises (rduvar_truncated h) _)

end

/-! ## The values -/

theorem toInt_zigzag_of_spells {st : Stream} {bp u bp' : Nat} (h : Spells st bp u bp') :
    (zigzag (BitVec.ofNat 32 u)).toInt = zigzagValue u := by
  rw [toInt_zigzag, BitVec.toNat_ofNat, Nat.mod_eq_of_lt (rduvar_spells h).2]

/-- The signed value of a 14-bit pattern fits a word, negated or not. -/
theorem toInt_wrap_neg (x : BitVec 14) : (wrap 32 (-x.toInt)).toInt = -x.toInt := by
  have hlow := BitVec.le_toInt x
  have hhigh := BitVec.toInt_lt (x := x)
  rw [wrap, BitVec.toInt_ofInt]
  exact Int.bmod_eq_of_le (by omega) (by omega)

/-- NEG14 sees the low 14 bits only (41 R124). -/
theorem toInt_neg14 (u : Nat) : (neg14 (BitVec.ofNat 32 u)).toInt = neg14Value u := by
  have hlow : ((BitVec.ofNat 32 u).extractLsb' 0 14).toNat = u % 16384 := by
    rw [toNat_field, BitVec.toNat_ofNat]
    omega
  rw [neg14, toInt_wrap_neg, BitVec.toInt_eq_toNat_cond, hlow, neg14Value]
  split_ifs <;> omega

theorem neg14Value_bounds (u : Nat) : -8191 ≤ neg14Value u ∧ neg14Value u ≤ 8192 := by
  unfold neg14Value
  split <;> omega

/-! ## The commands -/

/-- Settles O21: the words of `zigzag` and of the value itself, or the raise of `rduvar`. -/
theorem decSvarAndUvarGiveOneWord : Obligations.DecSvarAndUvarGiveOneWord :=
  ⟨decodeOfEncodeIsTheInstruction (.decSvar 1) rfl, decodeOfEncodeIsTheInstruction (.decUvar 1) rfl, rfl, rfl,
    fun _ hm => ⟨fun _ _ h =>
        ⟨⟨_, decodesWord_svar.exec_spells hm h, toInt_zigzag_of_spells h⟩, decodesWord_uvar.exec_spells hm h⟩,
      fun h => ⟨decodesWord_svar.exec_malformed hm h, decodesWord_uvar.exec_malformed hm h⟩,
      fun _ h => ⟨decodesWord_svar.exec_truncated hm h, decodesWord_uvar.exec_truncated hm h⟩⟩⟩

/-- Settles O22: the word of `neg14`, whose value is the rule's, or the raise of `rduvar`. -/
theorem decNeg14NegatesTheLow14Bits : Obligations.DecNeg14NegatesTheLow14Bits := by
  refine ⟨decodeOfEncodeIsTheInstruction (.decNeg14 1) rfl, rfl, fun s hm =>
    ⟨fun u bp' h => ⟨_, decodesWord_neg14.exec_spells hm h, toInt_neg14 u, ?_⟩,
      decodesWord_neg14.exec_malformed hm, fun _ => decodesWord_neg14.exec_truncated hm⟩⟩
  rw [toInt_neg14]
  exact neg14Value_bounds u

/-- Settles O23: the decoder gives the word 0 and the cursor it was given. -/
theorem decNullConsumesNothing : Obligations.DecNullConsumesNothing := by
  refine ⟨decodeOfEncodeIsTheInstruction (.decNull 1) rfl, rfl, fun s hm =>
    ⟨_, exec_dec_ok (e := .null) hm (wantOk_one .null) rfl, rfl, ?_, rfl, rfl⟩⟩
  exact (BitVec.ofNat_toNat 35 s.run.bp).trans (BitVec.setWidth_eq _)

end Sys2Proof.Machine
end

section
/-! PROOFS. Tagged groups (41 R126, R128, R130): the slots of a group are read in order, each where the one before it
ended, and `want` trims the words after all of them have been read (41 R121). -/

namespace Sys2Proof.Machine

/-! ## Slots in order -/

/-- Slots that each give a value and the cursor of the next. -/
theorem readSlots_ok {slot : Nat → Nat → Rd Word} {p : Nat → Nat} {v : Nat → Word} (n i : Nat)
    (h : ∀ j, i ≤ j → j < i + n → slot j (p j) = .ok (v j) (p (j + 1))) :
    readSlots slot (List.range' i n) (p i) = .ok ((List.range' i n).map v) (p (i + n)) := by
  induction n generalizing i with
  | zero => rfl
  | succ n ih =>
    have hrest := ih (i + 1) fun j hj hjn => h j (by omega) (by omega)
    rw [List.range'_succ, readSlots, h i (le_refl i) (by omega), Rd.andThen_ok, hrest, Rd.andThen_ok, List.map_cons,
      Nat.add_right_comm, Nat.add_assoc]

/-- The first slot that raises ends the group. -/
theorem readSlots_raised {slot : Nat → Nat → Rd Word} {p : Nat → Nat} {v : Nat → Word} {x : Exc} {pos j : Nat}
    (n i : Nat) (hi : i ≤ j) (hj : j < i + n)
    (h : ∀ k, i ≤ k → k < j → slot k (p k) = .ok (v k) (p (k + 1))) (hr : slot j (p j) = .raised x pos) :
    readSlots slot (List.range' i n) (p i) = .raised x pos := by
  induction n generalizing i with
  | zero => omega
  | succ n ih =>
    rw [List.range'_succ, readSlots]
    rcases Nat.eq_or_lt_of_le hi with rfl | hlt
    · rw [hr, Rd.andThen_raised]
    · rw [h i (le_refl i) hlt, Rd.andThen_ok, ih (i + 1) hlt (by omega) fun k hk => h k (by omega), Rd.andThen_raised]

section
variable {st : Stream} {bp want n : Nat} {t : Byte} {slot : Byte → Nat → Nat → Rd Word}

/-- A group all of whose slots have values: the first `want` of them, and the cursor after the last slot. -/
theorem tagged_ok {v : Nat → Word} {bp' : Nat} (hat : BytesAt st ((bp + 7) / 8) [t]) (hw : want ≤ n)
    (h : readSlots (slot t) (List.range' 0 n) (8 * ((bp + 7) / 8 + 1)) = .ok ((List.range' 0 n).map v) bp') :
    tagged st bp want (List.range' 0 n) slot = .ok ((List.range want).map v) bp' := by
  rw [tagged_at hat, h, Rd.andThen_ok, ← List.map_take, ← List.range_eq_range', List.take_range, Nat.min_eq_left hw]

theorem tagged_raised {js : List Nat} {x : Exc} {pos : Nat} (hat : BytesAt st ((bp + 7) / 8) [t])
    (h : readSlots (slot t) js (8 * ((bp + 7) / 8 + 1)) = .raised x pos) :
    tagged st bp want js slot = .raised x pos := by
  rw [tagged_at hat, h, Rd.andThen_raised]

end

/-! ## TAGVAR (41 R126) -/

section
variable {st : Stream} {t : Byte} {j p p' : Nat} {v : Word}

theorem slotVar_present (h : t.getLsbD j = true) : slotVar st t j p = rdsvar st p := if_pos h

theorem slotVar_absent (h : t.getLsbD j = false) : slotVar st t j p = .ok 0 p := if_neg (by simp [h])

/-- A slot as its rule gives it is the slot that the decoder reads. -/
theorem slotVar_of_varSlot (h : VarSlot st t j p v p') : slotVar st t j p = .ok v p' := by
  unfold VarSlot at h
  split at h
  next hbit =>
    obtain ⟨u, hu, hv⟩ := h
    have hword : zigzag (BitVec.ofNat 32 u) = v := BitVec.eq_of_toInt_eq ((toInt_zigzag_of_spells hu).trans hv.symm)
    rw [slotVar_present hbit, rdsvar_ok (rduvar_spells hu).1, hword]
  next hbit =>
    obtain ⟨rfl, rfl⟩ := h
    exact slotVar_absent (Bool.eq_false_of_not_eq_true hbit)

theorem slotVar_raised {x : Exc} {pos : Nat} (hbit : t.getLsbD j = true) (h : rduvar st p = .raised x pos) :
    slotVar st t j p = .raised x pos := (slotVar_present hbit).trans (rdsvar_raised h)

end

/-- A TAGVAR group whose first slots are well spelled and whose slot j is present and raises. -/
theorem exec_decTagvar_raised {s : State} {want : BitVec 4} {t : Byte} {p : Nat → Nat} {v : Nat → Word} {j pos : Nat}
    {x : Exc} (hm : s.run.mode = .between) (hw : wantOk Enc.tagvar.maxChunk want)
    (hat : BytesAt s.stream ((s.run.bp.toNat + 7) / 8) [t]) (hp : p 0 = 8 * ((s.run.bp.toNat + 7) / 8 + 1)) (hj : j < 8)
    (hbefore : ∀ i < j, VarSlot s.stream t i (p i) (v i) (p (i + 1))) (hbit : t.getLsbD j = true)
    (h : rduvar s.stream (p j) = .raised x pos) :
    exec (.decTagvar want) s = .next (afterRaise x.err pos s) := by
  have hslots : readSlots (slotVar s.stream t) (List.range' 0 8) (p 0) = .raised x pos :=
    readSlots_raised 8 0 (Nat.zero_le j) (by omega) (fun i _ hi => slotVar_of_varSlot (hbefore i hi))
      (slotVar_raised hbit h)
  exact exec_dec_raised (e := .tagvar) hm hw (tagged_raised hat (hp ▸ hslots))

/-- Settles O24: each slot of the rule is the decoder's, in order, up to the first that raises. -/
theorem decTagvarReadsThePresentSlots : Obligations.DecTagvarReadsThePresentSlots := by
  intro s want t p v hm hlow hhigh a
  have hw : wantOk Enc.tagvar.maxChunk want := ⟨hlow, hhigh⟩
  refine ⟨decode_dec (e := .tagvar) hw, rfl, fun hend => exec_dec_raised (e := .tagvar) hm hw (tagged_end hend),
    fun hat hp => ⟨fun hslots => ?_, fun j hj hbefore hbit =>
      ⟨fun h => exec_decTagvar_raised hm hw hat hp hj hbefore hbit (rduvar_malformed h),
        fun pos h => exec_decTagvar_raised hm hw hat hp hj hbefore hbit (rduvar_truncated h)⟩⟩⟩
  have hread : readSlots (slotVar s.stream t) (List.range' 0 8) (p 0) = .ok ((List.range' 0 8).map v) (p 8) :=
    readSlots_ok 8 0 fun j _ hj => slotVar_of_varSlot (hslots j (by omega))
  exact exec_dec_ok (e := .tagvar) hm hw (tagged_ok hat hhigh (hp ▸ hread))

/-! ## TAG32 and TAG16 (41 R128, R130) -/

/-- The decoder of `e` reads one fixed-width field for each slot, its width looked up in the table. -/
def DecodesFields (e : Enc) (table : List Nat) : Prop :=
  ∀ st bp want, decoderOf e st bp want =
    tagged st bp want (List.range' 0 e.maxChunk) fun t j => slotField st (slotWidth table t j)

theorem width32_eq : ∀ c < 4, width32 c = [0, 8, 16, 32].getD c 0 := by decide

theorem width16_eq : ∀ c < 4, width16 c = [0, 4, 8, 16].getD c 0 := by decide

theorem width32_widthClass (t : Byte) (j : Nat) : width32 (widthClass t j) = slotWidth [0, 8, 16, 32] t j := by
  rw [widthClass_eq, width32_eq _ (Nat.mod_lt _ (by decide)), slotWidth]

theorem width16_widthClass (t : Byte) (j : Nat) : width16 (widthClass t j) = slotWidth [0, 4, 8, 16] t j := by
  rw [widthClass_eq, width16_eq _ (Nat.mod_lt _ (by decide)), slotWidth]

theorem decodesFields_tag32 : DecodesFields .tag32 [0, 8, 16, 32] := by
  intro st bp want
  simp only [decoderOf, decTag32, width32_widthClass]
  rfl

theorem decodesFields_tag16 : DecodesFields .tag16 [0, 4, 8, 16] := by
  intro st bp want
  simp only [decoderOf, decTag16, width16_widthClass]
  rfl

/-- A decoder of fixed-width fields meets the rule of a tagged group: the fields that all fit, or the first that does
not. -/
theorem DecodesFields.taggedGroup {e : Enc} {table : List Nat} (hf : DecodesFields e table) :
    TaggedGroup (decInstr e) e.maxChunk table := by
  intro s want t hm hlow hhigh a pos
  have hw : wantOk e.maxChunk want := ⟨hlow, hhigh⟩
  refine ⟨fun hend => exec_dec_raised hm hw ((hf _ _ _).trans (tagged_end hend)), fun hat hfit => ?_,
    fun j hat hj hstart hend => ?_⟩
  · have hread := readSlots_fields (st := s.stream) (w := slotWidth table t) (a := 8 * (a + 1)) e.maxChunk 0
      (by rwa [Nat.zero_add])
    rw [Nat.zero_add] at hread
    exact exec_dec_ok hm hw ((hf _ _ _).trans (tagged_ok hat hhigh hread))
  · have hread := readSlots_fields_end (st := s.stream) e.maxChunk 0 j (Nat.zero_le j) (by omega) hstart hend
    exact exec_dec_raised hm hw ((hf _ _ _).trans (tagged_raised hat hread))

/-- Settles O25: TAG32 reads fixed-width fields, and the table of its widths is the rule's. -/
theorem decTag32ReadsItsThreeFields : Obligations.DecTag32ReadsItsThreeFields :=
  ⟨fun _ hlow hhigh => decode_dec (e := .tag32) ⟨hlow, hhigh⟩, rfl, decodesFields_tag32.taggedGroup⟩

/-- Settles O26: TAG16 reads fixed-width fields, and the table of its widths is the rule's. -/
theorem decTag16ReadsItsFourFields : Obligations.DecTag16ReadsItsFourFields :=
  ⟨fun _ hlow hhigh => decode_dec (e := .tag16) ⟨hlow, hhigh⟩, rfl, decodesFields_tag16.taggedGroup⟩

/-! ## WANT (41 R121) -/

/-- Whatever `want` is, a tagged group is read whole. -/
theorem tagged_trim (st : Stream) (bp : Nat) {want n : Nat} (h : want ≤ n) (js : List Nat)
    (slot : Byte → Nat → Nat → Rd Word) :
    tagged st bp want js slot = (tagged st bp n js slot).andThen fun ws bp' => .ok (ws.take want) bp' := by
  unfold tagged
  cases rdbyte st bp with
  | raised x pos => rfl
  | ok t p =>
    simp only [Rd.andThen_ok]
    cases readSlots (slot t) js p with
    | raised x pos => rfl
    | ok vs q => simp only [Rd.andThen_ok, List.take_take, Nat.min_eq_left h]

/-- At `want` = MAXCHUNK nothing is trimmed. -/
theorem decoderOf_take_maxChunk (e : Enc) (st : Stream) (bp : Nat) :
    (decoderOf e st bp e.maxChunk).andThen (fun ws bp' => .ok (ws.take e.maxChunk) bp') =
      decoderOf e st bp e.maxChunk := by
  cases h : decoderOf e st bp e.maxChunk with
  | raised x pos => rfl
  | ok ws bp' =>
    have hlen : ws.length = e.maxChunk := decoderOf_length (one_le_maxChunk e) (le_refl _) h
    rw [Rd.andThen_ok, ← hlen, List.take_length]

theorem decoderOf_trim {e : Enc} {want : Nat} (st : Stream) (bp : Nat) (hlow : 1 ≤ want) (hhigh : want ≤ e.maxChunk) :
    decoderOf e st bp want = (decoderOf e st bp e.maxChunk).andThen fun ws bp' => .ok (ws.take want) bp' := by
  cases e with
  | tagvar | tag32 | tag16 => exact tagged_trim st bp hhigh _ _
  | svar | uvar | neg14 | null =>
    obtain rfl : want = 1 := Nat.le_antisymm hhigh hlow
    exact (decoderOf_take_maxChunk _ st bp).symm

theorem maxChunk_le_eight (e : Enc) : e.maxChunk ≤ 8 := by cases e <;> decide

theorem toNat_maxChunk (e : Enc) : (BitVec.ofNat 4 e.maxChunk).toNat = e.maxChunk := by cases e <;> rfl

/-- Settles O27: the decoder at `want` is the decoder at MAXCHUNK with its words trimmed. -/
theorem wantOnlyTrimsTheGroup : Obligations.WantOnlyTrimsTheGroup := by
  refine fun s e want hm => ⟨exec_dec_illegal s, fun hlow hhigh => ?_⟩
  have hwhole : wantOk e.maxChunk (BitVec.ofNat 4 e.maxChunk) := by
    rw [wantOk, toNat_maxChunk]
    exact ⟨le_trans hlow hhigh, le_refl _⟩
  have htrim := decoderOf_trim s.stream s.run.bp.toNat hlow hhigh
  cases hd : decoderOf e s.stream s.run.bp.toNat e.maxChunk with
  | ok ws bp' =>
    rw [hd] at htrim
    exact .inl ⟨ws, bp', decoderOf_length (le_trans hlow hhigh) (le_refl _) hd,
      exec_dec_ok hm hwhole (by rw [toNat_maxChunk, hd]), exec_dec_ok hm ⟨hlow, hhigh⟩ htrim⟩
  | raised x pos =>
    rw [hd] at htrim
    refine .inr ⟨x.err, pos, ?_, exec_dec_raised hm hwhole (by rw [toNat_maxChunk, hd]),
      exec_dec_raised hm ⟨hlow, hhigh⟩ htrim⟩
    rcases decoderOf_raised_stream hd with rfl | rfl
    · exact .inl rfl
    · exact .inr rfl

end Sys2Proof.Machine
end

section
/-! PROOFS. One decoder for the DEC commands and for the sequencer (41 R120, R121): a DEC command completes exactly
where its decoder gives words, and the encoding half of a descriptor calls the same decoder for its whole run (43 R174,
R175). -/

namespace Sys2Proof.Machine

/-! ## What a DEC command says of its decoder -/

theorem Rd.Forward.le_of_ok {α : Type} {len bp bp' : Nat} {r : Rd α} {v : α} (hf : r.Forward len bp)
    (h : r = .ok v bp') : bp' ≤ 8 * len := by
  subst h
  exact hf.2

section
variable {e : Enc} (st : Stream) (bp want : Nat)

theorem DecodesWord.forward {f : Word → Word} (hf : DecodesWord e f) : (decoderOf e st bp want).Forward st.len bp := by
  rw [hf]
  exact oneWord_forward ((rduvar_forward st bp).andThen fun _ _ _ _ hle => ⟨le_refl _, hle⟩)

theorem DecodesFields.forward {table : List Nat} (hf : DecodesFields e table) :
    (decoderOf e st bp want).Forward st.len bp := by
  rw [hf]
  exact tagged_forward (fun _ _ p hp => slotField_forward st _ p hp) bp want _

end

/-- A decoder that gives words has read its last bit inside the buffer, or is NULL and has read none. -/
theorem decoderOf_cursor {e : Enc} {st : Stream} {bp want bp' : Nat} {ws : List Word}
    (h : decoderOf e st bp want = .ok ws bp') : bp' = bp ∨ bp' ≤ 8 * st.len := by
  cases e with
  | svar => exact .inr ((decodesWord_svar.forward st bp want).le_of_ok h)
  | uvar => exact .inr ((decodesWord_uvar.forward st bp want).le_of_ok h)
  | neg14 => exact .inr ((decodesWord_neg14.forward st bp want).le_of_ok h)
  | tagvar => exact .inr ((tagged_forward (slotVar_forward st) bp want _).le_of_ok h)
  | tag32 => exact .inr ((decodesFields_tag32.forward st bp want).le_of_ok h)
  | tag16 => exact .inr ((decodesFields_tag16.forward st bp want).le_of_ok h)
  | null =>
    cases h
    exact .inl rfl

/-- The cursor after a decoder's words is one that BP can hold. -/
theorem decoderOf_cursor_lt {s : State} {e : Enc} {want bp' : Nat} {ws : List Word}
    (h : decoderOf e s.stream s.run.bp.toNat want = .ok ws bp') : bp' < 2 ^ 35 := by
  rcases decoderOf_cursor h with rfl | hle
  · exact s.run.bp.isLt
  · have hlen : s.stream.len < 2 ^ 32 := s.cfg.buflen.isLt
    omega

/-- Equal words and cursors are left only by equal words and cursors. -/
theorem afterRead_inj {ws ws' : List Word} {bp bp' : Nat} {s : State} (hlen : ws.length = ws'.length)
    (hle : ws.length ≤ 8) (hbp : bp < 2 ^ 35) (hbp' : bp' < 2 ^ 35) (h : afterRead ws bp s = afterRead ws' bp' s) :
    ws = ws' ∧ bp = bp' := by
  constructor
  · refine List.ext_getElem hlen fun j hj hj' => ?_
    have hw : (afterRead ws bp s).run.w.get j = (afterRead ws' bp' s).run.w.get j := by rw [h]
    have hj8 : j < 8 := by omega
    rwa [afterRead_w_get, afterRead_w_get, if_pos hj8, if_pos hj8, List.getD_eq_getElem _ _ hj,
      List.getD_eq_getElem _ _ hj'] at hw
  · have hcur : BitVec.ofNat 35 bp = BitVec.ofNat 35 bp' := congrArg (fun t => t.run.bp) h
    rw [← toNat_bitAddr hbp, hcur, toNat_bitAddr hbp']

theorem decoderOf_ok_iff {s : State} {e : Enc} {want : BitVec 4} (hm : s.run.mode = .between)
    (hw : wantOk e.maxChunk want) (ws : List Word) (bp' : Nat) :
    decoderOf e s.stream s.run.bp.toNat want.toNat = .ok ws bp' ↔
      (ws.length = want.toNat ∧ bp' < 2 ^ 35 ∧ exec (decInstr e want) s = .next (afterRead ws bp' s)) := by
  refine ⟨fun h => ⟨decoderOf_length hw.1 hw.2 h, decoderOf_cursor_lt h, exec_dec_ok hm hw h⟩, ?_⟩
  rintro ⟨hlen, hcur, hexec⟩
  cases hd : decoderOf e s.stream s.run.bp.toNat want.toNat with
  | ok vs p =>
    have hvs : vs.length = want.toNat := decoderOf_length hw.1 hw.2 hd
    have hmax := maxChunk_le_eight e
    have hstate := Host.Outcome.next.inj ((exec_dec_ok hm hw hd).symm.trans hexec)
    obtain ⟨rfl, rfl⟩ := afterRead_inj (hvs.trans hlen.symm) (by omega) (decoderOf_cursor_lt hd) hcur hstate
    rfl
  | raised x pos =>
    have hstate := Host.Outcome.next.inj ((exec_dec_raised hm hw hd).symm.trans hexec)
    have herr : x.err = .none := congrArg (fun t => t.run.status.err) hstate
    cases x <;> cases herr

/-! ## The run of a descriptor -/

theorem hasEnc_iff (e : Enc) (d : Byte) : hasEnc e d = true ↔ d.toNat / 16 % 8 = e.code.toNat := by
  rw [hasEnc, beq_iff_eq, encOfCode_eq_some_iff, ← BitVec.toNat_inj, toNat_field]
  rfl

/-- The run that the sequencer counts is the run of 43 R174. -/
theorem runLength_of_runIs {fd : Cells 8} {nf i n : Nat} {e : Enc} (h : RunIs fd nf i e n) :
    runLength e fd nf i = n := by
  obtain ⟨-, hmax, hnf, hall, hstop⟩ := h
  obtain ⟨hle, hcount, hend⟩ := countEnc_spec e fd (min e.maxChunk (nf - i)) i
  rw [runLength]
  rcases Nat.lt_trichotomy (countEnc e fd (min e.maxChunk (nf - i)) i) n with hlt | heq | hgt
  · have hother := hend (by omega)
    rw [(hasEnc_iff e _).mpr (hall _ hlt)] at hother
    cases hother
  · exact heq
  · exact absurd ((hasEnc_iff e _).mp (hcount n hgt)) (hstop (by omega) (by omega))

/-- At the head of a run the encoding half is one call of the decoder, for the whole run (43 R175). -/
theorem exec_encInstr_runIs {s : State} {d : Descriptor} {n : Nat} (hm : s.run.mode = .inframe)
    (hraw : s.frame.raw = [])
    (hrun : RunIs (s.cfg.fd.get s.frame.kind) (s.cfg.nf.get s.frame.kind).toNat s.frame.fi d.enc n) :
    (∀ ws bp', decoderOf d.enc s.stream s.run.bp.toNat n = .ok ws bp' →
      exec d.encInstr s = .next { s with run.bp := BitVec.ofNat 35 bp', frame.raw := ws, frame.rj := 0 }) ∧
    (∀ x pos, decoderOf d.enc s.stream s.run.bp.toNat n = .raised x pos →
      exec d.encInstr s = .next (afterAbandon x pos s.frame.fi s)) := by
  have hlen : runLength d.enc s.frameFd s.frameNf s.frame.fi = n := runLength_of_runIs hrun
  rw [exec_encInstr, decodeRun, if_pos ⟨hm, hraw, hlen ▸ hrun.1⟩, hlen]
  refine ⟨fun ws bp' h => ?_, fun x pos h => ?_⟩
  · rw [h]
    rfl
  · rw [h, ← takeException_inside hm]

/-- Settles O43: a DEC command leaves the words and the cursor that its decoder gives, from which both can be read back;
the encoding half calls that decoder at the length of its run. -/
theorem encodingHalvesDecodeTheWholeRun : Obligations.EncodingHalvesDecodeTheWholeRun :=
  ⟨fun _ _ _ hm hlow hhigh => ⟨decoderOf_ok_iff hm ⟨hlow, hhigh⟩, fun _ _ h => exec_dec_raised hm ⟨hlow, hhigh⟩ h⟩,
    fun _ sg e p _ hm hraw hrun => exec_encInstr_runIs (d := ⟨sg, e, p⟩) hm hraw hrun⟩

/-- Settles O44: at a run of one field the decoder gives the one word of the spelled value. -/
theorem singleFieldEncodingHalvesTakeTheSpelledValue : Obligations.SingleFieldEncodingHalvesTakeTheSpelledValue := by
  intro s sg p hm hraw run after
  have half {e : Enc} (hrun : run e) {v : Word} {bp' : Nat}
      (h : decoderOf e s.stream s.run.bp.toNat 1 = .ok [v] bp') :
      exec (Descriptor.mk sg e p).encInstr s = .next (after v bp') := by
    obtain ⟨hok, -⟩ := exec_encInstr_runIs (d := ⟨sg, e, p⟩) hm hraw hrun
    exact hok _ _ h
  exact ⟨fun u bp' h =>
    ⟨fun hrun => ⟨_, half hrun (decodesWord_svar.spells h 1), toInt_zigzag_of_spells h⟩,
      fun hrun => half hrun (decodesWord_uvar.spells h 1),
      fun hrun => ⟨_, half hrun (decodesWord_neg14.spells h 1), toInt_neg14 u⟩⟩,
    fun hrun => half (e := .null) hrun rfl⟩

end Sys2Proof.Machine
end

section
/-! PROOFS. The two rules of the Predictor Engine that depend on the width (42 R143, R147, R148): what fits a width is
what a pattern of that width has for its value, so STRAIGHTLINE is exact or falls back, and the mean always fits. -/

namespace Sys2Proof.Machine

/-! ## What fits a width (42 R143) -/

section
variable {w : Nat} {sg : Bool}

theorem fits_signed_iff (x : Int) : fits w true x = true ↔ -(2 : Int) ^ (w - 1) ≤ x ∧ x ≤ (2 : Int) ^ (w - 1) - 1 :=
  decide_eq_true_iff

theorem fits_unsigned_iff (x : Int) : fits w false x = true ↔ 0 ≤ x ∧ x ≤ (2 : Int) ^ w - 1 :=
  decide_eq_true_iff

theorem exists_fits_bounds (w : Nat) (sg : Bool) : ∃ lo hi, ∀ x, fits w sg x = true ↔ lo ≤ x ∧ x ≤ hi := by
  cases sg with
  | true => exact ⟨_, _, fits_signed_iff⟩
  | false => exact ⟨_, _, fits_unsigned_iff⟩

theorem fits_val (d : BitVec w) : fits w sg (val sg d) = true := by
  cases sg with
  | true => exact (fits_signed_iff _).mpr ⟨BitVec.le_toInt d, Int.le_sub_one_of_lt BitVec.toInt_lt⟩
  | false =>
    have hlt : (d.toNat : Int) < (2 : Int) ^ w := mod_cast d.isLt
    exact (fits_unsigned_iff _).mpr ⟨Int.natCast_nonneg _, Int.le_sub_one_of_lt hlt⟩

theorem val_wrap (hw : 1 ≤ w) {x : Int} (h : fits w sg x = true) : val sg (wrap w x) = x := by
  cases sg with
  | true =>
    obtain ⟨hlow, hhigh⟩ := (fits_signed_iff x).mp h
    exact BitVec.toInt_ofInt_eq_self hw hlow (Int.lt_of_le_sub_one hhigh)
  | false =>
    obtain ⟨hlow, hhigh⟩ := (fits_unsigned_iff x).mp h
    have hlt : x < ((2 ^ w : Nat) : Int) := by
      push_cast
      exact Int.lt_of_le_sub_one hhigh
    show ((BitVec.ofInt w x).toNat : Int) = x
    rw [BitVec.toNat_ofInt, Int.emod_eq_of_lt hlow hlt, Int.toNat_of_nonneg hlow]

theorem ofNat_toNat_self (d : BitVec w) : BitVec.ofNat w d.toNat = d :=
  (BitVec.ofNat_toNat w d).trans (BitVec.setWidth_eq d)

theorem wrap_val (d : BitVec w) : wrap w (val sg d) = d := by
  cases sg with
  | true => exact BitVec.ofInt_toInt
  | false => exact (BitVec.ofInt_natCast w d.toNat).trans (ofNat_toNat_self d)

theorem fits_iff_exists_val (hw : 1 ≤ w) (x : Int) : fits w sg x = true ↔ ∃ d : BitVec w, val sg d = x :=
  ⟨fun h => ⟨wrap w x, val_wrap hw h⟩, fun ⟨d, hd⟩ => hd ▸ fits_val d⟩

/-! ## The mean (42 R148) -/

theorem div2z_bounds {lo hi x : Int} (hlow : 2 * lo ≤ x) (hhigh : x ≤ 2 * hi) : lo ≤ div2z x ∧ div2z x ≤ hi := by
  have hdiv := Int.mul_tdiv_add_tmod x 2
  have hrem := Int.tmod_two_eq x
  unfold div2z
  omega

/-- Whatever the bounds of the width, the mean of two values within them is within them. -/
theorem fits_mean {x y : Int} (hx : fits w sg x = true) (hy : fits w sg y = true) : fits w sg (div2z (x + y)) = true := by
  obtain ⟨lo, hi, hbounds⟩ := exists_fits_bounds w sg
  rw [hbounds] at hx hy ⊢
  exact div2z_bounds (by omega) (by omega)

theorem val_diffAverage2 (hw : 1 ≤ w) (a b : BitVec w) :
    val sg (diffAverage2 sg (some a) (some b)) = (val sg a + val sg b).tdiv 2 :=
  val_wrap hw (fits_mean (fits_val a) (fits_val b))

/-! ## The extrapolation (42 R147) -/

variable {a b : BitVec w}

theorem diffStraightline_eq_of_val {d : BitVec w} (h : val sg d = 2 * val sg a - val sg b) :
    diffStraightline sg (some a) (some b) = d := by
  show (if fits w sg (2 * val sg a - val sg b) then wrap w (2 * val sg a - val sg b) else a) = d
  rw [← h, if_pos (fits_val d), wrap_val]

theorem diffStraightline_eq_last (hw : 1 ≤ w) (h : ∀ d : BitVec w, val sg d ≠ 2 * val sg a - val sg b) :
    diffStraightline sg (some a) (some b) = a :=
  if_neg fun hfits => h _ (val_wrap hw hfits)

end

/-- Settles O32: what fits is the value of a pattern, and the mean of two values fits. -/
theorem extrapolationAndMeanAtEveryWidth : Obligations.ExtrapolationAndMeanAtEveryWidth :=
  fun _ _ a b hw => ⟨fits_iff_exists_val hw, fun _ => diffStraightline_eq_of_val, diffStraightline_eq_last hw,
    val_diffAverage2 hw a b, rfl, rfl, fun _ => ⟨rfl, rfl⟩⟩

end Sys2Proof.Machine
end

section
/-! PROOFS. The PRED commands (42 R145 to R157): each is the rule of its predictor on the PA registers, added to PA_RAW,
or the fatal exception. -/

namespace Sys2Proof.Machine

/-! ## From the rule to the command -/

/-- The word of a PRED command: CLASS 3, the code of its predictor, S in bit 7 (30 R74). -/
theorem decode_pred (p : Pred) (sg : Bool) :
    decode .command (encode (predCommandInstr p sg)) = .ok (predCommandInstr p sg) :=
  (CommandRow.pred p sg).decode_encode

section
variable {p : Pred} {sg : Bool} {s : State}

theorem exec_pred_value (hm : s.run.mode = .between) {d : Word}
    (hd : diffOf p s.cfg.hdr (paOperands sg s.run.pa) = some d) :
    exec (predCommandInstr p sg) s = .next (afterPred (s.run.pa.raw + d) (diagnose p s)) := by
  have hv : predict p s.cfg.hdr (paOperands sg s.run.pa) = some (s.run.pa.raw + d) := by
    rw [predict, hd]
    rfl
  exact (exec_predCommand p sg s).trans (predCommand_value hm hv)

theorem exec_pred_adds (hm : s.run.mode = .between) (hp : Pred.isStub p = false) {d : Word}
    (hd : diffOf p s.cfg.hdr (paOperands sg s.run.pa) = some d) :
    exec (predCommandInstr p sg) s = .next (afterPred (s.run.pa.raw + d) s) := by
  rw [exec_pred_value hm hd, diagnose_of_not_stub hp]

theorem exec_pred_adds_zero (hm : s.run.mode = .between)
    (hd : diffOf p s.cfg.hdr (paOperands sg s.run.pa) = some 0) :
    exec (predCommandInstr p sg) s = .next (afterPred s.run.pa.raw (diagnose p s)) := by
  have hsum : s.run.pa.raw + 0 = s.run.pa.raw := BitVec.add_zero _
  rw [exec_pred_value hm hd, hsum]

theorem exec_pred_fatal (hm : s.run.mode = .between)
    (hd : diffOf p s.cfg.hdr (paOperands sg s.run.pa) = none) :
    exec (predCommandInstr p sg) s = .next (afterFatal s) := by
  have hv : predict p s.cfg.hdr (paOperands sg s.run.pa) = none := by
    rw [predict, hd]
    rfl
  exact (exec_predCommand p sg s).trans (predCommand_raise hm hv)

end

/-! ## The operands in the PA registers (42 R157) -/

theorem optional_of_valid {valid : Bool} (h : valid = true) (v : Word) : optional valid v = some v := if_pos h

theorem optional_of_not_valid {valid : Bool} (h : valid = false) (v : Word) : optional valid v = none := by
  rw [h]
  rfl

/-! ## The rules of two frames (42 R147, R148) -/

/-- The rule of `p` takes `both` of the two history operands; with the last alone it is the last, with no last it is
0. -/
structure TwoFrameRule (p : Pred) (both : Bool → Word → Word → Word) : Prop where
  notStub : Pred.isStub p = false
  diff_absent : ∀ (h : HeaderRegs) {o : PredOperands}, o.last = none → diffOf p h o = some 0
  diff_alone : ∀ (h : HeaderRegs) {o : PredOperands} {a : Word}, o.last = some a → o.llast = none →
    diffOf p h o = some a
  diff_both : ∀ (h : HeaderRegs) {o : PredOperands} {a b : Word}, o.last = some a → o.llast = some b →
    diffOf p h o = some (both o.signed a b)

theorem twoFrameRule_straightline :
    TwoFrameRule .straightline fun sg a b => diffStraightline sg (some a) (some b) where
  notStub := rfl
  diff_absent _ _ hl := by rw [diffOf, hl]; rfl
  diff_alone _ _ _ hl hll := by rw [diffOf, hl, hll]; rfl
  diff_both _ _ _ _ hl hll := by rw [diffOf, hl, hll]

theorem twoFrameRule_average2 : TwoFrameRule .average2 fun sg a b => diffAverage2 sg (some a) (some b) where
  notStub := rfl
  diff_absent _ _ hl := by rw [diffOf, hl]; rfl
  diff_alone _ _ _ hl hll := by rw [diffOf, hl, hll]; rfl
  diff_both _ _ _ _ hl hll := by rw [diffOf, hl, hll]

section
variable {p : Pred} {both : Bool → Word → Word → Word} {sg : Bool} {s : State}

theorem TwoFrameRule.exec_absent (hp : TwoFrameRule p both) (hm : s.run.mode = .between)
    (hl : s.run.pa.valid.getLsbD 0 = false) :
    exec (predCommandInstr p sg) s = .next (afterPred s.run.pa.raw s) := by
  rw [exec_pred_adds_zero hm (hp.diff_absent _ (optional_of_not_valid hl _)), diagnose_of_not_stub hp.notStub]

theorem TwoFrameRule.exec_alone (hp : TwoFrameRule p both) (hm : s.run.mode = .between)
    (hl : s.run.pa.valid.getLsbD 0 = true) (hll : s.run.pa.valid.getLsbD 1 = false) :
    exec (predCommandInstr p sg) s = .next (afterPred (s.run.pa.raw + s.run.pa.last) s) :=
  exec_pred_adds hm hp.notStub (hp.diff_alone _ (optional_of_valid hl _) (optional_of_not_valid hll _))

theorem TwoFrameRule.exec_both (hp : TwoFrameRule p both) (hm : s.run.mode = .between)
    (hl : s.run.pa.valid.getLsbD 0 = true) (hll : s.run.pa.valid.getLsbD 1 = true) :
    exec (predCommandInstr p sg) s = .next (afterPred (s.run.pa.raw + both sg s.run.pa.last s.run.pa.llast) s) :=
  exec_pred_adds hm hp.notStub (hp.diff_both _ (optional_of_valid hl _) (optional_of_valid hll _))

end

/-- Settles O30: the rule of two frames at 32 bits, exact where a word has the value and `last` where none has. -/
theorem predStraightlineExtrapolates : Obligations.PredStraightlineExtrapolates := by
  refine ⟨rfl, decode_pred .straightline false, decode_pred .straightline true, fun s sg hm =>
    ⟨twoFrameRule_straightline.exec_absent hm, twoFrameRule_straightline.exec_alone hm, fun hl hll => ?_⟩⟩
  have hboth := twoFrameRule_straightline.exec_both (sg := sg) hm hl hll
  refine ⟨fun d hd => ?_, fun hnone => ?_⟩
  · rwa [diffStraightline_eq_of_val hd] at hboth
  · rwa [diffStraightline_eq_last (by decide) hnone] at hboth

/-- Settles O31: the rule of two frames at 32 bits, whose word always has the halved sum for its value. -/
theorem predAverage2HalvesTheExactSum : Obligations.PredAverage2HalvesTheExactSum :=
  ⟨rfl, decode_pred .average2 false, decode_pred .average2 true, fun _ _ hm =>
    ⟨twoFrameRule_average2.exec_absent hm, twoFrameRule_average2.exec_alone hm, fun hl hll =>
      ⟨_, val_diffAverage2 (by decide) _ _, twoFrameRule_average2.exec_both hm hl hll⟩⟩⟩

/-! ## Signedness (42 R158) -/

theorem TwoFrameRule.diff_signed {p : Pred} {both : Bool → Word → Word → Word} (hp : TwoFrameRule p both)
    (h : HeaderRegs) {o : PredOperands} (b : Bool) (hno : o.last = none ∨ o.llast = none) :
    diffOf p h { o with signed := b } = diffOf p h o := by
  rcases o.last.eq_none_or_eq_some with hl | ⟨a, hl⟩
  · exact (hp.diff_absent h (o := { o with signed := b }) hl).trans (hp.diff_absent h hl).symm
  · have hll : o.llast = none := hno.resolve_left (by simp [hl])
    exact (hp.diff_alone h (o := { o with signed := b }) hl hll).trans (hp.diff_alone h hl hll).symm

/-- The rules of the other predictors do not name the signedness. -/
theorem diffOf_signed {p : Pred} (hs : p ≠ .straightline) (ha : p ≠ .average2) (h : HeaderRegs) (o : PredOperands)
    (b : Bool) : diffOf p h { o with signed := b } = diffOf p h o := by
  cases p with
  | straightline => exact absurd rfl hs
  | average2 => exact absurd rfl ha
  | _ => rfl

theorem predict_signed_of_diffOf {p : Pred} {h : HeaderRegs} {o : PredOperands} {b : Bool}
    (hd : diffOf p h { o with signed := b } = diffOf p h o) : predict p h { o with signed := b } = predict p h o := by
  rw [predict, hd]
  rfl

/-- History operands for which the signedness matters in both rules: -1 and 1 signed, 2^32 - 1 and 1 unsigned. -/
def signSensitive (sg : Bool) : PredOperands :=
  { signed := sg, raw := 0, last := some 0xFFFFFFFF, llast := some 1, skip := 0, m0 := none }

theorem predict_signSensitive {p : Pred} (hp : p = .straightline ∨ p = .average2) (h : HeaderRegs) :
    predict p h (signSensitive true) ≠ predict p h (signSensitive false) := by
  rcases hp with rfl | rfl
  · show some (0 + 0xFFFFFFFD : Word) ≠ some (0 + 0xFFFFFFFF)
    decide
  · show some (0 + 0 : Word) ≠ some (0 + 0x80000000)
    decide

/-- Settles O36: by the predictor, and for the two rules of two frames by the operand that is absent; -1 and 1 are
operands for which it matters in both. -/
theorem signedMattersOnlyWithTwoFrames : Obligations.SignedMattersOnlyWithTwoFrames := by
  refine ⟨fun p h o b hcase => predict_signed_of_diffOf ?_, fun p hp =>
    ⟨State.reset.cfg.hdr, signSensitive true, predict_signSensitive hp _⟩⟩
  rcases hcase with ⟨hs, ha⟩ | hno
  · exact diffOf_signed hs ha h o b
  · by_cases hs : p = .straightline
    · exact hs ▸ twoFrameRule_straightline.diff_signed h b hno
    · by_cases ha : p = .average2
      · exact ha ▸ twoFrameRule_average2.diff_signed h b hno
      · exact diffOf_signed hs ha h o b

/-! ## The rules of at most one frame (42 R145, R146, R151, R153) -/

/-- Settles O28: their `diff` is a constant. -/
theorem predZeroAndFifteenhundred : Obligations.PredZeroAndFifteenhundred :=
  ⟨rfl, decode_pred .zero false, decode_pred .zero true, rfl, decode_pred .fifteenhundred false,
    decode_pred .fifteenhundred true, fun _ _ hm =>
      ⟨exec_pred_adds_zero (p := .zero) hm rfl, exec_pred_adds (p := .fifteenhundred) hm rfl rfl⟩⟩

/-- The number of an operand in the PA registers, 0 where it is absent. -/
theorem diffPrevious_optional (valid : Bool) (v : Word) :
    diffPrevious (optional valid v) = BitVec.ofNat 32 (if valid then v.toNat else 0) := by
  cases valid with
  | true => exact (ofNat_toNat_self v).symm
  | false => rfl

theorem diffIncrement_eq (skip : Word) (last : Option Word) : diffIncrement skip last = 1 + skip + diffPrevious last := by
  cases last with
  | some v => rfl
  | none => exact (BitVec.add_zero _).symm

/-- Settles O29: both add the number of the last operand, and a sum of words is the sum of their numbers modulo 2^32. -/
theorem predPreviousAndIncrement : Obligations.PredPreviousAndIncrement := by
  refine ⟨rfl, decode_pred .previous false, decode_pred .previous true, rfl, decode_pred .increment false,
    decode_pred .increment true, fun s sg hm => ?_⟩
  have hprevious : exec (.predPrevious sg) s =
      .next (afterPred (s.run.pa.raw + diffPrevious (optional (s.run.pa.valid.getLsbD 0) s.run.pa.last)) s) :=
    exec_pred_adds (p := .previous) hm rfl rfl
  have hincrement : exec (.predIncrement sg) s = .next (afterPred (s.run.pa.raw +
      diffIncrement s.run.pa.skip (optional (s.run.pa.valid.getLsbD 0) s.run.pa.last)) s) :=
    exec_pred_adds (p := .increment) hm rfl rfl
  rw [diffIncrement_eq, diffPrevious_optional] at hincrement
  rw [diffPrevious_optional] at hprevious
  simp only [BitVec.ofNat_add, ofNat_toNat_self]
  exact ⟨hprevious, hincrement⟩

/-! ## The rules that need an operand (42 R149, R150, R154, R156, R160) -/

theorem exec_pred_needs {p : Pred} {sg : Bool} {s : State} (hm : s.run.mode = .between) (hp : Pred.isStub p = false)
    {valid : Bool} {v : Word} (hd : diffOf p s.cfg.hdr (paOperands sg s.run.pa) = optional valid v) :
    (valid = true → exec (predCommandInstr p sg) s = .next (afterPred (s.run.pa.raw + v) s)) ∧
    (valid = false → exec (predCommandInstr p sg) s = .next (afterFatal s)) :=
  ⟨fun h => exec_pred_adds hm hp (hd.trans (optional_of_valid h v)),
    fun h => exec_pred_fatal hm (hd.trans (optional_of_not_valid h v))⟩

/-- Settles O33: each needs the constant behind its bit of HDR_VALID. -/
theorem predHeaderConstants : Obligations.PredHeaderConstants := by
  refine ⟨rfl, decode_pred .minthrottle false, decode_pred .minthrottle true, rfl, decode_pred .vbatref false,
    decode_pred .vbatref true, rfl, decode_pred .minmotor false, decode_pred .minmotor true, fun s sg hm => ?_⟩
  obtain ⟨hthrottle, hnoThrottle⟩ := exec_pred_needs (p := .minthrottle) (sg := sg) hm rfl rfl
  obtain ⟨hvbat, hnoVbat⟩ := exec_pred_needs (p := .vbatref) (sg := sg) hm rfl rfl
  obtain ⟨hmotor, hnoMotor⟩ := exec_pred_needs (p := .minmotor) (sg := sg) hm rfl rfl
  exact ⟨hthrottle, hnoThrottle, hvbat, hnoVbat, hmotor, hnoMotor⟩

/-- Settles O34: it needs the operand behind M0_V. -/
theorem predMotor0NeedsItsOperand : Obligations.PredMotor0NeedsItsOperand :=
  ⟨rfl, decode_pred .motor0 false, decode_pred .motor0 true, fun _ _ hm => exec_pred_needs (p := .motor0) hm rfl rfl⟩

/-! ## The stubs (42 R152, R155, R161) -/

theorem diagnose_homelat (s : State) : diagnose .homelat s = afterDiagnostic 0x80000007 s := rfl

theorem diagnose_lastmainframetime (s : State) : diagnose .lastmainframetime s = afterDiagnostic 0x8000000A s := rfl

/-- Settles O35: their `diff` is 0, and their diagnostic is written out. -/
theorem predStubsReportAndGoOn : Obligations.PredStubsReportAndGoOn := by
  refine ⟨rfl, decode_pred .homelat false, decode_pred .homelat true, rfl, decode_pred .lastmainframetime false,
    decode_pred .lastmainframetime true, fun s sg hm => ?_⟩
  rw [← diagnose_homelat, ← diagnose_lastmainframetime]
  exact ⟨exec_pred_adds_zero (p := .homelat) hm rfl, exec_pred_adds_zero (p := .lastmainframetime) hm rfl⟩

end Sys2Proof.Machine
end

section
/-! PROOFS. FRAME meets its reading (43 R173 to R179), and it is the run of the sequencer's single steps (43 R175, R176;
log 8). -/

namespace Sys2Proof.Machine

/-- Settles O37: what the field loop and the end of the frame leave is the result of the reading, with some leftovers in
CF. -/
theorem frameMeetsItsReading : Obligations.FrameMeetsItsReading := by
  intro s k hinv hm hn
  obtain ⟨_, cf, _, he⟩ := exec_frame_reading hinv hm hn
  exact ⟨cf, he⟩

/-- FRAME of a kind that is defined is the field loop from the state it enters (43 R173). -/
theorem exec_frame_defined {s : State} {k : Kind} (hm : s.run.mode = .between) (hn : s.cfg.nf.get k ≠ 0) :
    exec (.frame k) s = frameRuns (s.cfg.nf.get k).toNat (enterFrame k s) := by
  show execFrame k s = _
  rw [execFrame, whenBetween_admitted hm, if_neg hn]

/-! ## A step inside FRAME -/

theorem decode_encHalf_zext (b : Byte) : decode .encHalf (zext b) = (decodeDescriptor b).map Descriptor.encInstr := by
  rw [decode, zext, if_pos (high_setWidth (by decide) b), extractLsb'_setWidth (by decide)]

theorem decode_predHalf_zext (b : Byte) :
    decode .predHalf (zext b) = (decodeDescriptor b).map Descriptor.predInstr := by
  rw [decode, zext, if_pos (high_setWidth (by decide) b), extractLsb'_setWidth (by decide)]

section
variable {s t : State}

/-- With no raw words left a step is the decode of the run at FI, its faults included. -/
theorem step_eq_decodeStep (hm : s.run.mode = .inframe) (hraw : s.frame.raw = []) (hfi : s.frame.fi < s.frameNf) :
    step s = decodeStep s := by
  have hmore : ¬ (s.frame.raw = [] ∧ s.frameNf ≤ s.frame.fi) := fun hend => Nat.not_lt.mpr hend.2 hfi
  rw [step, fetch, if_pos hm, fetchFrame, if_neg hmore, frameSlot, slotIndex, if_pos hraw, if_pos hraw,
    decode_encHalf_zext, decodeStep, fetchDescriptor]
  cases decodeDescriptor (s.frameFd.read s.frame.fi) with
  | ok d => exact (exec_encInstr d s).trans (execEncHalf_eq d s).symm
  | error e => rfl

/-- With raw words left a step is the field step of the next field, its faults included. -/
theorem step_eq_predictStep (hm : s.run.mode = .inframe) (hraw : s.frame.raw ≠ []) : step s = predictStep s := by
  have hmore : ¬ (s.frame.raw = [] ∧ s.frameNf ≤ s.frame.fi) := fun hend => hraw hend.1
  rw [step, fetch, if_pos hm, fetchFrame, if_neg hmore, frameSlot, slotIndex, if_neg hraw, if_neg hraw,
    decode_predHalf_zext, predictStep, fetchDescriptor]
  cases decodeDescriptor (s.frameFd.read s.fieldIndex) with
  | ok d => exact (exec_predInstr d s).trans (execPredHalf_eq d s).symm
  | error e => rfl

/-- After the last field a step is the end of the frame. -/
theorem step_eq_closeFrame (hm : s.run.mode = .inframe) (hraw : s.frame.raw = []) (hfi : s.frameNf ≤ s.frame.fi) :
    step s = closeFrame s := by
  rw [step, fetch, if_pos hm, fetchFrame, if_pos ⟨hraw, hfi⟩]

/-! ## What the halves of a descriptor leave -/

/-- The next states of the decode of a run: a raw word for each of its fields, or the frame abandoned. -/
theorem decodeRun_next {e : Enc} (h : decodeRun e (decoderOf e) s = .next t) :
    s.run.mode = .inframe ∧ s.frame.fi < s.frameNf ∧
      ((∃ ws bp, 0 < ws.length ∧ s.frame.fi + ws.length ≤ s.frameNf ∧
        t = { setBp bp s with frame.raw := ws, frame.rj := 0 }) ∨
      ∃ x pos, t = afterAbandon x pos s.frame.fi s) := by
  by_cases hrun : s.run.mode = .inframe ∧ s.frame.raw = [] ∧ 0 < runLength e s.frameFd s.frameNf s.frame.fi
  · obtain ⟨hm, hraw, hpos⟩ := hrun
    obtain ⟨hmax, hnf⟩ := runLength_le e s.frameFd s.frameNf s.frame.fi
    refine ⟨hm, by omega, ?_⟩
    rcases decodeRun_inside (dec := decoderOf e) hm hraw hpos with ⟨ws, bp, hdec, he⟩ | ⟨x, pos, _, he⟩
    · have hlen := decoderOf_length hpos hmax hdec
      exact .inl ⟨ws, bp, by omega, by omega, Host.Outcome.next.inj (h.symm.trans he)⟩
    · exact .inr ⟨x, pos, Host.Outcome.next.inj (h.symm.trans he)⟩
  · rw [decodeRun, if_neg hrun] at h
    cases h

/-- The next states of a field step: the field's value in CF and the next field at hand, or the frame abandoned. -/
theorem fieldStep_next {p : Pred} {sg : Bool} {e : Enc} (h : fieldStep p sg e s = .next t) :
    s.run.mode = .inframe ∧ s.frame.rj < s.frame.raw.length ∧
      ((∃ v, t = { diagnose p s with run.cf := s.run.cf.write s.fieldIndex v, frame := nextField s.frame }) ∨
      t = afterAbandon .invalidHeaderReference s.run.bp.toNat s.fieldIndex s) := by
  by_cases hm : s.run.mode = .inframe
  · cases hraw : s.frame.raw[s.frame.rj]? with
    | some raw =>
      obtain ⟨hrj, _⟩ := List.getElem?_eq_some_iff.mp hraw
      refine ⟨hm, hrj, ?_⟩
      rcases fieldStep_inside (p := p) (sg := sg) (e := e) hm hraw with ⟨v, _, he⟩ | ⟨_, he⟩
      · exact .inl ⟨v, Host.Outcome.next.inj (h.symm.trans he)⟩
      · exact .inr (Host.Outcome.next.inj (h.symm.trans he))
    | none =>
      rw [fieldStep, if_pos hm, hraw] at h
      cases h
  · exact absurd h (fieldStep_outside hm)

theorem afterAbandon_not_inside (x : Exc) (pos i : Nat) (s : State) :
    (afterAbandon x pos i s).run.mode ≠ .inframe := by
  cases x <;> exact nofun

/-- A run that has been decoded: its raw words wait, FI stands at its first field. -/
theorem decodeStep_inside (h : decodeStep s = .next t) (ht : t.run.mode = .inframe) :
    t.cfg = s.cfg ∧ 0 < t.frame.raw.length ∧ s.frame.fi + t.frame.raw.length ≤ s.frameNf ∧
      t.frame = { s.frame with raw := t.frame.raw, rj := 0 } := by
  unfold decodeStep at h
  split at h
  next d _ =>
    rw [execEncHalf_eq] at h
    obtain ⟨_, _, ⟨ws, bp, hpos, hnf, rfl⟩ | ⟨x, pos, rfl⟩⟩ := decodeRun_next h
    · exact ⟨rfl, hpos, hnf, rfl⟩
    · exact absurd ht (afterAbandon_not_inside x pos s.frame.fi s)
  next => cases h

/-- A field that has been stepped: the next field is at hand. -/
theorem predictStep_inside (h : predictStep s = .next t) (ht : t.run.mode = .inframe) :
    t.cfg = s.cfg ∧ t.frame = nextField s.frame := by
  unfold predictStep at h
  split at h
  next d _ =>
    rw [execPredHalf_eq] at h
    obtain ⟨_, _, ⟨v, rfl⟩ | rfl⟩ := fieldStep_next h
    · exact ⟨diagnose_cfg d.pred s, rfl⟩
    · exact absurd ht (afterAbandon_not_inside _ _ _ s)
  next => cases h

theorem nextField_more {f : FrameState} (h : f.rj + 1 < f.raw.length) : nextField f = { f with rj := f.rj + 1 } :=
  if_pos h

theorem nextField_last {f : FrameState} (h : f.raw.length = f.rj + 1) :
    nextField f = { f with fi := f.fi + f.raw.length, raw := [], rj := 0 } := if_neg (by omega)

theorem predictRun_done (n : Nat) (h : s.run.mode ≠ .inframe) : predictRun n s = .next s := by
  cases n with
  | zero => rfl
  | succ n => exact if_neg h

/-- The fields of a run that have all been stepped: FI stands behind the run. -/
theorem predictRun_inside (n : Nat) : ∀ s : State, s.run.mode = .inframe →
    s.frame.raw.length = s.frame.rj + (n + 1) → predictRun (n + 1) s = .next t → t.run.mode = .inframe →
    t.cfg = s.cfg ∧ t.frame = { s.frame with fi := s.frame.fi + s.frame.raw.length, raw := [], rj := 0 } := by
  induction n with
  | zero =>
    intro s hm hlen h ht
    rw [predictRun, if_pos hm] at h
    obtain ⟨u, hstep, hu⟩ := andThen_eq_next h
    obtain rfl : u = t := Host.Outcome.next.inj hu
    obtain ⟨hcfg, hframe⟩ := predictStep_inside hstep ht
    exact ⟨hcfg, hframe.trans (nextField_last hlen)⟩
  | succ n ih =>
    intro s hm hlen h ht
    rw [predictRun, if_pos hm] at h
    obtain ⟨u, hstep, hrest⟩ := andThen_eq_next h
    by_cases hu : u.run.mode = .inframe
    · obtain ⟨hcfg, hframe⟩ := predictStep_inside hstep hu
      rw [nextField_more (by omega)] at hframe
      obtain ⟨hcfg', hframe'⟩ := ih u hu (by rw [hframe]; show s.frame.raw.length = s.frame.rj + 1 + (n + 1); omega)
        hrest ht
      exact ⟨hcfg'.trans hcfg, by rw [hframe', hframe]⟩
    · rw [predictRun_done _ hu] at hrest
      exact absurd (Host.Outcome.next.inj hrest ▸ ht) hu

end

/-! ## Runs of single steps -/

/-- A run goes on after a next state and ends with anything else. -/
theorem core_run_succ (M : Host.Core) (n : Nat) (s : M.State) :
    (∀ t, M.step s = .next t → M.run (n + 1) s = M.run n t) ∧
    (∀ r, M.step s = .fault r → M.run (n + 1) s = .fault r) ∧
    (∀ r, M.step s = .refused r → M.run (n + 1) s = .refused r) := by
  refine ⟨fun t h => ?_, fun r h => ?_, fun r h => ?_⟩ <;> rw [Host.Core.run, h]

/-- The run of the machine for `n` single steps, over the model's own names of its types. -/
def runSteps (n : Nat) (s : State) : Out := Host.Core.run Sys2Proof.core n s

theorem runSteps_zero (s : State) : runSteps 0 s = .next s := rfl

theorem runSteps_succ (n : Nat) (s : State) : runSteps (n + 1) s = andThen (step s) (runSteps n) := by
  obtain ⟨hnext, hfault, hrefused⟩ := core_run_succ Sys2Proof.core n s
  cases h : step s with
  | next t => exact hnext t h
  | fault r => exact hfault r h
  | refused r => exact hrefused r h

theorem andThen_assoc (o : Out) (f g : State → Out) :
    andThen (andThen o f) g = andThen o fun t => andThen (f t) g := by
  cases o <;> rfl

theorem runSteps_add (n m : Nat) (s : State) : runSteps (n + m) s = andThen (runSteps n s) (runSteps m) := by
  induction n generalizing s with
  | zero => rw [Nat.zero_add, runSteps_zero, andThen]
  | succ n ih =>
    have hrest : runSteps (n + m) = fun t => andThen (runSteps n t) (runSteps m) := funext ih
    rw [Nat.add_right_comm, runSteps_succ, runSteps_succ, andThen_assoc, hrest]

/-- The outcome is that of at most `m` single steps. -/
def RunsWithin (m : Nat) (s : State) (o : Out) : Prop := ∃ n, n ≤ m ∧ runSteps n s = o

theorem RunsWithin.mono {a b : Nat} {s : State} {o : Out} (h : RunsWithin a s o) (hle : a ≤ b) : RunsWithin b s o := by
  obtain ⟨n, hn, hrun⟩ := h
  exact ⟨n, hn.trans hle, hrun⟩

theorem runsWithin_none (m : Nat) (s : State) : RunsWithin m s (.next s) := ⟨0, Nat.zero_le m, rfl⟩

/-- Steps after steps; a fault ends the run. -/
theorem runsWithin_andThen {a b : Nat} {s : State} {o : Out} {f : State → Out} (h : RunsWithin a s o)
    (hf : ∀ t, o = .next t → RunsWithin b t (f t)) : RunsWithin (a + b) s (andThen o f) := by
  obtain ⟨n, hn, hrun⟩ := h
  cases o with
  | next t =>
    obtain ⟨m, hm, hrest⟩ := hf t rfl
    exact ⟨n + m, Nat.add_le_add hn hm, by rw [runSteps_add, hrun]; exact hrest⟩
  | fault _ | refused _ => exact ⟨n, Nat.le_add_right_of_le hn, hrun⟩

theorem runsWithin_step {s : State} {o : Out} (h : step s = o) : RunsWithin 1 s o := by
  refine ⟨1, le_refl 1, ?_⟩
  rw [runSteps_succ, h]
  cases o <;> rfl

/-- The field steps of a run are one step for each field. -/
theorem predictRun_runs (n : Nat) : ∀ s : State, s.run.mode = .inframe →
    s.frame.rj + n ≤ s.frame.raw.length → RunsWithin n s (predictRun n s) := by
  induction n with
  | zero => exact fun s _ _ => runsWithin_none 0 s
  | succ n ih =>
    intro s hm hlen
    have hraw : s.frame.raw ≠ [] := List.ne_nil_of_length_pos (by omega)
    rw [predictRun, if_pos hm, Nat.add_comm]
    refine runsWithin_andThen (runsWithin_step (step_eq_predictStep hm hraw)) fun t ht => ?_
    by_cases htm : t.run.mode = .inframe
    · obtain ⟨_, hframe⟩ := predictStep_inside ht htm
      refine ih t htm ?_
      by_cases hmore : s.frame.rj + 1 < s.frame.raw.length
      · rw [hframe, nextField_more hmore]
        show s.frame.rj + 1 + n ≤ s.frame.raw.length
        omega
      · rw [hframe, nextField_last (by omega)]
        show 0 + n ≤ 0
        omega
    · rw [predictRun_done n htm]
      exact runsWithin_none n t

/-- A run of r fields is one step to decode it and one for each field, or fewer where it is broken off; unless it is, FI
stands behind it. -/
theorem runStep_runs {s : State} (hm : s.run.mode = .inframe) (hraw : s.frame.raw = []) (hfi : s.frame.fi < s.frameNf) :
    ∃ r, 1 ≤ r ∧ s.frame.fi + r ≤ s.frameNf ∧ RunsWithin (1 + r) s (runStep s) ∧
      ∀ u, runStep s = .next u → u.run.mode = .inframe →
        u.frame.raw = [] ∧ u.frame.fi = s.frame.fi + r ∧ u.frameNf = s.frameNf := by
  have hdecode : RunsWithin 1 s (decodeStep s) := runsWithin_step (step_eq_decodeStep hm hraw hfi)
  by_cases hin : ∃ t, decodeStep s = .next t ∧ t.run.mode = .inframe
  · obtain ⟨t, ht, htm⟩ := hin
    obtain ⟨hcfg, hpos, hnf, hframe⟩ := decodeStep_inside ht htm
    have hrj : t.frame.rj = 0 := by rw [hframe]
    have hrun : runStep s = predictRun t.frame.raw.length t := by rw [runStep, ht, andThen]
    refine ⟨t.frame.raw.length, hpos, hnf, runsWithin_andThen hdecode fun v hv => ?_, fun u hu hum => ?_⟩
    · obtain rfl : t = v := Host.Outcome.next.inj (ht.symm.trans hv)
      exact predictRun_runs _ t htm (by omega)
    · obtain ⟨r, hr⟩ : ∃ r, t.frame.raw.length = r + 1 := ⟨t.frame.raw.length - 1, by omega⟩
      rw [hrun, hr] at hu
      obtain ⟨hcfg', hframe'⟩ := predictRun_inside r t htm (by omega) hu hum
      refine ⟨by rw [hframe'], by rw [hframe', hframe], ?_⟩
      rw [State.frameNf, State.frameNf, hcfg', hcfg, hframe', hframe]
  · have hstop : runStep s = decodeStep s := by
      rw [runStep]
      cases ht : decodeStep s with
      | next t => exact predictRun_done _ fun htm => hin ⟨t, ht, htm⟩
      | fault _ | refused _ => rfl
    exact ⟨1, le_refl 1, hfi, hstop ▸ hdecode.mono (by decide), fun u hu hum => absurd ⟨u, hstop ▸ hu, hum⟩ hin⟩

/-- The field loop is one step for each run, one for each field and one to finish: a run has a field or more, so twice
the number of fields left bounds the first two. -/
theorem frameRuns_runs (n : Nat) : ∀ s : State, s.run.mode = .inframe → s.frame.raw = [] →
    s.frameNf - s.frame.fi ≤ n → RunsWithin (2 * (s.frameNf - s.frame.fi) + 1) s (frameRuns n s) := by
  have hclose : ∀ s : State, s.run.mode = .inframe → s.frame.raw = [] → s.frameNf ≤ s.frame.fi →
      RunsWithin (2 * (s.frameNf - s.frame.fi) + 1) s (closeFrame s) := fun s hm hraw hfi =>
    (runsWithin_step (step_eq_closeFrame hm hraw hfi)).mono (by omega)
  induction n with
  | zero => exact fun s hm hraw hn => hclose s hm hraw (by omega)
  | succ n ih =>
    intro s hm hraw hn
    rw [frameRuns]
    by_cases hfi : s.frame.fi < s.frameNf
    · rw [if_pos ⟨hm, hfi⟩]
      obtain ⟨r, hr, hnf, hrun, hbehind⟩ := runStep_runs hm hraw hfi
      have hbound : 1 + r + (2 * (s.frameNf - (s.frame.fi + r)) + 1) ≤ 2 * (s.frameNf - s.frame.fi) + 1 := by omega
      refine (runsWithin_andThen hrun fun u hu => ?_).mono hbound
      by_cases hum : u.run.mode = .inframe
      · obtain ⟨hraw', hfi', hnf'⟩ := hbehind u hu hum
        rw [← hfi', ← hnf']
        exact ih u hum hraw' (by omega)
      · rw [frameRuns_done n hum]
        exact runsWithin_none _ u
    · rw [if_neg fun hin => hfi hin.2]
      exact hclose s hm hraw (by omega)

/-- Settles O38: the field loop from the state that FRAME enters, with all fields left. -/
theorem frameIsTheRunOfItsSteps : Obligations.FrameIsTheRunOfItsSteps := by
  intro s k _ hm hn
  rw [exec_frame_defined hm hn]
  exact frameRuns_runs _ (enterFrame k s) rfl rfl (Nat.sub_le _ _)

end Sys2Proof.Machine
end

section
/-! PROOFS. How a FRAME ends, in whatever state it is called: the commit or the abandonment, and what each leaves
(43 R178, R179; 60 R207). -/

namespace Sys2Proof.Machine

/-! ## From the field loop to its end -/

/-- A state of FRAME k entered from s, with the fields of the run at hand inside the definition. -/
def InsideFrame (k : Kind) (s u : State) : Prop :=
  ∃ stubs bp cf fi raw rj, u = midFrame k s stubs bp cf fi raw rj ∧ fi + raw.length ≤ (s.cfg.nf.get k).toNat

/-- A state of FRAME k that an exception has left, at a field of the definition or behind the last. -/
def FrameAbandoned (k : Kind) (s t : State) : Prop :=
  ∃ x pos i stubs cf, i ≤ (s.cfg.nf.get k).toNat ∧
    t = { badFrame k x pos i stubs s with run.cf := cf, frame := FrameState.idle }

/-- A state that the commit of FRAME k has left. -/
def FrameCommitted (k : Kind) (s t : State) : Prop := ∃ u, InsideFrame k s u ∧ t = commit u

section
variable {k : Kind} {s t u : State}

theorem insideFrame_enterFrame (k : Kind) (s : State) : InsideFrame k s (enterFrame k s) :=
  ⟨_, _, _, _, _, _, enterFrame_eq_midFrame k s, Nat.zero_le _⟩

theorem InsideFrame.mode (h : InsideFrame k s u) : u.run.mode = .inframe := by
  obtain ⟨_, _, _, _, _, _, rfl, _⟩ := h
  rfl

theorem InsideFrame.frameNf_eq (h : InsideFrame k s u) : u.frameNf = (s.cfg.nf.get k).toNat := by
  obtain ⟨_, _, _, _, _, _, rfl, _⟩ := h
  rw [State.frameNf, midFrame_frame, midFrame_cfg]

theorem InsideFrame.abandon {i : Nat} (h : InsideFrame k s u) (x : Exc) (pos : Nat) (hi : i ≤ (s.cfg.nf.get k).toNat) :
    FrameAbandoned k s (afterAbandon x pos i u) := by
  obtain ⟨stubs, _, cf, _, _, _, rfl, _⟩ := h
  exact ⟨x, pos, i, stubs, cf, hi, midFrame_abandon ..⟩

theorem FrameAbandoned.not_inside (h : FrameAbandoned k s t) : t.run.mode ≠ .inframe := by
  obtain ⟨x, pos, i, stubs, _, _, rfl⟩ := h
  exact badFrame_not_inside k x pos i stubs s

theorem InsideFrame.after_decodeRun {e : Enc} (hu : InsideFrame k s u) (h : decodeRun e (decoderOf e) u = .next t) :
    InsideFrame k s t ∨ FrameAbandoned k s t := by
  obtain ⟨_, hfi, ⟨ws, bp', _, hlen, rfl⟩ | ⟨x, pos, rfl⟩⟩ := decodeRun_next h
  · rw [hu.frameNf_eq] at hlen
    obtain ⟨stubs, bp, cf, fi, raw, rj, rfl, _⟩ := hu
    exact .inl ⟨stubs, bp', cf, fi, ws, 0, rfl, hlen⟩
  · exact .inr (hu.abandon x pos (hu.frameNf_eq ▸ hfi.le))

theorem InsideFrame.after_fieldStep {p : Pred} {sg : Bool} {e : Enc} (hu : InsideFrame k s u)
    (h : fieldStep p sg e u = .next t) : InsideFrame k s t ∨ FrameAbandoned k s t := by
  obtain ⟨_, hrj, hnext⟩ := fieldStep_next h
  have habandon := hu.abandon (i := u.fieldIndex) .invalidHeaderReference u.run.bp.toNat
  obtain ⟨stubs, bp, cf, fi, raw, rj, rfl, hlen⟩ := hu
  have hrj : rj < raw.length := hrj
  rcases hnext with ⟨v, rfl⟩ | rfl
  · rw [midFrame_diagnose]
    by_cases hmore : rj + 1 < raw.length
    · rw [nextField_more hmore]
      exact .inl ⟨stubs ++ stubOf p, bp, _, fi, raw, rj + 1, rfl, hlen⟩
    · rw [nextField_last (by show raw.length = rj + 1; omega)]
      exact .inl ⟨stubs ++ stubOf p, bp, _, fi + raw.length, [], 0, rfl, hlen⟩
  · refine .inr (habandon ?_)
    show fi + rj ≤ _
    omega

theorem InsideFrame.after_finish (hu : InsideFrame k s u) :
    FrameCommitted k s (finishFrame u) ∨ FrameAbandoned k s (finishFrame u) := by
  rw [finishFrame]
  split
  · exact .inl ⟨u, hu, rfl⟩
  · rw [takeException_inside hu.mode]
    exact .inr (hu.abandon _ _ hu.frameNf_eq.le)

/-- The two ends of a FRAME that is admitted. -/
theorem frame_ends (hm : s.run.mode = .between) (hn : s.cfg.nf.get k ≠ 0) (h : exec (.frame k) s = .next t) :
    FrameCommitted k s t ∨ FrameAbandoned k s t := by
  rw [exec_frame_defined hm hn] at h
  refine frameRuns_keeps (P := fun u => InsideFrame k s u ∨ FrameAbandoned k s u)
    (Q := fun u => FrameCommitted k s u ∨ FrameAbandoned k s u) (fun e u v hu hv => ?_)
    (fun p sg e u v hu hv => ?_) (fun u hu hum => ?_) (fun u hu hum => ?_) _ _ t (.inl (insideFrame_enterFrame k s)) h
  · rcases hu with hu | hu
    · exact hu.after_decodeRun hv
    · exact absurd hv (decodeRun_outside hu.not_inside)
  · rcases hu with hu | hu
    · exact hu.after_fieldStep hv
    · exact absurd hv (fieldStep_outside hu.not_inside)
  · exact (hu.resolve_right fun ha => ha.not_inside hum).after_finish
  · exact .inr (hu.resolve_left fun hin => hum hin.mode)

end

/-! ## ERRFI (10 R27) -/

theorem toNat_errFiWord (k : Kind) (i : Nat) :
    (errFiWord true k i).toNat = 2 ^ 31 + k.code.toNat * 2 ^ 16 + i % 2 ^ 16 := by
  have hzero : (0 : BitVec 13).toNat = 0 := rfl
  have hone : (BitVec.ofBool true).toNat = 1 := rfl
  rw [errFiWord, toNat_append_eq_add, toNat_append_eq_add, toNat_append_eq_add, BitVec.toNat_ofNat, hzero, hone]
  omega

theorem errFiWord_inFrame (k : Kind) (i : Nat) : (errFiWord true k i).getLsbD 31 = true := by
  have hk := code_lt k
  rw [← BitVec.testBit_toNat, toNat_errFiWord, Nat.testBit_eq_decide_div_mod_eq, decide_eq_true_iff]
  omega

theorem errFiWord_kind (k : Kind) (i : Nat) : (errFiWord true k i).extractLsb' 16 2 = k.code := by
  apply BitVec.eq_of_toNat_eq
  have hk := code_lt k
  rw [toNat_field, toNat_errFiWord]
  omega

theorem errFiWord_index_le (k : Kind) (i : Nat) : ((errFiWord true k i).extractLsb' 0 16).toNat ≤ i := by
  have hk := code_lt k
  have hle := Nat.mod_le i (2 ^ 16)
  rw [toNat_field, toNat_errFiWord]
  omega

/-! ## What each end leaves -/

section
variable {k : Kind} {s t : State}

theorem exception_err_ne_none (x : Exc) : x.err ≠ .none := by cases x <;> exact nofun

theorem FrameCommitted.err (h : FrameCommitted k s t) : t.run.status.err = .none := by
  obtain ⟨u, _, rfl⟩ := h
  rfl

theorem FrameAbandoned.err (h : FrameAbandoned k s t) : t.run.status.err ≠ .none := by
  obtain ⟨x, _, _, _, _, _, rfl⟩ := h
  exact exception_err_ne_none x

/-- A FRAME that is not admitted or whose kind is not defined does not complete (43 R173). -/
theorem frame_committed_of_completed (h : exec (.frame k) s = .next t) (herr : t.run.status.err = .none) :
    FrameCommitted k s t := by
  by_cases hm : s.run.mode = .between
  · by_cases hn : s.cfg.nf.get k = 0
    · rw [exec_frame_undefined hm hn, Host.Outcome.next.injEq] at h
      subst h
      cases herr
    · exact (frame_ends hm hn h).resolve_right fun ha => ha.err herr
  · have hrefused : exec (.frame k) s = .next (afterIllegal s) := whenBetween_refused hm _
    rw [hrefused, Host.Outcome.next.injEq] at h
    subst h
    cases herr

end

/-- Settles O39: the commit of a state inside the frame, in which all that the commit reads but CF and BP is as it was
before. -/
theorem frameCommitWritesHistoryAndEvent : Obligations.FrameCommitWritesHistoryAndEvent := by
  intro s t k hst hexec herr
  obtain ⟨u, ⟨stubs, bp, cf, fi, raw, rj, rfl, _⟩, rfl⟩ := frame_committed_of_completed hexec herr
  rw [midFrame, frameTraces_keeps]
  simp only [commit, State.frameNf, PerKind.get_set_same, pushHistory, Cells.read_copy (hst.last_wf k),
    Cells.read_copy (hst.llast_wf k), Cells.read_copy hst.evVal_wf, true_and, and_true]
  refine ⟨fun i hi => ⟨if_pos hi, if_pos hi, if_pos hi⟩, rfl, fun k' hk => ?_⟩
  exact ⟨PerKind.get_set_other _ _ hk, PerKind.get_set_other _ _ hk, PerKind.get_set_other _ _ hk⟩

/-- Settles O40: by the end of the frame, and by whether the exception is fatal. -/
theorem frameAbandonRestoresTheCursor : Obligations.FrameAbandonRestoresTheCursor := by
  intro s t k hm hn hexec herr
  obtain ⟨x, pos, i, stubs, cf, hi, rfl⟩ := (frame_ends hm hn hexec).resolve_left fun hc => herr hc.err
  rw [badFrame, frameTraces_keeps]
  refine ⟨rfl, rfl, rfl, rfl, rfl, rfl, rfl, rfl, errFiWord_inFrame k i, errFiWord_kind k i,
    (errFiWord_index_le k i).trans hi, ?_, rfl, rfl, rfl, rfl, rfl, rfl⟩
  cases x with
  | endOfData => exact .inl ⟨.inl rfl, rfl, rfl, rfl⟩
  | malformedFrame => exact .inl ⟨.inr rfl, rfl, rfl, rfl⟩
  | invalidHeaderReference => exact .inr ⟨rfl, rfl, rfl, rfl⟩

end Sys2Proof.Machine
end

section
/-! PROOFS. FRAME over NULL fields (43 R173; 41 R131): no bits are read and no descriptor raises, at any BP. -/

namespace Sys2Proof.Machine

section
variable {k : Kind} {s : State} {stubs : List Pred} {bp fi : Nat} {cf : Cells 32} {d : Descriptor}

/-- NULL fields are runs of one field (30 R81). -/
theorem runLength_null {fd : Cells 8} {nf : Nat} (hfi : fi < nf) (hd : decodeDescriptor (fd.read fi) = .ok d)
    (hnull : d.enc = .null) : runLength .null fd nf fi = 1 := by
  have hpos := runLength_pos hfi ((hasEnc_of_decode hd .null).trans (decide_eq_true hnull))
  obtain ⟨hmax, _⟩ := runLength_le .null fd nf fi
  exact le_antisymm hmax hpos

/-- The decode of a NULL field: the raw word 0, and BP stays. -/
theorem decodeStep_null (hb : bp < 2 ^ 35) (hfi : fi < (s.cfg.nf.get k).toNat)
    (hd : decodeDescriptor ((s.cfg.fd.get k).read fi) = .ok d) (hnull : d.enc = .null) :
    decodeStep (midFrame k s stubs bp cf fi [] 0) = .next (midFrame k s stubs bp cf fi [0] 0) := by
  have hrun := runLength_null hfi hd hnull
  simp only [decodeStep, fetchDescriptor, State.frameFd, midFrame_frame, midFrame_cfg, hd, execEncHalf_eq, hnull,
    decodeRun, State.frameNf, midFrame_mode, midFrame_bp, toNat_bitAddr hb, hrun, true_and, if_pos Nat.one_pos]
  rfl

/-- The field step of a run of one field whose predictor does not raise. -/
theorem predictStep_single {raw v : Word} (hd : decodeDescriptor ((s.cfg.fd.get k).read fi) = .ok d)
    (hv : predict d.pred s.cfg.hdr
      (fieldOperands (midFrame k s stubs bp cf fi [raw] 0) d.enc d.sg fi raw) = some v) :
    predictStep (midFrame k s stubs bp cf fi [raw] 0) =
      .next (midFrame k s (stubs ++ stubOf d.pred) bp (cf.write fi v) (fi + 1) [] 0) := by
  have hi : State.fieldIndex (midFrame k s stubs bp cf fi [raw] 0) = fi := rfl
  have hraw : (midFrame k s stubs bp cf fi [raw] 0).frame.raw[(midFrame k s stubs bp cf fi [raw] 0).frame.rj]? =
      some raw := rfl
  simp only [predictStep, fetchDescriptor, State.frameFd, hi, midFrame_frame, midFrame_cfg, hd, execPredHalf_eq]
  rw [fieldStep, if_pos (midFrame_mode ..), hraw]
  simp only [hi, midFrame_cfg, hv, midFrame_diagnose]
  simp [midFrame, nextField]

/-- Every other predictor than the four of 42 R160 has a value. -/
theorem predict_isSome {p : Pred} (hthrottle : p ≠ .minthrottle) (hmotor0 : p ≠ .motor0) (hvbat : p ≠ .vbatref)
    (hminmotor : p ≠ .minmotor) (h : HeaderRegs) (o : PredOperands) : ∃ v, predict p h o = some v := by
  cases hv : predict p h o with
  | some v => exact ⟨v, rfl⟩
  | none =>
    rcases predict_eq_none hv with ⟨hp, _⟩ | ⟨hp, _⟩ | ⟨hp, _⟩ | ⟨hp, _⟩
    · exact absurd hp hthrottle
    · exact absurd hp hmotor0
    · exact absurd hp hvbat
    · exact absurd hp hminmotor

/-- A field that consumes nothing and cannot raise: NULL, with a predictor that needs no operand. -/
def HarmlessField (b : Byte) : Prop :=
  ∃ d : Descriptor, decodeDescriptor b = .ok d ∧
    d.enc = .null ∧ d.pred ≠ .minthrottle ∧ d.pred ≠ .motor0 ∧ d.pred ≠ .vbatref ∧ d.pred ≠ .minmotor

/-- The run of such a field moves FI on by one and leaves BP. -/
theorem runStep_harmless (hb : bp < 2 ^ 35) (hfi : fi < (s.cfg.nf.get k).toNat)
    (hfield : HarmlessField ((s.cfg.fd.get k).read fi)) :
    ∃ stubs' cf', runStep (midFrame k s stubs bp cf fi [] 0) = .next (midFrame k s stubs' bp cf' (fi + 1) [] 0) := by
  obtain ⟨d, hd, hnull, hthrottle, hmotor0, hvbat, hminmotor⟩ := hfield
  obtain ⟨v, hv⟩ := predict_isSome hthrottle hmotor0 hvbat hminmotor s.cfg.hdr
    (fieldOperands (midFrame k s stubs bp cf fi [0] 0) d.enc d.sg fi 0)
  refine ⟨stubs ++ stubOf d.pred, cf.write fi v, ?_⟩
  rw [runStep, decodeStep_null hb hfi hd hnull]
  show predictRun 1 (midFrame k s stubs bp cf fi [0] 0) = _
  rw [predictRun, if_pos (midFrame_mode ..), predictStep_single hd hv]
  rfl

/-- The field loop over such fields ends in the end of the frame, with BP where it was. -/
theorem frameRuns_harmless (hb : bp < 2 ^ 35)
    (hfields : ∀ i < (s.cfg.nf.get k).toNat, HarmlessField ((s.cfg.fd.get k).read i)) (n : Nat) :
    ∀ (stubs : List Pred) (cf : Cells 32) (fi : Nat), (s.cfg.nf.get k).toNat - fi ≤ n →
      ∃ stubs' cf' fi', frameRuns n (midFrame k s stubs bp cf fi [] 0) =
        closeFrame (midFrame k s stubs' bp cf' fi' [] 0) := by
  induction n with
  | zero => exact fun stubs cf fi _ => ⟨stubs, cf, fi, rfl⟩
  | succ n ih =>
    intro stubs cf fi hn
    by_cases hfi : fi < (s.cfg.nf.get k).toNat
    · obtain ⟨stubs', cf', hrun⟩ := runStep_harmless (stubs := stubs) (cf := cf) hb hfi (hfields fi hfi)
      obtain ⟨stubs'', cf'', fi'', hrest⟩ := ih stubs' cf' (fi + 1) (by omega)
      refine ⟨stubs'', cf'', fi'', ?_⟩
      rw [frameRuns, if_pos ⟨midFrame_mode .., by simpa [State.frameNf] using hfi⟩, hrun]
      exact hrest
    · exact ⟨stubs, cf, fi, if_neg fun hin => hfi (by simpa [State.frameNf] using hin.2)⟩

end

/-- Settles O41: the field loop leaves BP, and the end of the frame is the commit. -/
theorem nullFrameConsumesNothingAndCommits : Obligations.NullFrameConsumesNothingAndCommits := by
  intro s k hm hn hplausible hfields
  obtain ⟨stubs, cf, fi, hruns⟩ :=
    frameRuns_harmless s.run.bp.isLt hfields _ [] s.run.cf 0 (Nat.sub_le (s.cfg.nf.get k).toNat 0)
  have hgood : plausible (midFrame k s stubs s.run.bp.toNat cf fi [] 0) = true := by
    rw [plausible, midFrame_params, hplausible]
  rw [exec_frame_defined hm hn, enterFrame_eq_midFrame, hruns, closeFrame, if_pos (midFrame_mode ..), finishFrame,
    if_pos hgood, midFrame, frameTraces_keeps]
  exact ⟨_, rfl, by rw [commit_run_bp, BitVec.ofNat_toNat, BitVec.setWidth_eq], rfl, rfl⟩

end Sys2Proof.Machine
end

section
/-! PROOFS. Runs (43 R174), and the field step of each field of a run (43 R176). -/

namespace Sys2Proof.Machine

/-! ## Runs -/

/-- The run that the sequencer counts has all that 43 R174 asks of one. -/
theorem runIs_runLength {e : Enc} {fd : Cells 8} {nf i : Nat} (hi : i < nf) (he : hasEnc e (fd.read i) = true) :
    RunIs fd nf i e (runLength e fd nf i) := by
  obtain ⟨hmax, hnf⟩ := runLength_le e fd nf i
  obtain ⟨_, hall, hstop⟩ := countEnc_spec e fd (min e.maxChunk (nf - i)) i
  refine ⟨runLength_pos hi he, hmax, by omega, fun j hj => (hasEnc_iff e _).mp (hall j hj), fun hlt hin hother => ?_⟩
  have hnot : hasEnc e (fd.read (i + runLength e fd nf i)) = false := hstop (by rw [← runLength]; omega)
  rw [(hasEnc_iff e _).mpr hother] at hnot
  cases hnot

/-- Where every field left has one encoding, the run is MAXCHUNK of them or all that are left. -/
theorem runIs_of_uniform {e : Enc} {fd : Cells 8} {nf i : Nat} (hi : i < nf)
    (hall : ∀ j < nf, (fd.read j).toNat / 16 % 8 = e.code.toNat) :
    RunIs fd nf i e (min e.maxChunk (nf - i)) := by
  have hchunk : 1 ≤ e.maxChunk := by cases e <;> decide
  exact ⟨by omega, by omega, by omega, fun j hj => hall _ (by omega), fun hlt hin => by omega⟩

/-- Settles O42: the sequencer's count is a run, every run is that count, and the two examples are runs of uniform
definitions. -/
theorem runsAreGreedy : Obligations.RunsAreGreedy :=
  ⟨fun e _ _ _ hi he => runIs_runLength hi ((hasEnc_iff e _).mpr he),
    fun _ _ _ _ _ _ hn hm => (runLength_of_runIs hn).symm.trans (runLength_of_runIs hm),
    fun _ hall => ⟨runIs_of_uniform (e := .tagvar) (by decide) hall, runIs_of_uniform (e := .tagvar) (by decide) hall⟩,
    fun _ hall => ⟨runIs_of_uniform (e := .tag16) (by decide) hall, runIs_of_uniform (e := .tag16) (by decide) hall⟩⟩

/-! ## The field step -/

/-- The rule of the predictor over the sequencer's operands, from the registers they come from. -/
theorem diffOf_fieldOperands (s : State) (d : Descriptor) (i : Nat) (raw : Word) :
    diffOf d.pred s.cfg.hdr (fieldOperands s d.enc d.sg i raw) = fieldDiff s d i := by
  have hprevious : ∀ valid v, diffPrevious (optional valid v) = if valid then v else 0 := fun valid v => by
    cases valid <;> rfl
  obtain ⟨sg, e, p⟩ := d
  cases p with
  | previous => exact congrArg some (hprevious _ _)
  | increment => exact congrArg some ((diffIncrement_eq _ _).trans (congrArg _ (hprevious _ _)))
  | _ => rfl

/-- What a predictor leaves in the diagnostic registers, stub by stub (42 R152, R155, R161). -/
theorem diagnose_eq (p : Pred) (s : State) :
    diagnose p s = if p = .homelat then afterDiagnostic 0x80000007 s
      else if p = .lastmainframetime then afterDiagnostic 0x8000000A s else s := by
  cases p <;> rfl

/-- Settles O45: the field step adds the rule's `diff` to the raw word, or takes the fatal exception. -/
theorem predictorHalvesStepTheField : Obligations.PredictorHalvesStepTheField := by
  intro s d raw hm hraw i t
  have ht : diagnose d.pred s = t := diagnose_eq d.pred s
  have hpredict : predict d.pred s.cfg.hdr (fieldOperands s d.enc d.sg i raw) =
      (fieldDiff s d i).map fun df => raw + df := by
    rw [predict, diffOf_fieldOperands]
    rfl
  rw [exec_predInstr, ← ht]
  rcases fieldStep_inside (p := d.pred) (sg := d.sg) (e := d.enc) hm hraw with ⟨v, hv, he⟩ | ⟨hv, he⟩
  · refine ⟨fun df hdf => ?_, fun hdf => ?_⟩
    · obtain rfl : raw + df = v := Option.some.inj ((hdf ▸ hpredict).symm.trans hv)
      exact he
    · cases (hdf ▸ hpredict).symm.trans hv
  · refine ⟨fun df hdf => ?_, fun hdf => he⟩
    cases (hdf ▸ hpredict).symm.trans hv

end Sys2Proof.Machine
end

section
/-! PROOFS. The system commands END and RESET (43 R182, R183): the mode that a command needs, and what every register
reads as after a reset (70 R230). -/

namespace Sys2Proof.Machine

/-! ## The mode check (30 R76 check 5) -/

/-- The mode that a command other than RESET needs: CONFIG for START, BETWEEN for the rest. -/
def neededMode (i : Instr) : Mode := if i = .start then .config else .between

section
variable {s : State}

theorem countedRead_refused (hm : s.run.mode ≠ .between) (n : BitVec 6) (r : Rd Word) :
    (if n.toNat ≤ 32 then bitCommand s r else .next (illegalCommand s)) = .next (afterIllegal s) := by
  split
  · exact whenBetween_refused hm _
  · rfl

theorem decCommand_refused (hm : s.run.mode ≠ .between) (e : Enc) (want : BitVec 4)
    (dec : Stream → Nat → Nat → Rd (List Word)) : decCommand e want s dec = .next (afterIllegal s) := by
  unfold decCommand
  split
  · exact whenBetween_refused hm _
  · rfl

/-- A command in a mode other than its own is IllegalCommand, whatever its operands (60 R204). -/
theorem exec_refused {i : Instr} (hslot : i.slot = .command) (hreset : i ≠ .reset)
    (hm : s.run.mode ≠ neededMode i) : exec i s = .next (afterIllegal s) := by
  cases i with
  | start => exact if_neg hm
  | reset => exact absurd rfl hreset
  | rdbits n | rdabits n => exact countedRead_refused hm n _
  | decSvar want | decUvar want | decNeg14 want | decTagvar want | decTag32 want | decTag16 want | decNull want =>
    exact decCommand_refused hm _ want _
  | endStream | rduvar | rdsvar | align | predZero | predPrevious | predStraightline | predAverage2 | predMinthrottle
  | predMotor0 | predIncrement | predHomelat | predFifteenhundred | predVbatref | predLastmainframetime | predMinmotor
  | frame => exact whenBetween_refused hm _
  | _ => cases hslot

end

/-- Settles O10: END in BETWEEN, and the mode check in EOS, which is no command's own mode. -/
theorem endStopsTheStream : Obligations.EndStopsTheStream := by
  refine ⟨decodeOfEncodeIsTheInstruction .endStream rfl, fun s => ⟨fun hm => whenBetween_admitted hm _,
    fun hm => whenBetween_refused hm _, fun i hm hslot hreset => exec_refused hslot hreset ?_,
    fun r rest hm hp => step_read (by simp [hm]) hp⟩⟩
  rw [hm, neededMode]
  split <;> exact nofun

/-! ## Reset values (70 R230) -/

/-- STATUS has one number at every NFMAX. -/
theorem regOf_status {m n : Nat} (h : regOf m n = some .status) : n = 1 := by
  rcases regOf_cases h with ⟨_, h⟩ | ⟨_, _, h⟩ | ⟨_, _, h⟩ | ⟨_, _, h⟩ | ⟨_, ⟨_, _, h⟩ | ⟨_, h⟩⟩
  · unfold lowReg at h
    split at h <;> cases h
    rfl
  · unfold kindReg at h
    split at h <;> cases h
  · cases h
  · unfold highReg at h
    split at h <;> cases h
  · cases h
  · cases h

/-- After a reset STATUS reads ALIGNED alone. -/
theorem readReg_reset_status (s : State) : readReg (resetMachine s) .status = 0x00000040 := by
  show statusWord RunState.reset = 0x00000040
  decide

/-- After a reset every register but STATUS reads 0 (FD has no reset value). -/
theorem readReg_reset_other (s : State) {reg : Reg} (hstatus : reg ≠ .status) (hfd : ∀ k i, reg ≠ .fd k i) :
    readReg (resetMachine s) reg = 0 := by
  cases reg with
  | status => exact absurd rfl hstatus
  | fd k i => exact absurd rfl (hfd k i)
  | bpByte | errBpByte =>
    show (0 : BitAddr).extractLsb' 3 32 = 0
    decide
  | bytesConsumed =>
    show bytesConsumed 0 = 0
    decide
  | m0idx k =>
    show m0idxWord ((PerKind.all { valid := false, index := 0 }).get k) = 0
    rw [PerKind.get_all]
    decide
  | nf k | skip k | nframes k => cases k <;> rfl
  | w j =>
    show RunState.reset.w.get j = 0
    unfold WRegs.get RunState.reset
    split <;> rfl
  | _ => rfl

theorem portRead_resetMachine (s : State) (r : RegNo) (hfd : ∀ k i, regOf s.params.nfmax r.toNat ≠ some (.fd k i)) :
    portRead (resetMachine s) r = if r = 1 then 0x00000040 else 0 := by
  cases hreg : regOf s.params.nfmax r.toNat with
  | none =>
    have hr : r ≠ 1 := by
      rintro rfl
      cases hreg
    rw [portRead_of_none (s := resetMachine s) hreg, if_neg hr]
  | some reg =>
    rw [portRead_of_regOf (s := resetMachine s) hreg]
    by_cases hstatus : reg = .status
    · subst hstatus
      have hr : r = 1 := BitVec.eq_of_toNat_eq (regOf_status hreg)
      rw [if_pos hr, readReg_reset_status]
    · have hr : r ≠ 1 := by
        rintro rfl
        exact hstatus (Option.some.inj hreg).symm
      rw [if_neg hr, readReg_reset_other s hstatus fun k i h => hfd k i (h ▸ hreg)]

/-- Settles O11: both resets are one operation on the state, and the register map reads its registers. -/
theorem resetGivesTheResetState : Obligations.ResetGivesTheResetState := by
  refine ⟨decodeOfEncodeIsTheInstruction .reset rfl, fun s => ⟨resetMachine s, rfl, portRead_resetMachine s,
    fun k => ?_, rfl, fun rest hp hm => ?_⟩⟩
  · cases k <;> exact ⟨rfl, rfl⟩
  · rw [step, fetch, if_neg hm, fetchHost, hp]
    rfl

end Sys2Proof.Machine
end

section
/-! PROOFS. IllegalCommand (60 R204): the register writes that are refused, and every cause of code 5. -/

namespace Sys2Proof.Machine

/-! ## Register writes that are accepted are the ones listed (10 R45, R46) -/

theorem configWrite_of_writeConfig {n : Nat} {v : Word} {reg : Reg} {c c' : Configuration}
    (hreg : regOf 256 n = some reg) (hw : writeConfig 256 c v reg = some c') : ConfigWrite n v.toNat := by
  have hmap := inMap_of_regOf hreg
  rw [← number_of_regOf hreg]
  cases reg with
  | buflen => exact .inl rfl
  | hdrValid | hdrMinthrottle | hdrVbatref | hdrMotorLo | hdrMotorHi => exact .inr (.inl (by decide))
  | hdrFwvariant =>
    have hv : v.toNat < 2 ^ 8 := (Option.ite_none_right_eq_some.mp hw).1
    exact .inr (.inr (.inl ⟨rfl, hv⟩))
  | nf k =>
    have hv : v.toNat ≤ 256 := (Option.ite_none_right_eq_some.mp hw).1
    have hk := code_lt k
    simp only [ConfigWrite, Reg.number]
    omega
  | m0idx k =>
    have hk := code_lt k
    simp only [ConfigWrite, Reg.number]
    omega
  | fd k i =>
    have hv : v.toNat < 2 ^ 8 := (Option.ite_none_right_eq_some.mp hw).1
    have hk := code_lt k
    have hi : i < 256 := hmap
    simp only [ConfigWrite, Reg.number]
    omega
  | _ => cases hw

theorem operandWrite_of_writeOperand {n : Nat} {v : Word} {reg : Reg} {r r' : RunState}
    (hreg : regOf 256 n = some reg) (hw : writeOperand r v reg = some r') : OperandWrite n := by
  rw [← number_of_regOf hreg]
  cases reg with
  | skip k =>
    have hk := code_lt k
    simp only [OperandWrite, Reg.number]
    omega
  | paRaw | paLast | paLlast | paM0 | paValid | paSkip =>
    simp only [OperandWrite, Reg.number]
    omega
  | _ => cases hw

section
variable {s : State} {r : RegNo} {v : Word} {rest : List HostAction}

theorem writeAccepted_of_writeReg {t : State} {reg : Reg} (hn : s.params.nfmax = 256)
    (hreg : regOf 256 r.toNat = some reg) (hw : writeReg s v reg = some t) : WriteAccepted r v s := by
  rcases writeReg_cases hw with ⟨hm, c, hc, _⟩ | ⟨hm | hm, r', hr', _⟩
  · rw [hn] at hc
    exact .inl ⟨hm, .inl (configWrite_of_writeConfig hreg hc)⟩
  · exact .inl ⟨hm, .inr (operandWrite_of_writeOperand hreg hr')⟩
  · exact .inr ⟨hm, operandWrite_of_writeOperand hreg hr'⟩

theorem portWrite_refused (hn : s.params.nfmax = 256) (h : ¬ WriteAccepted r v s) :
    portWrite s r v = afterIllegal s := by
  rcases portWrite_cases s r v with ⟨reg, t, hreg, hw, _⟩ | ⟨_, he⟩
  · rw [hn] at hreg
    exact absurd (writeAccepted_of_writeReg hn hreg hw) h
  · exact he

theorem portWrite_accepted (hn : s.params.nfmax = 256) (h : WriteAccepted r v s) :
    (portWrite s r v).run.status.err = .none := by
  obtain ⟨reg, t, hreg, hw⟩ := writeReg_of_accepted hn h
  rw [portWrite, hn, hreg, Option.bind_some, hw]
  rfl

/-! ## The causes of IllegalCommand -/

theorem decode_ne_ok {e : DecodeError} (hd : decode .command v = .error e) (i : Instr) :
    decode .command v ≠ .ok i := by
  rw [hd]
  exact nofun

/-- A value written to CMD that is no command (30 R78). -/
theorem step_noCommand (hm : s.run.mode ≠ .inframe) (hp : s.port = .write cmdReg v :: rest)
    (hd : ∀ i, decode .command v ≠ .ok i) : step s = .next (afterIllegal { s with port := rest }) := by
  cases hv : decode .command v with
  | ok i => exact absurd hv (hd i)
  | error e =>
    simp only [step, fetch, if_neg hm, fetchHost, hp, hostAction, if_true, hv]
    rfl

/-- FRAME of a kind that is not defined, in every mode (43 R173). -/
theorem exec_frame_empty {k : Kind} (hn : s.cfg.nf.get k = 0) : exec (.frame k) s = .next (afterIllegal s) := by
  by_cases hm : s.run.mode = .between
  · exact exec_frame_undefined hm hn
  · exact whenBetween_refused hm _

end

/-- Settles O8: a word that is no command by the decoder, a command by its mode or by NF, a register write by the list
of those that are accepted. -/
theorem illegalCommandSetsOnlyErr : Obligations.IllegalCommandSetsOnlyErr := by
  intro s r v rest hm hp hcause
  rcases hcause with ⟨rfl, hd⟩ | ⟨rfl, i, hd, hreset, hmode⟩ | ⟨rfl, k, hd, hn⟩ | ⟨hr, hn, hconfig, hoperand⟩
  · exact step_noCommand hm hp hd
  · have hslot : i.slot = .command := (everyDecodedWordIsItsEncoding _ _ _ hd).1
    rw [step_command hm hp hd]
    exact exec_refused (s := { s with port := rest }) hslot hreset hmode
  · rw [step_command hm hp hd]
    exact exec_frame_empty (s := { s with port := rest }) hn
  · rw [step_write hm hp hr, portWrite_refused (s := { s with port := rest }) hn]
    rintro (⟨hc, hw | hw⟩ | ⟨hb, hw⟩)
    · exact hconfig ⟨hc, hw⟩
    · exact hoperand ⟨.inl hc, hw⟩
    · exact hoperand ⟨.inr hb, hw⟩

end Sys2Proof.Machine
end

section
/-! PROOFS. START (43 R181, 60 R205): its search finds the first illegal descriptor in use, in the order of kinds, then
of indices. -/

namespace Sys2Proof.Machine

/-! ## The search within a kind -/

theorem firstIllegal_of_legal {fd : Cells 8} {left i : Nat}
    (h : ∀ j < left, descriptorOk (fd.read (i + j)) = true) : firstIllegal fd left i = none := by
  induction left generalizing i with
  | zero => rfl
  | succ left ih =>
    have hhead : descriptorOk (fd.read i) = true := h 0 (Nat.zero_lt_succ _)
    rw [firstIllegal, if_pos hhead]
    refine ih fun j hj => ?_
    rw [show i + 1 + j = i + (j + 1) by omega]
    exact h (j + 1) (by omega)

theorem firstIllegal_of_first {fd : Cells 8} {left i j : Nat} (hj : j < left)
    (hbefore : ∀ m < j, descriptorOk (fd.read (i + m)) = true) (hbad : descriptorOk (fd.read (i + j)) ≠ true) :
    firstIllegal fd left i = some (i + j) := by
  induction left generalizing i j with
  | zero => exact absurd hj (Nat.not_lt_zero j)
  | succ left ih =>
    cases j with
    | zero => exact if_neg hbad
    | succ j =>
      have hshift : ∀ m, i + 1 + m = i + (m + 1) := fun m => by omega
      have hhead : descriptorOk (fd.read i) = true := hbefore 0 (Nat.zero_lt_succ _)
      rw [firstIllegal, if_pos hhead, ← hshift j]
      exact ih (by omega) (fun m hm => hshift m ▸ hbefore (m + 1) (by omega)) (hshift j ▸ hbad)

/-! ## The search over the kinds -/

/-- Every descriptor of the kind in use is legal. -/
def KindLegal (c : Configuration) (k : Kind) : Prop :=
  ∀ i < (c.nf.get k).toNat, LegalDescriptor ((c.fd.get k).read i)

section
variable {c : Configuration} {k : Kind}

theorem KindLegal.search (h : KindLegal c k) : firstIllegal (c.fd.get k) (c.nf.get k).toNat 0 = none := by
  refine firstIllegal_of_legal fun j hj => ?_
  rw [Nat.zero_add]
  exact (legalDescriptor_iff _).mpr (h j hj)

/-- The search passes over the kinds that are legal. -/
theorem findIllegal_append {before : List Kind} (h : ∀ k' ∈ before, KindLegal c k') (ks : List Kind) :
    findIllegal c (before ++ ks) = findIllegal c ks := by
  induction before with
  | nil => rfl
  | cons a before ih =>
    rw [List.cons_append, findIllegal, (h a List.mem_cons_self).search]
    exact ih fun k' hk' => h k' (List.mem_cons_of_mem a hk')

/-- The search stops at the first illegal descriptor of a kind. -/
theorem findIllegal_cons_of_first {i : Nat} (ks : List Kind) (hi : i < (c.nf.get k).toNat)
    (hbefore : ∀ j < i, LegalDescriptor ((c.fd.get k).read j)) (hbad : ¬ LegalDescriptor ((c.fd.get k).read i)) :
    findIllegal c (k :: ks) = some (k, i) := by
  have hfirst : firstIllegal (c.fd.get k) (c.nf.get k).toNat 0 = some i := by
    have hrec := firstIllegal_of_first (fd := c.fd.get k) (i := 0) hi
      (fun m hm => (Nat.zero_add m).symm ▸ (legalDescriptor_iff _).mpr (hbefore m hm))
      ((Nat.zero_add i).symm ▸ fun hok => hbad ((legalDescriptor_iff _).mp hok))
    rwa [Nat.zero_add] at hrec
  rw [findIllegal, hfirst]

end

/-- The order in which START takes the kinds is that of their codes. -/
theorem kinds_split (k : Kind) :
    ∃ before ks, [Kind.main, .slow, .gps, .gpshome] = before ++ k :: ks ∧ ∀ k' ∈ before, k'.code < k.code := by
  cases k with
  | main => exact ⟨[], _, rfl, by decide⟩
  | slow => exact ⟨[.main], _, rfl, by decide⟩
  | gps => exact ⟨[.main, .slow], _, rfl, by decide⟩
  | gpshome => exact ⟨[.main, .slow, .gps], _, rfl, by decide⟩

/-! ## ERRFI outside FRAME (10 R27) -/

theorem errFiWord_outside (k : Kind) {i : Nat} (h : i < 2 ^ 16) :
    errFiWord false k i = BitVec.ofNat 32 (65536 * k.code.toNat + i) := by
  have hzero : (0 : BitVec 13).toNat = 0 := rfl
  have hout : (BitVec.ofBool false).toNat = 0 := rfl
  have hk := code_lt k
  apply BitVec.eq_of_toNat_eq
  rw [errFiWord, toNat_append_eq_add, toNat_append_eq_add, toNat_append_eq_add, hzero, hout, BitVec.toNat_ofNat,
    BitVec.toNat_ofNat]
  omega

/-! ## START -/

/-- Settles O9: by what the search finds. -/
theorem startChecksTheDescriptors : Obligations.StartChecksTheDescriptors := by
  refine ⟨decodeOfEncodeIsTheInstruction .start rfl, fun s => ⟨fun hm => if_neg hm, fun hm hlegal => ?_,
    fun k i hm hi hbad hbefore => ?_⟩⟩
  · have hnone : findIllegal s.cfg ([.main, .slow, .gps, .gpshome] ++ []) = none :=
      findIllegal_append (fun k _ => hlegal k) []
    show execStart s = _
    rw [List.append_nil] at hnone
    rw [execStart, if_pos hm, hnone]
    rfl
  · obtain ⟨before, ks, hsplit, hcode⟩ := kinds_split k
    have hsome : findIllegal s.cfg [.main, .slow, .gps, .gpshome] = some (k, i) := by
      rw [hsplit, findIllegal_append fun k' hk' j hj => hbefore k' j hj (.inl (hcode k' hk'))]
      exact findIllegal_cons_of_first ks hi (fun j hj => hbefore k j (hj.trans hi) (.inr ⟨rfl, hj⟩)) hbad
    have hword := errFiWord_outside k (hi.trans (s.cfg.nf.get k).isLt)
    show execStart s = _
    rw [execStart, if_pos hm, hsome, ← hword]
    rfl

end Sys2Proof.Machine
end

section
/-! PROOFS. Exceptions at the grain of a command (60 R207, R212): whichever command raises takes the exception in the
state it began with, FRAME apart, which is abandoned. -/

namespace Sys2Proof.Machine

/-- The code is one of the three that a raise leaves (60 R200, R207). -/
def RaisedCode (e : ErrCode) : Prop := e = .endOfData ∨ e = .malformedFrame ∨ e = .invalidHeaderReference

theorem not_raisedCode_none : ¬ RaisedCode .none := by simp [RaisedCode]

theorem not_raisedCode_illegalCommand : ¬ RaisedCode .illegalCommand := by simp [RaisedCode]

theorem not_raisedCode_illegalDescriptor : ¬ RaisedCode .illegalDescriptor := by simp [RaisedCode]

theorem not_raised_of_next {t u : State} (h : (.next u : Out) = .next t) (hu : ¬ RaisedCode u.run.status.err) :
    ¬ RaisedCode t.run.status.err := by
  cases h
  exact hu

/-- The exception taken in BETWEEN, in the state that the command began with. -/
def RaisedAtEntry (s t : State) : Prop := s.run.mode = .between ∧ ∃ x pos, t = takeException x pos 0 s

section
variable {s t : State}

/-- A command for BETWEEN raises what its body raises. -/
theorem whenBetween_raises {o : Out} (ho : o = .next t → ∃ x pos, t = takeException x pos 0 s)
    (h : whenBetween s o = .next t) (herr : RaisedCode t.run.status.err) : RaisedAtEntry s t := by
  rcases whenBetween_cases h with ⟨hm, h⟩ | rfl
  · exact ⟨hm, ho h⟩
  · exact absurd herr not_raisedCode_illegalCommand

theorem finishRead_raises {r : Rd (List Word)} (herr : RaisedCode t.run.status.err) (h : finishRead s r = .next t) :
    ∃ x pos, t = takeException x pos 0 s := by
  cases r with
  | ok ws bp =>
    exact absurd herr (not_raised_of_next h not_raisedCode_none)
  | raised x pos => exact ⟨x, pos, (Host.Outcome.next.inj h).symm⟩

theorem bitCommand_raises {r : Rd Word} (h : bitCommand s r = .next t) (herr : RaisedCode t.run.status.err) :
    RaisedAtEntry s t := whenBetween_raises (finishRead_raises herr) h herr

theorem countedRead_raises {n : BitVec 6} {r : Rd Word}
    (h : (if n.toNat ≤ 32 then bitCommand s r else .next (illegalCommand s)) = .next t)
    (herr : RaisedCode t.run.status.err) : RaisedAtEntry s t := by
  split at h
  · exact bitCommand_raises h herr
  · exact absurd herr (not_raised_of_next h not_raisedCode_illegalCommand)

theorem decCommand_raises {e : Enc} {want : BitVec 4} {dec : Stream → Nat → Nat → Rd (List Word)}
    (h : decCommand e want s dec = .next t) (herr : RaisedCode t.run.status.err) : RaisedAtEntry s t := by
  unfold decCommand at h
  split at h
  · exact whenBetween_raises (finishRead_raises herr) h herr
  · exact absurd herr (not_raised_of_next h not_raisedCode_illegalCommand)

theorem predCommand_raises {p : Pred} {sg : Bool} (h : predCommand p sg s = .next t)
    (herr : RaisedCode t.run.status.err) : RaisedAtEntry s t := by
  refine whenBetween_raises (fun ho => ?_) h herr
  split at ho
  · exact absurd herr (not_raised_of_next ho not_raisedCode_none)
  · exact ⟨_, _, (Host.Outcome.next.inj ho).symm⟩

theorem execStart_not_raised (h : execStart s = .next t) : ¬ RaisedCode t.run.status.err := by
  unfold execStart at h
  split at h
  · split at h
    · exact not_raised_of_next h not_raisedCode_illegalDescriptor
    · exact not_raised_of_next h not_raisedCode_none
  · exact not_raised_of_next h not_raisedCode_illegalCommand

/-- Whichever command but FRAME raises: nothing has been done before the exception is taken (60 R207). -/
theorem exec_raises {i : Instr} (hslot : i.slot = .command) (hframe : ∀ k, i ≠ .frame k) (h : exec i s = .next t)
    (herr : RaisedCode t.run.status.err) : RaisedAtEntry s t := by
  cases i with
  | start => exact absurd herr (execStart_not_raised h)
  | endStream | align =>
    refine whenBetween_raises (fun ho => ?_) h herr
    exact absurd herr (not_raised_of_next ho not_raisedCode_none)
  | reset => exact absurd herr (not_raised_of_next h not_raisedCode_none)
  | rdbits | rdabits => exact countedRead_raises h herr
  | rduvar | rdsvar =>
    rw [exec] at h
    exact bitCommand_raises h herr
  | decSvar | decUvar | decNeg14 | decTagvar | decTag32 | decTag16 | decNull =>
    rw [exec] at h
    exact decCommand_raises h herr
  | predZero | predPrevious | predStraightline | predAverage2 | predMinthrottle | predMotor0 | predIncrement
  | predHomelat | predFifteenhundred | predVbatref | predLastmainframetime | predMinmotor =>
    rw [exec] at h
    exact predCommand_raises h herr
  | frame k => exact absurd rfl (hframe k)
  | _ => cases hslot

/-- FRAME raises from inside a frame that it has entered: the frame is abandoned. -/
theorem exec_frame_raises {k : Kind} (h : exec (.frame k) s = .next t) (herr : RaisedCode t.run.status.err) :
    FrameAbandoned k s t := by
  have hadmitted : exec (.frame k) s ≠ .next (afterIllegal s) := fun he =>
    not_raised_of_next (he.symm.trans h) not_raisedCode_illegalCommand herr
  have hm : s.run.mode = .between := by_contra fun hm => hadmitted (whenBetween_refused hm _)
  have hn : s.cfg.nf.get k ≠ 0 := fun hn => hadmitted (exec_frame_empty hn)
  exact (frame_ends hm hn h).resolve_left fun hc => not_raisedCode_none (hc.err ▸ herr)

end

/-- Settles O56: FRAME by the abandonment, every other command by the exception taken where it began. -/
theorem exceptionsArePrecise : Obligations.ExceptionsArePrecise := by
  intro s t i hslot _ h herr
  by_cases hframe : ∃ k, i = .frame k
  · obtain ⟨k, rfl⟩ := hframe
    obtain ⟨x, pos, j, stubs, cf, _, rfl⟩ := exec_frame_raises h herr
    rw [badFrame, frameTraces_keeps]
    refine ⟨rfl, rfl, rfl, rfl, rfl, rfl, rfl, rfl, rfl, rfl, ?_, fun _ => errFiWord_inFrame k j,
      fun hno => absurd rfl (hno k)⟩
    cases x <;> rfl
  · obtain ⟨hm, x, pos, rfl⟩ := exec_raises hslot (not_exists.mp hframe) h herr
    rw [takeException_outside (by simp [hm])]
    refine ⟨rfl, rfl, rfl, rfl, rfl, rfl, rfl, rfl, rfl, rfl, ?_, fun hk => absurd hk hframe,
      fun _ => ⟨rfl, rfl, rfl, rfl⟩⟩
    cases x with
    | endOfData | malformedFrame => exact hm
    | invalidHeaderReference => rfl

end Sys2Proof.Machine
end

section
/-! PROOFS. STATUS.ERR, ERRFI and ERRBP (60 R206): every write sets ERR whatever it was, a write that does not complete
leaves no result, and only a raise writes the other two. -/

namespace Sys2Proof.Machine

/-! ## The ERR before a write plays no part in it -/

section
variable (c : ErrCode) {s : State}

theorem whenBetween_withErr {o o' : Out} (h : o' = o) : whenBetween (withErr c s) o' = whenBetween s o := by
  subst h
  rfl

theorem finishRead_withErr (s : State) (r : Rd (List Word)) : finishRead (withErr c s) r = finishRead s r := by
  cases r with
  | ok ws bp => rfl
  | raised x pos => rw [finishRead, finishRead, takeException_withErr]

theorem bitCommand_withErr (s : State) (r : Rd Word) : bitCommand (withErr c s) r = bitCommand s r :=
  whenBetween_withErr c (finishRead_withErr c s _)

theorem countedRead_withErr (s : State) (n : BitVec 6) (r : Rd Word) :
    (if n.toNat ≤ 32 then bitCommand (withErr c s) r else .next (illegalCommand (withErr c s))) =
      if n.toNat ≤ 32 then bitCommand s r else .next (illegalCommand s) := by
  rw [bitCommand_withErr]
  rfl

theorem decCommand_withErr (s : State) (e : Enc) (want : BitVec 4) (dec : Stream → Nat → Nat → Rd (List Word)) :
    decCommand e want (withErr c s) dec = decCommand e want s dec := by
  unfold decCommand
  split
  · exact whenBetween_withErr c (finishRead_withErr c s _)
  · rfl

theorem diagnose_withErr (p : Pred) (s : State) : diagnose p (withErr c s) = withErr c (diagnose p s) := by
  unfold diagnose
  split <;> rfl

theorem predCommand_withErr (s : State) (p : Pred) (sg : Bool) :
    predCommand p sg (withErr c s) = predCommand p sg s := by
  refine whenBetween_withErr c ?_
  rw [takeException_withErr, diagnose_withErr]
  rfl

theorem execStart_withErr (s : State) : execStart (withErr c s) = execStart s := by
  unfold execStart
  split
  · cases findIllegal s.cfg [.main, .slow, .gps, .gpshome] <;> rfl
  · rfl

theorem execFrame_withErr (s : State) (k : Kind) : execFrame k (withErr c s) = execFrame k s := by
  refine whenBetween_withErr c ?_
  split
  · rfl
  · exact frameRuns_withErr c _ (enterFrame k s) rfl

/-- The next state after a command does not depend on the ERR before it. -/
theorem exec_withErr {i : Instr} (hslot : i.slot = .command) : exec i (withErr c s) = exec i s := by
  cases i with
  | start => exact execStart_withErr c s
  | endStream | align => exact whenBetween_withErr c rfl
  | reset => rfl
  | rdbits n | rdabits n => exact countedRead_withErr c s n _
  | rduvar | rdsvar => exact bitCommand_withErr c s _
  | decSvar want | decUvar want | decNeg14 want | decTagvar want | decTag32 want | decTag16 want | decNull want =>
    exact decCommand_withErr c s _ want _
  | predZero sg | predPrevious sg | predStraightline sg | predAverage2 sg | predMinthrottle sg | predMotor0 sg
  | predIncrement sg | predHomelat sg | predFifteenhundred sg | predVbatref sg | predLastmainframetime sg
  | predMinmotor sg =>
    rw [exec, exec]
    exact predCommand_withErr c s _ sg
  | frame k => exact execFrame_withErr c s k
  | _ => cases hslot

theorem writeOperand_withErr (r : RunState) (v : Word) (reg : Reg) :
    writeOperand { r with status.err := c } v reg =
      (writeOperand r v reg).map fun r' => { r' with status.err := c } := by
  cases reg <;> rfl

/-- A write of a register that is not configuration, where writes are allowed. -/
theorem writeReg_eq_operand {v : Word} {reg : Reg}
    (h : (s.run.mode = .config ∧ writeConfig s.params.nfmax s.cfg v reg = none) ∨ s.run.mode = .between) :
    writeReg s v reg = (writeOperand s.run v reg).map fun r => { s with run := r } := by
  rcases h with ⟨hm, hc⟩ | hm
  · simp only [writeReg, hm, hc]
  · simp only [writeReg, hm]

theorem writeReg_withErr (s : State) (v : Word) (reg : Reg) :
    writeReg (withErr c s) v reg = (writeReg s v reg).map (withErr c) := by
  have hoperand : (s.run.mode = .config ∧ writeConfig s.params.nfmax s.cfg v reg = none) ∨ s.run.mode = .between →
      writeReg (withErr c s) v reg = (writeReg s v reg).map (withErr c) := fun hm => by
    rw [writeReg_eq_operand hm, writeReg_eq_operand (s := withErr c s) hm, writeOperand_withErr, Option.map_map,
      Option.map_map]
    rfl
  cases hm : s.run.mode with
  | config =>
    cases hc : writeConfig s.params.nfmax s.cfg v reg with
    | some c' =>
      rw [writeReg_config hm hc, writeReg_config (s := withErr c s) hm hc]
      rfl
    | none => exact hoperand (.inl ⟨hm, hc⟩)
  | between => exact hoperand (.inr hm)
  | inframe | eos | fatal => simp only [writeReg, hm, Option.map_none]

theorem portWrite_withErr (s : State) (r : RegNo) (v : Word) : portWrite (withErr c s) r v = portWrite s r v := by
  have hwrite : writeReg (withErr c s) v = fun reg => (writeReg s v reg).map (withErr c) :=
    funext (writeReg_withErr c s v)
  rw [portWrite, portWrite, hwrite]
  cases regOf s.params.nfmax r.toNat with
  | none => rfl
  | some reg => cases hw : writeReg s v reg <;> simp only [Option.bind_some, hw] <;> rfl

/-- The next state after a write does not depend on the ERR before it. -/
theorem step_withErr {r : RegNo} {v : Word} {rest : List HostAction} (hm : s.run.mode ≠ .inframe)
    (hp : s.port = .write r v :: rest) : step (withErr c s) = step s := by
  by_cases hr : r = cmdReg
  · subst hr
    cases hd : decode .command v with
    | ok i =>
      rw [step_command hm hp hd, step_command (s := withErr c s) hm hp hd]
      exact exec_withErr c (s := { s with port := rest }) (everyDecodedWordIsItsEncoding _ _ _ hd).1
    | error e =>
      rw [step_noCommand hm hp (decode_ne_ok hd), step_noCommand (s := withErr c s) hm hp (decode_ne_ok hd)]
      rfl
  · rw [step_write hm hp hr, step_write (s := withErr c s) hm hp hr]
    exact congrArg Host.Outcome.next (portWrite_withErr c { s with port := rest } r v)

end

/-! ## A write that does not complete leaves no result -/

/-- The configuration, BP, W, WCNT, PVAL, the PA registers, the history, NFRAMES and the events are the same. -/
def ResultsKept (s t : State) : Prop :=
  t.cfg = s.cfg ∧ t.run.bp = s.run.bp ∧ t.run.w = s.run.w ∧ t.run.wcnt = s.run.wcnt ∧ t.run.pval = s.run.pval ∧
    t.run.pa = s.run.pa ∧ t.run.hist = s.run.hist ∧ t.run.stats.nframes = s.run.stats.nframes ∧ t.run.ev = s.run.ev

section
variable {s t : State}

theorem FrameAbandoned.keeps_results {k : Kind} (h : FrameAbandoned k s t) : ResultsKept s t := by
  obtain ⟨x, pos, i, stubs, cf, _, rfl⟩ := h
  rw [badFrame, frameTraces_keeps]
  exact ⟨rfl, rfl, rfl, rfl, rfl, rfl, rfl, rfl, rfl⟩

theorem exec_keeps_results {i : Instr} (hm : s.run.mode ≠ .inframe) (h : exec i s = .next t)
    (herr : t.run.status.err ≠ .none) : ResultsKept s t := by
  cases exec_outcome hm h with
  | refused | illegalDefinition | raised | headerAbsent => exact ⟨rfl, rfl, rfl, rfl, rfl, rfl, rfl, rfl, rfl⟩
  | started | ended | reset | aligned | completedRead | predicted => exact absurd rfl herr
  | frame k _ hb hn => exact ((frame_ends hb hn h).resolve_left fun hc => herr hc.err).keeps_results

theorem portWrite_keeps_results (r : RegNo) (v : Word) (herr : (portWrite s r v).run.status.err ≠ .none) :
    ResultsKept s (portWrite s r v) := by
  rcases portWrite_cases s r v with ⟨reg, t, _, _, he⟩ | ⟨_, he⟩
  · rw [he] at herr
    exact absurd rfl herr
  · rw [he]
    exact ⟨rfl, rfl, rfl, rfl, rfl, rfl, rfl, rfl, rfl⟩

/-! ## Only a raise writes ERRFI and ERRBP -/

/-- ERRFI and ERRBP are the same. -/
def RaiseRegistersKept (s t : State) : Prop := t.run.errFi = s.run.errFi ∧ t.run.errBp = s.run.errBp

theorem FrameCommitted.keeps_raise {k : Kind} (h : FrameCommitted k s t) : RaiseRegistersKept s t := by
  obtain ⟨u, ⟨stubs, bp, cf, fi, raw, rj, rfl, _⟩, rfl⟩ := h
  rw [midFrame, frameTraces_keeps]
  exact ⟨rfl, rfl⟩

theorem exception_err_raised (x : Exc) : RaisedCode x.err := by
  cases x with
  | endOfData => exact .inl rfl
  | malformedFrame => exact .inr (.inl rfl)
  | invalidHeaderReference => exact .inr (.inr rfl)

theorem FrameAbandoned.raised {k : Kind} (h : FrameAbandoned k s t) : RaisedCode t.run.status.err := by
  obtain ⟨x, _, _, _, _, _, rfl⟩ := h
  exact exception_err_raised x

theorem not_raisedCode_of_quiet {e : ErrCode} (h : e = .none ∨ e = .illegalCommand) : ¬ RaisedCode e := by
  rcases h with rfl | rfl
  · exact not_raisedCode_none
  · exact not_raisedCode_illegalCommand

theorem exec_keeps_raise {i : Instr} (hm : s.run.mode ≠ .inframe) (hreset : i ≠ .reset) (h : exec i s = .next t)
    (herr : t.run.status.err = .none ∨ t.run.status.err = .illegalCommand) : RaiseRegistersKept s t := by
  have hquiet := not_raisedCode_of_quiet herr
  cases exec_outcome hm h with
  | refused | started | ended | aligned | completedRead => exact ⟨rfl, rfl⟩
  | illegalDefinition => exact absurd herr (by simp)
  | reset => exact absurd rfl hreset
  | raised _ x => exact absurd (exception_err_raised x) hquiet
  | headerAbsent => exact absurd (exception_err_raised .invalidHeaderReference) hquiet
  | predicted _ p => exact ⟨diagnose_run_errFi p s, diagnose_run_errBp p s⟩
  | frame k _ hb hn => exact ((frame_ends hb hn h).resolve_right fun ha => hquiet ha.raised).keeps_raise

theorem portWrite_keeps_raise (r : RegNo) (v : Word) : RaiseRegistersKept s (portWrite s r v) := by
  rcases portWrite_cases s r v with ⟨reg, t, _, hw, he⟩ | ⟨_, he⟩
  · rw [he, writeReg_keeps hw]
    exact ⟨rfl, rfl⟩
  · rw [he]
    exact ⟨rfl, rfl⟩

/-! ## The step -/

theorem step_write_keeps_results {r : RegNo} {v : Word} {rest : List HostAction} (hm : s.run.mode ≠ .inframe)
    (hp : s.port = .write r v :: rest) (ht : step s = .next t) (herr : t.run.status.err ≠ .none) :
    ResultsKept s t := by
  by_cases hr : r = cmdReg
  · subst hr
    cases hd : decode .command v with
    | ok i =>
      rw [step_command hm hp hd] at ht
      exact exec_keeps_results (s := { s with port := rest }) hm ht herr
    | error e =>
      rw [step_noCommand hm hp (decode_ne_ok hd), Host.Outcome.next.injEq] at ht
      exact ht ▸ ⟨rfl, rfl, rfl, rfl, rfl, rfl, rfl, rfl, rfl⟩
  · rw [step_write hm hp hr, Host.Outcome.next.injEq] at ht
    subst ht
    exact portWrite_keeps_results (s := { s with port := rest }) r v herr

theorem step_keeps_raise (hm : s.run.mode ≠ .inframe) (ht : step s = .next t) (hreset : ¬ resetsNext s)
    (herr : t.run.status.err = .none ∨ t.run.status.err = .illegalCommand) : RaiseRegistersKept s t := by
  rcases step_host hm with ⟨_, he⟩ | ⟨rest, hp, _⟩ | ⟨r, rest, _, he⟩ | ⟨v, rest, i, hp, hd, he⟩ |
    ⟨v, rest, e, _, _, he⟩ | ⟨r, v, rest, _, _, he⟩
  · exact Host.Outcome.next.inj (he.symm.trans ht) ▸ ⟨rfl, rfl⟩
  · exact absurd ⟨rest, .inl hp⟩ hreset
  · exact Host.Outcome.next.inj (he.symm.trans ht) ▸ ⟨rfl, rfl⟩
  · exact exec_keeps_raise (s := { s with port := rest }) hm (fun hi => hreset ⟨rest, .inr ⟨v, hp, hi ▸ hd⟩⟩)
      (he.symm.trans ht) herr
  · exact Host.Outcome.next.inj (he.symm.trans ht) ▸ ⟨rfl, rfl⟩
  · exact Host.Outcome.next.inj (he.symm.trans ht) ▸ portWrite_keeps_raise (s := { s with port := rest }) r v

end

/-- Settles O54: each host action by its step equation; what does not complete keeps every result, and what does not
raise keeps ERRFI and ERRBP. -/
theorem errorRegistersKeepTheLastRaise : Obligations.ErrorRegistersKeepTheLastRaise := by
  intro s t hm ht
  refine ⟨fun r rest hp => ?_, fun r v rest hp => ⟨fun e => (step_withErr e hm hp).trans ht, fun hr hn => ?_,
    fun hr hno => ?_, step_write_keeps_results hm hp ht⟩, step_keeps_raise hm ht⟩
  · rw [step_read hm hp, Host.Outcome.next.injEq] at ht
    exact ht ▸ ⟨rfl, rfl, rfl⟩
  · rw [step_write hm hp hr, Host.Outcome.next.injEq] at ht
    subst ht
    refine ⟨fun hacc => portWrite_accepted (s := { s with port := rest }) hn hacc, fun hacc => ?_⟩
    rw [portWrite_refused (s := { s with port := rest }) hn hacc]
    rfl
  · subst hr
    rw [step_noCommand hm hp hno, Host.Outcome.next.injEq] at ht
    exact ht ▸ rfl

end Sys2Proof.Machine
end

section
/-! PROOFS. The reset state has the invariant (70 R230), and from START to the next reset the configuration is locked
(70 R246): the steps inside FRAME, the commands but RESET and the register writes outside CONFIG all keep it. -/

namespace Sys2Proof.Machine

/-- Settles O57: the reset state is what a reset leaves of itself, and its BUF lists no byte. -/
theorem resetHasTheInvariant : Obligations.ResetHasTheInvariant :=
  show Inv (resetMachine State.reset) from inv_resetMachine Memory.wf_nil

section
variable {s t : State}

/-! ## Inside FRAME -/

theorem decodeRun_keeps_cfg {e : Enc} (h : decodeRun e (decoderOf e) s = .next t) : t.cfg = s.cfg := by
  obtain ⟨_, _, ⟨ws, bp, _, _, rfl⟩ | ⟨x, pos, rfl⟩⟩ := decodeRun_next h
  · exact setBp_cfg bp s
  · rfl

theorem fieldStep_keeps_cfg {p : Pred} {sg : Bool} {e : Enc} (h : fieldStep p sg e s = .next t) : t.cfg = s.cfg := by
  obtain ⟨_, _, ⟨v, rfl⟩ | rfl⟩ := fieldStep_next h
  · exact diagnose_cfg p s
  · rfl

theorem closeFrame_keeps_cfg (hm : s.run.mode = .inframe) (h : closeFrame s = .next t) : t.cfg = s.cfg := by
  rw [closeFrame, if_pos hm, Host.Outcome.next.injEq, finishFrame, takeException_inside hm] at h
  subst h
  split
  · exact commit_cfg s
  · rfl

theorem step_inside_keeps_cfg (hm : s.run.mode = .inframe) (ht : step s = .next t) : t.cfg = s.cfg := by
  rcases step_inside_cases hm ht with ⟨_, h⟩ | ⟨_, _, _, h⟩ | h
  · exact decodeRun_keeps_cfg h
  · exact fieldStep_keeps_cfg h
  · exact closeFrame_keeps_cfg hm h

/-! ## Between commands -/

theorem FrameCommitted.keeps_cfg {k : Kind} (h : FrameCommitted k s t) : t.cfg = s.cfg := by
  obtain ⟨u, ⟨stubs, bp, cf, fi, raw, rj, rfl, _⟩, rfl⟩ := h
  rw [commit_cfg, midFrame_cfg]

theorem FrameAbandoned.keeps_cfg {k : Kind} (h : FrameAbandoned k s t) : t.cfg = s.cfg := by
  obtain ⟨hcfg, _⟩ := h.keeps_results
  exact hcfg

/-- Every command but RESET keeps the configuration, START and FRAME too. -/
theorem exec_keeps_cfg {i : Instr} (hm : s.run.mode ≠ .inframe) (hreset : i ≠ .reset) (h : exec i s = .next t) :
    t.cfg = s.cfg := by
  cases exec_outcome hm h with
  | refused | illegalDefinition | started | ended | aligned | completedRead | raised | headerAbsent => rfl
  | reset => exact absurd rfl hreset
  | predicted _ p => exact diagnose_cfg p s
  | frame k _ hb hn => exact (frame_ends hb hn h).elim FrameCommitted.keeps_cfg FrameAbandoned.keeps_cfg

theorem portWrite_keeps_cfg (hc : s.run.mode ≠ .config) (r : RegNo) (v : Word) : (portWrite s r v).cfg = s.cfg := by
  rcases portWrite_cases s r v with ⟨reg, u, _, hw, he⟩ | ⟨_, he⟩ <;> rw [he]
  · rcases writeReg_cases hw with ⟨hconfig, _⟩ | ⟨_, r', _, rfl⟩
    · exact absurd hconfig hc
    · rfl
  · rfl

theorem step_outside_keeps_cfg (hc : s.run.mode ≠ .config) (hm : s.run.mode ≠ .inframe) (hreset : ¬ resetsNext s)
    (ht : step s = .next t) : t.cfg = s.cfg := by
  rcases step_host hm with ⟨_, he⟩ | ⟨rest, hp, _⟩ | ⟨r, rest, _, he⟩ | ⟨v, rest, i, hp, hd, he⟩ |
    ⟨v, rest, e, _, _, he⟩ | ⟨r, v, rest, _, _, he⟩
  · exact Host.Outcome.next.inj (he.symm.trans ht) ▸ rfl
  · exact absurd ⟨rest, .inl hp⟩ hreset
  · exact Host.Outcome.next.inj (he.symm.trans ht) ▸ rfl
  · exact exec_keeps_cfg (s := { s with port := rest }) hm (fun hi => hreset ⟨rest, .inr ⟨v, hp, hi ▸ hd⟩⟩)
      (he.symm.trans ht)
  · exact Host.Outcome.next.inj (he.symm.trans ht) ▸ rfl
  · exact Host.Outcome.next.inj (he.symm.trans ht) ▸ portWrite_keeps_cfg (s := { s with port := rest }) hc r v

end

/-! ## Writes to the configuration -/

/-- The numbers of HDR_*, BUFLEN, NF, M0IDX and FD (10 R45, at NFMAX = 256). -/
def ConfigNumber (n : Nat) : Prop :=
  (0x8 ≤ n ∧ n ≤ 0xD) ∨ n = 0x4 ∨ (0x10 ≤ n ∧ n < 0x18) ∨ (0x1000 ≤ n ∧ n < 0x1400)

theorem ConfigNumber.not_operandWrite {n : Nat} (h : ConfigNumber n) : ¬ OperandWrite n := by
  simp only [ConfigNumber, OperandWrite] at *
  omega

/-- CMD, 0x50, is no configuration register. -/
theorem ConfigNumber.ne_cmdReg {r : RegNo} (h : ConfigNumber r.toNat) : r ≠ cmdReg := by
  rintro rfl
  exact absurd h (by unfold ConfigNumber; decide)

theorem ConfigNumber.not_writeAccepted {s : State} {r : RegNo} (h : ConfigNumber r.toNat) (hc : s.run.mode ≠ .config)
    (v : Word) : ¬ WriteAccepted r v s := by
  rintro (⟨hconfig, _⟩ | ⟨_, hw⟩)
  · exact hc hconfig
  · exact h.not_operandWrite hw

/-- Settles O50: a step is one inside FRAME or one host action, and outside CONFIG no configuration register is among
those that a write may set. -/
theorem configurationIsLocked : Obligations.ConfigurationIsLocked := by
  intro s hc
  refine ⟨fun t ht hcause => ?_, fun r v rest hm hn hp hr => ?_⟩
  · by_cases hm : s.run.mode = .inframe
    · exact step_inside_keeps_cfg hm ht
    · exact step_outside_keeps_cfg hc hm (hcause.resolve_left hm) ht
  · have hr : ConfigNumber r.toNat := hr
    rw [step_write hm hp hr.ne_cmdReg, portWrite_refused (s := { s with port := rest }) hn (hr.not_writeAccepted hc v)]

end Sys2Proof.Machine
end
